-- ==== Sys2Proof/Word.lean ====
section
/-! DEFINITION. The one word type of BTE: the byte. BTE has no wider machine word (00_scope.md section 5.1). -/

namespace Sys2Proof

/-- A byte, an unsigned integer 0..255 (00_scope.md section 5.1). -/
abbrev Byte := BitVec 8

end Sys2Proof
end

