-- ==== Sys2Proof/Config.lean ====
section
/-! DEFINITION. The configuration record `cfg` of rules R4 and R10: what the integrator supplies once and nothing changes.
No parameter has a value in the spec, so the record is carried beside the engine's state and every statement quantifies over it. -/

namespace Sys2Proof

/-- The configuration record (R4, R10). Durations are counted in `Tick` events.
`TICK_PERIOD` (a positive real number of seconds) is held as the fraction `tickPeriodNum / tickPeriodDen`; no rule reads it.
`DIR_TX_LEVEL` is the electrical level of the direction pin that means transmit-enable; no rule reads it. -/
structure Cfg where
  tTurn         : Nat
  tTimeout      : Nat
  tByte         : Nat
  qDepth        : Nat
  rxCap         : Nat
  nClients      : Nat
  tickPeriodNum : Nat
  tickPeriodDen : Nat
  dirTxLevel    : BitVec 1
  deriving DecidableEq, Repr

/-- The configuration `State.reset` carries: the smallest legal value of every parameter.
DESIGN CHOICE, unsafe, log entry 1: the spec gives no parameter a value (R4), and no statement rests on these. -/
def Cfg.least : Cfg where
  tTurn         := 1
  tTimeout      := 1
  tByte         := 1
  qDepth        := 1
  rxCap         := 261
  nClients      := 1
  tickPeriodNum := 1
  tickPeriodDen := 1
  dirTxLevel    := 1

end Sys2Proof
end

