-- ==== Sys2Proof/Machine/Constants.lean ====
section
/-! DEFINITION. The constants of rules R3 and R5, and when a configuration is legal (R4, R10). -/

namespace Sys2Proof.Machine

/-- `HDR0` and `HDR1`: both header bytes are 0xFF (R3). -/
def hdr : Byte := 0xFF

/-- `OP_READ` (R3). -/
def opRead : Byte := 0x02

/-- `OP_WRITE` (R3). -/
def opWrite : Byte := 0x03

/-- `LEN_READ`: the LEN field of a read instruction frame (R3). -/
def lenRead : Byte := 4

/-- `ERR_NONE` (R3). -/
def errNone : Byte := 0

/-- `ID_ADDR_MAX`: the largest addressed target (R3). -/
def idAddrMax : Nat := 253

/-- `ID_BCAST`: the broadcast target (R3). -/
def idBcast : Nat := 254

/-- `STATUS_MIN`: the length of a status frame with no parameters (R3). -/
def statusMin : Nat := 6

/-- `DATA_MAX`: the largest number of data bytes of a write (R5). -/
def dataMax : Nat := 252

/-- `TX_MAX`: the longest instruction frame (R6). -/
def txMax : Nat := 259

/-- `RX_MAX`: the longest expected status frame (R6). -/
def rxMax : Nat := 261

/-- A configuration that meets every constraint of R4. The model refuses any other (R10, R243). -/
def legalCfg (cfg : Cfg) : Bool :=
  decide (1 ≤ cfg.tTurn) && decide (1 ≤ cfg.tTimeout) && decide (1 ≤ cfg.tByte) && decide (1 ≤ cfg.qDepth)
    && decide (rxMax ≤ cfg.rxCap) && decide (1 ≤ cfg.nClients)
    && decide (0 < cfg.tickPeriodNum) && decide (0 < cfg.tickPeriodDen)

end Sys2Proof.Machine
end

