-- ==== Sys2Proof/Syntax.lean ====
section
/-! DEFINITION. The records of 30_encoding.md (request, result), the operations of spec/opcode_table.json (`Instr`, one
constructor a row), and the packets in which an operation reaches the machine. -/

namespace Sys2Proof

/-- A request (R66). The fields are naturals, so that the source's out-of-range failure can be stated. -/
inductive Request where
  | rd (target address length : Nat)
  | wr (target address : Nat) (data : List Byte)
  deriving DecidableEq, Repr

/-- The five reasons of a `Failure` (R67, R200). -/
inductive Reason where
  | constructionError
  | timeout
  | shortFrame
  | badHeader
  | checksumMismatch
  deriving DecidableEq, Repr

/-- A transaction's result (R67). `DeviceError(code)` is no third tag: it is `success _ code` with `code` not 0 (R206). -/
inductive Result where
  | success (data : List Byte) (err : Byte)
  | failure (reason : Reason)
  deriving DecidableEq, Repr

/-- The operations of spec/opcode_table.json, one constructor a row.

* `read`, `write`, `status`: the three frames on the line (R61, R62, R63), with every byte that is not fixed by the row's
  match and mask, the checksum byte among them, so that a malformed frame can be written too.
* `rd`, `wr`, `wrBcast`: the three request kinds on the request port (R155, R156, R157); `c` is the port's `client` field.
* `chk`, `encRd`, `encWr`, `decSt`: the codec's operations (R90, R94, R95, R97).
* `send`, `turn`, `recv`: the transceiver's three phases (R120, R122, R123). Their operands (`txbuf`, `exp_len`) are state.
* `exec`: `execute(request)` (R165), submitted by client `c`. -/
inductive Instr where
  | read (t a n k : Byte)
  | write (t l a : Byte) (d : List Byte) (k : Byte)
  | status (id l e : Byte) (p : List Byte) (k : Byte)
  | rd (c t a n : Nat)
  | wr (c t a : Nat) (d : List Byte)
  | wrBcast (c a : Nat) (d : List Byte)
  | chk (bs : List Byte)
  | encRd (t a n : Nat)
  | encWr (t a : Nat) (d : List Byte)
  | decSt (raw : List Byte) (e : Nat)
  | send
  | turn
  | recv
  | exec (c : Nat) (q : Request)
  deriving DecidableEq, Repr

/-- How an operation is presented to the machine; decoding (Sys2Proof/Decode.lean) reads an `Instr` from it.

* `instrFrame`: the bytes of an instruction frame on the line, in transmission order.
* `statusFrame`: the bytes of a status frame from the line, in transmission order.
* `port`: the request port (R66): the port's `client` field, the 25 or 26 fixed bits as the low bits of a 32-bit word
  with `kind` leftmost, and the data bytes of a write.
* `call`: an operation that has no binary encoding of its own, presented by its name (R73). -/
inductive Packet where
  | instrFrame (bytes : List Byte)
  | statusFrame (bytes : List Byte)
  | port (client : Nat) (head : BitVec 32) (data : List Byte)
  | call (i : Instr)
  deriving DecidableEq, Repr

end Sys2Proof
end

