-- ==== Sys2Proof/Machine/Codec.lean ====
section
/-! DEFINITION. The frame codec as pure functions (40_codec.md): checksum, frame validity, request validation, the two
encoders and the status decoder. They read only their arguments (R103). -/

namespace Sys2Proof.Machine

/-- `sum(f)`: the exact sum of the bytes, a natural (00_scope.md section 5.2). -/
def byteSum : List Byte → Nat
  | [] => 0
  | b :: bs => b.toNat + byteSum bs

/-- `f[a..b)`: the elements `a`, ..., `b-1`; empty when `a >= b` (00_scope.md section 5.2). -/
def slice (f : List Byte) (a b : Nat) : List Byte := (f.take b).drop a

/-- `Chk(bs)` (R90): the bitwise complement within 8 bits of the byte sum modulo 256. The one checksum function of
both directions (R100). -/
def chk (bs : List Byte) : Byte := ~~~ (BitVec.ofNat 8 (byteSum bs))

/-- `FrameValid(f)` (R92): header, declared length and checksum. The invariant of the frames BTE constructs (R96); not
the acceptance test of received frames (R98). -/
def frameValid (f : List Byte) : Bool :=
  decide (statusMin ≤ f.length) && decide (f[0]? = some hdr) && decide (f[1]? = some hdr)
    && decide (f[3]?.map BitVec.toNat = some (f.length - 4))
    && decide (f[f.length - 1]? = some (chk (slice f 2 (f.length - 1))))

/-- `Validate(q)` (R93): whether a request can be encoded. -/
def validate : Request → Bool
  | .rd t a n => decide (t ≤ idAddrMax) && decide (a ≤ 255) && decide (n ≤ 255)
  | .wr t a d => decide (t ≤ idBcast) && decide (a ≤ 255) && decide (d.length ≤ dataMax)

/-- The checksummed part of a read frame: ID, LEN, OP, ADDR, N (R61). -/
def readBody (t a n : Nat) : List Byte := [BitVec.ofNat 8 t, lenRead, opRead, BitVec.ofNat 8 a, BitVec.ofNat 8 n]

/-- `EncRead(t, a, n)` (R94), 8 bytes. Its domain is a request that passes `validate`. -/
def encRead (t a n : Nat) : List Byte := [hdr, hdr] ++ readBody t a n ++ [chk (readBody t a n)]

/-- The checksummed part of a write frame: ID, LEN = 3 + len(d), OP, ADDR, DATA (R62, R64). -/
def writeBody (t a : Nat) (d : List Byte) : List Byte :=
  [BitVec.ofNat 8 t, BitVec.ofNat 8 (3 + d.length), opWrite, BitVec.ofNat 8 a] ++ d

/-- `EncWrite(t, a, d)` (R95), `7 + len(d)` bytes. Its domain is a request that passes `validate`. -/
def encWrite (t a : Nat) (d : List Byte) : List Byte := [hdr, hdr] ++ writeBody t a d ++ [chk (writeBody t a d)]

/-- `Encode(q)` (R96). -/
def encodeRequest : Request → List Byte
  | .rd t a n => encRead t a n
  | .wr t a d => encWrite t a d

/-- `DecodeStatus(raw, e)` (R97), the tests in the rule's order. `none` outside its domain `e >= 6` (R99).
The ID, LEN and ERR bytes are not tested (R98). -/
def decodeStatus (raw : List Byte) (e : Nat) : Option Result :=
  if e < statusMin then none
  else if raw.length = 0 then some (.failure .timeout)
  else if raw.length ≠ e then some (.failure .shortFrame)
  else if raw[0]? ≠ some hdr ∨ raw[1]? ≠ some hdr then some (.failure .badHeader)
  else if raw[e - 1]? ≠ some (chk (slice raw 2 (e - 1))) then some (.failure .checksumMismatch)
  else raw[4]?.map fun err => .success (slice raw 5 (e - 1)) err

end Sys2Proof.Machine
end

