-- ==== Sys2Proof/WellFormed.lean ====
section
/-! DEFINITION. When an instruction is well formed: its fields have the values the encodings of spec/opcode_table.json
admit. `exec` gives a meaning to every instruction, well formed or not; this is what the encoder needs. -/

namespace Sys2Proof

open Sys2Proof.Machine (chk)

/-- A READ frame BTE can send: an addressed target and the right checksum (R61, R65). -/
def wfRead (t a n k : Byte) : Bool := decide (t.toNat ≤ 253) && decide (k = chk [t, 4, 2, a, n])

/-- A WRITE frame BTE can send: target 0..254, at most 252 data bytes, LEN = 3 + len(d), the right checksum (R62, R64, R65). -/
def wfWrite (t l a : Byte) (d : List Byte) (k : Byte) : Bool :=
  decide (t.toNat ≤ 254) && decide (d.length ≤ 252) && decide (l.toNat = 3 + d.length)
    && decide (k = chk ([t, l, 3, a] ++ d))

/-- A STATUS frame that can be accepted: at most 255 data bytes and the right checksum; ID, LEN and ERR are free (R63, R98). -/
def wfStatus (id l e : Byte) (p : List Byte) (k : Byte) : Bool :=
  decide (p.length ≤ 255) && decide (k = chk ([id, l, e] ++ p))

/-- The fields fit the request port (R66); the WR row leaves target 254 to the WR.BCAST row; DEC_ST has its domain (R99). -/
def Instr.wf : Instr → Bool
  | .read t a n k => wfRead t a n k
  | .write t l a d k => wfWrite t l a d k
  | .status id l e p k => wfStatus id l e p k
  | .rd _ t a n => decide (t < 256) && decide (a < 256) && decide (n < 256)
  | .wr _ t a d => decide (t < 256) && decide (t ≠ 254) && decide (a < 256) && decide (d.length < 512)
  | .wrBcast _ a d => decide (a < 256) && decide (d.length < 512)
  | .chk _ => true
  | .encRd _ _ _ => true
  | .encWr _ _ _ => true
  | .decSt _ e => decide (6 ≤ e)
  | .send => true
  | .turn => true
  | .recv => true
  | .exec _ _ => true

end Sys2Proof
end

