-- ==== Sys2Proof/Decode.lean ====
section
/-! DEFINITION. Decoding a packet into an instruction, total on any bytes and rejecting by name, and the encoder written from
the same encodings (30_encoding.md rules R60 to R66, spec/opcode_table.json); then the fixed name `decodeTableWord`. -/

namespace Sys2Proof

/-- Why a packet is no instruction of spec/opcode_table.json. -/
inductive DecodeError where
  /-- Too few bytes, or a READ frame that is not 8 bytes long (R60, R61, R62). -/
  | frameLength
  /-- The first two bytes are not FF FF (R60). -/
  | header
  /-- A read opcode with a LEN field other than 4 (R61). -/
  | readLenField
  /-- A fifth byte other than 02 and 03 in an instruction frame (R68). -/
  | opcode
  /-- A request-port word with a bit set that neither layout of R66 has. -/
  | portBits
  /-- `wr_len` differs from the number of data bytes presented (R66). -/
  | dataCount
  /-- An operation that has an encoding, presented without it. -/
  | hasEncoding
  deriving DecidableEq, Repr

/-- The bytes of a READ frame in transmission order (R61). -/
def readBytes (t a n k : Byte) : List Byte := [0xFF, 0xFF, t, 0x04, 0x02, a, n, k]

/-- The bytes of a WRITE frame in transmission order (R62). -/
def writeBytes (t l a : Byte) (d : List Byte) (k : Byte) : List Byte := [0xFF, 0xFF, t, l, 0x03, a] ++ d ++ [k]

/-- The bytes of a STATUS frame in transmission order (R63). -/
def statusBytes (id l e : Byte) (p : List Byte) (k : Byte) : List Byte := [0xFF, 0xFF, id, l, e] ++ p ++ [k]

/-- Reads an instruction frame (R61, R62, R68). -/
def decodeInstrFrame : List Byte → Except DecodeError Instr
  | h0 :: h1 :: t :: l :: op :: a :: rest =>
    if h0 ≠ 0xFF ∨ h1 ≠ 0xFF then .error .header
    else if op = 0x02 then
      if l ≠ 0x04 then .error .readLenField
      else match rest with
        | [n, k] => .ok (.read t a n k)
        | _ => .error .frameLength
    else if op = 0x03 then
      match rest.getLast? with
      | some k => .ok (.write t l a rest.dropLast k)
      | none => .error .frameLength
    else .error .opcode
  | _ => .error .frameLength

/-- Reads a status frame (R63); its length is that of the bytes presented (R71). -/
def decodeStatusFrame : List Byte → Except DecodeError Instr
  | h0 :: h1 :: id :: l :: e :: rest =>
    if h0 ≠ 0xFF ∨ h1 ≠ 0xFF then .error .header
    else match rest.getLast? with
      | some k => .ok (.status id l e rest.dropLast k)
      | none => .error .frameLength
  | _ => .error .frameLength

/-- The field of `len` bits whose lowest bit is bit `lo`, as a natural. -/
def portField (head : BitVec 32) (lo len : Nat) : Nat := head.toNat / 2 ^ lo % 2 ^ len

/-- Reads the request port (R66; rows RD, WR, WR.BCAST of spec/opcode_table.json, `kind` leftmost). A read's word has 25
bits: kind 0 (bit 24), target, address, rd_len. A write's word has 26: kind 1 (bit 25), target, address, wr_len (9 bits).
WR.BCAST (target 254) takes precedence over WR. On a read the data bytes are ignored. -/
def decodePort (c : Nat) (head : BitVec 32) (data : List Byte) : Except DecodeError Instr :=
  if portField head 26 6 ≠ 0 then .error .portBits
  else if portField head 25 1 = 1 then
    if data.length ≠ portField head 0 9 then .error .dataCount
    else if portField head 17 8 = 254 then .ok (.wrBcast c (portField head 9 8) data)
    else .ok (.wr c (portField head 17 8) (portField head 9 8) data)
  else if portField head 24 1 = 1 then .error .portBits
  else .ok (.rd c (portField head 16 8) (portField head 8 8) (portField head 0 8))

/-- Whether the table gives the operation no binary encoding of its own. -/
def Instr.hasNoEncoding : Instr → Bool
  | .read _ _ _ _ => false
  | .write _ _ _ _ _ => false
  | .status _ _ _ _ _ => false
  | .rd _ _ _ _ => false
  | .wr _ _ _ _ => false
  | .wrBcast _ _ _ => false
  | .chk _ => true
  | .encRd _ _ _ => true
  | .encWr _ _ _ => true
  | .decSt _ _ => true
  | .send => true
  | .turn => true
  | .recv => true
  | .exec _ _ => true

/-- Decoding, total on every packet. -/
def decode : Packet → Except DecodeError Instr
  | .instrFrame bytes => decodeInstrFrame bytes
  | .statusFrame bytes => decodeStatusFrame bytes
  | .port c head data => decodePort c head data
  | .call i => if i.hasNoEncoding then .ok i else .error .hasEncoding

/-- The encoder: the packet that presents an instruction. -/
def encode : Instr → Packet
  | .read t a n k => .instrFrame (readBytes t a n k)
  | .write t l a d k => .instrFrame (writeBytes t l a d k)
  | .status id l e p k => .statusFrame (statusBytes id l e p k)
  | .rd c t a n => .port c (BitVec.ofNat 32 (t * 2 ^ 16 + a * 2 ^ 8 + n)) []
  | .wr c t a d => .port c (BitVec.ofNat 32 (2 ^ 25 + t * 2 ^ 17 + a * 2 ^ 9 + d.length)) d
  | .wrBcast c a d => .port c (BitVec.ofNat 32 (2 ^ 25 + 254 * 2 ^ 17 + a * 2 ^ 9 + d.length)) d
  | .chk bs => .call (.chk bs)
  | .encRd t a n => .call (.encRd t a n)
  | .encWr t a d => .call (.encWr t a d)
  | .decSt raw e => .call (.decSt raw e)
  | .send => .call .send
  | .turn => .call .turn
  | .recv => .call .recv
  | .exec c q => .call (.exec c q)

/-- The low `k` bytes of `w`, the most significant first: byte 0 of a table row is its leftmost byte. -/
def bigEndianBytes : Nat → Nat → List Byte
  | 0, _ => []
  | k + 1, w => BitVec.ofNat 8 (w / 256 ^ k) :: bigEndianBytes k w

/-- An instruction frame whose leading bytes are given, the bytes after them zero: as long as its LEN byte declares
(`LEN + 4`, R64), and at least the shortest instruction frame, 7 bytes (R6). -/
def padInstrFrame (bytes : List Byte) : List Byte :=
  bytes ++ List.replicate (max 7 ((bytes[3]?.map BitVec.toNat).getD 0 + 4) - bytes.length) 0

/-- The packet of a row of spec/opcode_table.json with bits `w`, read as the one number the table writes (its leftmost byte
the most significant), the bits above `nbits` zero. Rows of 16 bits are STATUS frames (the shortest one, 6 bytes), rows of
25 to 32 bits are request-port words, longer rows are instruction frames. No row of another size has an encoding. -/
def tablePacket (nbits w : Nat) : Packet :=
  if nbits = 16 then .statusFrame (bigEndianBytes 2 w ++ List.replicate 4 0)
  else if 25 ≤ nbits ∧ nbits ≤ 32 then
    .port 0 (BitVec.ofNat 32 w) (List.replicate (if w / 2 ^ 25 % 2 = 1 then w % 2 ^ 9 else 0) 0)
  else if 40 ≤ nbits then .instrFrame (padInstrFrame (bigEndianBytes (nbits / 8) w))
  else .instrFrame []

/-- The instruction the decoder reads from a table row's bits. -/
def decodeTableWord (nbits w : Nat) : Option Instr :=
  match decode (tablePacket nbits w) with
  | .ok i => some i
  | .error _ => none

end Sys2Proof
end

