-- ==== Sys2Proof/Machine/State.lean ====
section
/-! DEFINITION. What the machine holds (10_state.md), what arrives and leaves (R140), and how a step can stop. -/

namespace Sys2Proof.Machine

/-- The sequencer state, BTE's program counter (R13). -/
inductive St where
  | idle
  | sending
  | awaitingTurnaround
  | receiving
  | completed
  deriving DecidableEq, Repr

/-- The level of the direction line (R14). -/
inductive Dir where
  | rx
  | tx
  deriving DecidableEq, Repr

/-- The event alphabet (R140). -/
inductive Event where
  | reset
  | tick
  | rxByte (b : Byte)
  | submit (c : Nat) (q : Request)
  deriving DecidableEq, Repr

/-- The output alphabet (R140). -/
inductive Output where
  | txByte (b : Byte)
  | accepted (c : Nat)
  | rejected (c : Nat)
  | done (c : Nat) (r : Result)
  deriving DecidableEq, Repr

/-- The state record of R11, its thirteen fields and nothing else. `none` is the spec's own "no value" (R25, R27). -/
structure Bte where
  st        : St
  dir       : Dir
  queue     : List (Nat × Request)
  curClient : Option Nat
  curReq    : Option Request
  txbuf     : Option (List Byte)
  txIdx     : Option Nat
  byteCnt   : Option Nat
  turnCnt   : Option Nat
  toCnt     : Option Nat
  expLen    : Option Nat
  rxbuf     : List Byte
  result    : Option Result
  deriving DecidableEq, Repr

/-- The reset values of R27. -/
def Bte.reset : Bte where
  st        := .idle
  dir       := .rx
  queue     := []
  curClient := none
  curReq    := none
  txbuf     := none
  txIdx     := none
  byteCnt   := none
  turnCnt   := none
  toCnt     := none
  expLen    := none
  rxbuf     := []
  result    := none

/-- What the outside world presents next: an event of R140, or an operation of spec/opcode_table.json. -/
inductive Input where
  | event (e : Event)
  | packet (p : Packet)
  deriving DecidableEq, Repr

/-- What an operation of spec/opcode_table.json gave back to whoever called it. The model's own record (log entry 4).

* `unit`: the operation returns nothing (SEND, TURN, a frame on the line).
* `byte`: CHK. `frame`: ENC_RD, ENC_WR. `bytes`: RECV. `result`: DEC_ST, RD, WR, EXEC, and a failed ENC_RD or ENC_WR.
* `rejected`: the `Submit` found the queue full (R142).
* `abandoned`: a `Reset` cut the operation short (R154, R241). -/
inductive Return where
  | unit
  | byte (b : Byte)
  | frame (f : List Byte)
  | bytes (bs : List Byte)
  | result (r : Result)
  | rejected
  | abandoned
  deriving DecidableEq, Repr

/-- Why a transition stops with a fault. Each can be raised only in a state that breaks the invariants of R26. -/
inductive Fault where
  /-- Raised by a `Tick` (and an `RxByte` in Receiving) that reads a field holding no value. R25: never read in a reachable
  state. Safe: no run from reset reaches it. -/
  | noValue
  /-- Raised by the end of a receive whose `exp_len` is below 6, where R99 gives `DecodeStatus` no value. Safe: R26 I2. -/
  | decodeDomain
  /-- Raised by a multi-tick operation that is not over within the ticks R263 bounds it by. Safe: no state that meets the
  invariants of R26 reaches it. -/
  | unfinished
  deriving DecidableEq, Repr

/-- Why the model gives no meaning. -/
inductive Refusal where
  /-- Raised by `exec` for an instruction with no meaning yet. Safe. No arm uses it. -/
  | notModelled (mnemonic : String)
  /-- Raised by every event under a configuration that breaks a constraint of R4. R10: "the model refuses it". Safe. -/
  | illegalCfg
  /-- Raised by a `Submit` that names a client number not below `N_CLIENTS`: not an event of R140. Safe. -/
  | notAClient (c : Nat)
  /-- Raised by the fetch of a packet that is no instruction of spec/opcode_table.json. Safe. -/
  | undecodable (e : DecodeError)
  /-- Raised by SEND, TURN and RECV asked for outside their place: R124 admits no other order. Safe. -/
  | phaseOrder
  /-- Raised by DEC_ST with an expected length below 6. R99: "a model refuses `DecodeStatus` with `e < 6`". Safe. -/
  | decodeStatusDomain
  deriving DecidableEq, Repr

/-- The whole machine: the configuration (constant in a run, R10), the state record of R11, and three fields of the model's
own (log entries 2, 3, 4): the inputs still to come, the outputs so far (both oldest first), and the last operation's
return value. -/
structure State where
  cfg   : Cfg
  bte   : Bte
  inbox : List Input
  out   : List Output
  ret   : Option Return
  deriving DecidableEq, Repr

/-- The machine right after `Reset` (R27, R240), nothing presented, nothing emitted. -/
def State.reset : State where
  cfg   := Cfg.least
  bte   := Bte.reset
  inbox := []
  out   := []
  ret   := none

end Sys2Proof.Machine
end

