-- ==== Sys2Proof/Machine/Operands.lean ====
section
/-! DEFINITION. What a request determines (expected length, the frame due on the line) and where an operation finds its
operands. -/

namespace Sys2Proof.Machine

/-- `ExpectedLen(q)` (R147), the broadcast/addressed response filter. The sum is exact. -/
def expectedLen : Request → Nat
  | .rd _ _ n => statusMin + n
  | .wr t _ _ => if t = idBcast then 0 else statusMin

/-- The request a row's operands stand for (R66): RD. -/
def rdRequest (t a n : Nat) : Request := .rd t a n

/-- The request a row's operands stand for (R66): WR. -/
def wrRequest (t a : Nat) (d : List Byte) : Request := .wr t a d

/-- The request a row's operands stand for (R66, R157): WR.BCAST, target 254. -/
def bcastRequest (a : Nat) (d : List Byte) : Request := .wr idBcast a d

/-- The frame the engine sends next or is sending: `txbuf` in Sending, the encoding of the queue's head in Idle when it
passes `Validate` (R144, R145). No frame is due in the other states, nor when the head ends in a ConstructionError. -/
def dueFrame (b : Bte) : Option (List Byte) :=
  match b.st with
  | .sending => b.txbuf
  | .idle =>
    match b.queue with
    | (_, q) :: _ => if validate q then some (encodeRequest q) else none
    | [] => none
  | .awaitingTurnaround => none
  | .receiving => none
  | .completed => none

/-- The event the machine meets next: the first input when it is an event, else a `Tick`, since time passes whatever the
outside does. DESIGN CHOICE, log entry 2. -/
def nextEvent (s : State) : Event :=
  match s.inbox with
  | .event e :: _ => e
  | _ => .tick

/-- The inputs left once `nextEvent` has happened. -/
def restInbox (s : State) : List Input :=
  match s.inbox with
  | .event _ :: rest => rest
  | l => l

/-- The byte list a receive has collected once event `e` has happened: `rxbuf`, with `b` behind it on `RxByte(b)` (R149). -/
def collected (b : Bte) : Event → List Byte
  | .rxByte x => b.rxbuf ++ [x]
  | .reset => b.rxbuf
  | .tick => b.rxbuf
  | .submit _ _ => b.rxbuf

end Sys2Proof.Machine
end

