-- ==== Sys2Proof/Machine/Flags.lean ====
section
/-! DEFINITION. BTE has no condition codes (R23). Its three status outputs, the lock, and the transmitter's pending bytes are
pure functions of the state. -/

namespace Sys2Proof.Machine

/-- `busy` (R23): the lock is held. -/
def busy (b : Bte) : Bool := decide (b.st ≠ .idle)

/-- `cmd_ready` (R23): a `Submit` now would be accepted. -/
def cmdReady (cfg : Cfg) (b : Bte) : Bool := decide (b.queue.length < cfg.qDepth)

/-- `res_valid` (R23): `result` holds the outcome that the next `Tick` delivers. -/
def resValid (b : Bte) : Bool := decide (b.st = .completed)

/-- Who holds the lock (R20): `cur_client` exactly when the sequencer is not idle. -/
def lockHolder (b : Bte) : Option Nat := if b.st = .idle then none else b.curClient

/-- The transmitter's pending bytes `txbuf[tx_idx..len(txbuf))` (R24). -/
def txPending (b : Bte) : Option (List Byte) :=
  match b.txbuf, b.txIdx with
  | some f, some i => some (f.drop i)
  | _, _ => none

/-- Drained, "no bytes pending": `tx_idx = len(txbuf)` (R17, R121, R24). While `txbuf` or `tx_idx` holds no value (after `Reset`,
before the first send) the spec gives no answer, since they are never read then (R25); the model answers false there.
DESIGN CHOICE, safe, log entry 20: no transition reads it. -/
def drained (b : Bte) : Bool := decide (txPending b = some [])

end Sys2Proof.Machine
end

