-- ==== Sys2Proof/Machine/Ops.lean ====
section
/-! DEFINITION. The shared operations on the state: entering `Completed` (the analogue of taking an exception, R152, R212),
leaving it (the analogue of the return, R151, R214), starting a send, capturing a byte, and sequencing of outcomes. -/

namespace Sys2Proof.Machine

/-- `complete(r)` (R152), the only way into `Completed`: `result <- r ; st <- Completed`. -/
def complete (r : Result) (b : Bte) : Bte := { b with result := some r, st := .completed }

/-- Entry into a failure (R212), `raise <Reason>` of 00_scope.md section 5.3: `complete(Failure(reason))`. Nothing is
saved, nothing is masked and there is no handler address. -/
def raiseFailure (reason : Reason) (b : Bte) : Bte := complete (.failure reason) b

/-- Exit (R151, R214): the lock is released; nothing is restored. -/
def releaseLock (b : Bte) : Bte := { b with st := .idle }

/-- The lock is acquired for the head of the queue (R144, R16). -/
def acquireLock (c : Nat) (q : Request) (rest : List (Nat × Request)) (b : Bte) : Bte :=
  { b with queue := rest, curClient := some c, curReq := some q }

/-- The start of a send (R144; R120 steps 1 and 2): the frame and its counters are loaded, then transmit-enable, then the
stale input is cleared. -/
def beginSend (cfg : Cfg) (q : Request) (b : Bte) : Bte :=
  { b with
    txbuf   := some (encodeRequest q)
    txIdx   := some 0
    byteCnt := some cfg.tByte
    expLen  := some (expectedLen q)
    dir     := .tx
    rxbuf   := []
    st      := .sending }

/-- A request joins the tail of the queue (R142, R15). -/
def enqueue (c : Nat) (q : Request) (b : Bte) : Bte := { b with queue := b.queue ++ [(c, q)] }

/-- The byte being shifted out has `n` ticks left (R145). -/
def setByteCnt (n : Nat) (b : Bte) : Bte := { b with byteCnt := some n }

/-- `i` bytes of the frame are on the line and the next one starts (R145). -/
def nextByte (cfg : Cfg) (i : Nat) (b : Bte) : Bte := { b with txIdx := some i, byteCnt := some cfg.tByte }

/-- All `i` bytes of the frame are on the line: drained, and the turnaround delay starts (R145, R121). -/
def endSend (cfg : Cfg) (i : Nat) (b : Bte) : Bte :=
  { b with txIdx := some i, turnCnt := some cfg.tTurn, st := .awaitingTurnaround }

/-- The turnaround delay has `n` ticks left (R146). -/
def setTurnCnt (n : Nat) (b : Bte) : Bte := { b with turnCnt := some n }

/-- The receive window has `n` ticks left (R148). -/
def setToCnt (n : Nat) (b : Bte) : Bte := { b with toCnt := some n }

/-- The start of a receive (R146): receive-enable, and the timeout counter is loaded. -/
def beginReceive (cfg : Cfg) (b : Bte) : Bte := { b with dir := .rx, toCnt := some cfg.tTimeout, st := .receiving }

/-- The receive buffer takes one byte from the line. -/
def capture (x : Byte) (b : Bte) : Bte := { b with rxbuf := b.rxbuf ++ [x] }

/-- The read consumes what it returns (R21, R123). -/
def consumeRx (b : Bte) : Bte := { b with rxbuf := [] }

/-- The outcome of one thing and then another, stopping at the first fault or refusal. -/
def andThen (o : Host.Outcome State Fault Refusal) (f : State → Host.Outcome State Fault Refusal) :
    Host.Outcome State Fault Refusal :=
  match o with
  | .next s => f s
  | .fault e => .fault e
  | .refused r => .refused r

/-- The engine's state becomes `b` and the outputs `o` are emitted. -/
def commit (b : Bte) (o : List Output) (s : State) : State := { s with bte := b, out := s.out ++ o }

/-- The operation gives `v` back to its caller. -/
def giveBack (v : Return) (s : State) : State := { s with ret := some v }

/-- The inputs still to come become `l`. -/
def setInbox (l : List Input) (s : State) : State := { s with inbox := l }

end Sys2Proof.Machine
end

