-- ==== Sys2Proof/Machine/CodecOps.lean ====
section
/-! DEFINITION. The meanings of CHK, ENC_RD, ENC_WR and DEC_ST (40_codec.md). They write no field of R11 and no output: what
they compute is given back to the caller (R103). -/

namespace Sys2Proof.Machine

/-- What an encoder answers for a request: its frame, or `ConstructionError` when it fails `Validate` (R93, R94, R95). -/
def encoderAnswer (q : Request) : Return :=
  if validate q then .frame (encodeRequest q) else .result (.failure .constructionError)

/-- CHK (R90). -/
def execChk (bs : List Byte) (s : State) : Host.Outcome State Fault Refusal := .next (giveBack (.byte (chk bs)) s)

/-- ENC_RD (R94). -/
def execEncRd (t a n : Nat) (s : State) : Host.Outcome State Fault Refusal :=
  .next (giveBack (encoderAnswer (.rd t a n)) s)

/-- ENC_WR (R95). -/
def execEncWr (t a : Nat) (d : List Byte) (s : State) : Host.Outcome State Fault Refusal :=
  .next (giveBack (encoderAnswer (.wr t a d)) s)

/-- DEC_ST (R97); refused outside its domain (R99). -/
def execDecSt (raw : List Byte) (e : Nat) (s : State) : Host.Outcome State Fault Refusal :=
  match decodeStatus raw e with
  | some r => .next (giveBack (.result r) s)
  | none => .refused .decodeStatusDomain

end Sys2Proof.Machine
end

