-- ==== Sys2Proof/Machine/Engine.lean ====
section
/-! DEFINITION. The step function of 42_transaction.md, `cfg -> State -> Event -> State × list of Output` (R143), one
definition for each (state, event) rule, and how the whole machine meets an event. -/

namespace Sys2Proof.Machine

/-- What a transition answers: the new engine state and its outputs, or a fault in a state that breaks R26. -/
abbrev Transition := Except Fault (Bte × List Output)

/-- `Submit(c, q)`, in any state (R142). -/
def onSubmit (cfg : Cfg) (c : Nat) (q : Request) (b : Bte) : Bte × List Output :=
  if cmdReady cfg b then (enqueue c q b, [.accepted c]) else (b, [.rejected c])

/-- `Tick` in `Idle`, the start transition (R144). -/
def tickIdle (cfg : Cfg) (b : Bte) : Bte × List Output :=
  match b.queue with
  | [] => (b, [])
  | (c, q) :: rest =>
    if validate q then (beginSend cfg q (acquireLock c q rest b), [])
    else (raiseFailure .constructionError (acquireLock c q rest b), [])

/-- `Tick` in `Sending` (R145). -/
def tickSending (cfg : Cfg) (b : Bte) : Transition :=
  match b.txbuf, b.txIdx, b.byteCnt with
  | some f, some i, some n =>
    if 1 < n then .ok (setByteCnt (n - 1) b, [])
    else
      match f[i]? with
      | some x =>
        if i + 1 < f.length then .ok (nextByte cfg (i + 1) b, [.txByte x])
        else .ok (endSend cfg (i + 1) b, [.txByte x])
      | none => .error .noValue
  | _, _, _ => .error .noValue

/-- `Tick` in `AwaitingTurnaround` (R146), with the broadcast skip (R150). -/
def tickTurnaround (cfg : Cfg) (b : Bte) : Transition :=
  match b.turnCnt, b.expLen with
  | some n, some e =>
    if 1 < n then .ok (setTurnCnt (n - 1) b, [])
    else if e = 0 then .ok (complete (.success [] errNone) b, [])
    else .ok (beginReceive cfg b, [])
  | _, _ => .error .noValue

/-- The receive ends (R148, R149): `raw <- rxbuf ; rxbuf <- [] ; complete(DecodeStatus(raw, exp_len))`. -/
def endReceive (e : Nat) (b : Bte) : Transition :=
  match decodeStatus b.rxbuf e with
  | some r => .ok (complete r (consumeRx b), [])
  | none => .error .decodeDomain

/-- `Tick` in `Receiving` (R148). -/
def tickReceiving (b : Bte) : Transition :=
  match b.toCnt, b.expLen with
  | some n, some e => if 1 < n then .ok (setToCnt (n - 1) b, []) else endReceive e b
  | _, _ => .error .noValue

/-- `Tick` in `Completed`, the retire transition (R151). -/
def tickCompleted (b : Bte) : Transition :=
  match b.curClient, b.result with
  | some c, some r => .ok (releaseLock b, [.done c r])
  | _, _ => .error .noValue

/-- `Tick`, by state (R143). -/
def onTick (cfg : Cfg) (b : Bte) : Transition :=
  match b.st with
  | .idle => .ok (tickIdle cfg b)
  | .sending => tickSending cfg b
  | .awaitingTurnaround => tickTurnaround cfg b
  | .receiving => tickReceiving b
  | .completed => tickCompleted b

/-- `RxByte(x)` in `Receiving` (R149): the byte is taken whatever its value. -/
def rxByteReceiving (x : Byte) (b : Bte) : Transition :=
  match b.expLen with
  | some e => if (capture x b).rxbuf.length = e then endReceive e (capture x b) else .ok (capture x b, [])
  | none => .error .noValue

/-- `RxByte(x)` in every other state (R153): the gate (R125), and stale input up to `RX_CAP` (R126). -/
def rxByteElsewhere (cfg : Cfg) (x : Byte) (b : Bte) : Bte × List Output :=
  match b.dir with
  | .tx => (b, [])
  | .rx => if b.rxbuf.length < cfg.rxCap then (capture x b, []) else (b, [])

/-- `RxByte(x)`, by state (R143). -/
def onRxByte (cfg : Cfg) (x : Byte) (b : Bte) : Transition :=
  match b.st with
  | .receiving => rxByteReceiving x b
  | .idle => .ok (rxByteElsewhere cfg x b)
  | .sending => .ok (rxByteElsewhere cfg x b)
  | .awaitingTurnaround => .ok (rxByteElsewhere cfg x b)
  | .completed => .ok (rxByteElsewhere cfg x b)

/-- The step function (R143): every (state, event) pair has exactly one rule. `Reset` (R154, R240): every field takes its
reset value and nothing is emitted. -/
def engine (cfg : Cfg) (b : Bte) : Event → Transition
  | .reset => .ok (Bte.reset, [])
  | .tick => onTick cfg b
  | .rxByte x => onRxByte cfg x b
  | .submit c q => .ok (onSubmit cfg c q b)

/-- The client number of a `Submit` by no client: the event is not one of the alphabet (R140), since there are `N_CLIENTS`
clients (R4, R220), numbered from 0. -/
def stranger (cfg : Cfg) : Event → Option Nat
  | .reset => none
  | .tick => none
  | .rxByte _ => none
  | .submit c _ => if c < cfg.nClients then none else some c

/-- The machine meets event `e`. An illegal configuration is refused (R10). -/
def applyEvent (e : Event) (s : State) : Host.Outcome State Fault Refusal :=
  if legalCfg s.cfg then
    match stranger s.cfg e with
    | some c => .refused (.notAClient c)
    | none =>
      match engine s.cfg s.bte e with
      | .ok r => .next (commit r.1 r.2 s)
      | .error f => .fault f
  else .refused .illegalCfg

/-- The machine meets its next event: the first input when it is an event, else a `Tick`. -/
def advance (s : State) : Host.Outcome State Fault Refusal := applyEvent (nextEvent s) (setInbox (restInbox s) s)

end Sys2Proof.Machine
end

