-- ==== Sys2Proof/Machine/Run.lean ====
section
/-! DEFINITION. Operations that take many events: how long each can last (R263), and running the engine's own transitions,
event by event, until a phase or a transaction is over. Events come from the inputs still to come; when those hold none
next, time passes. -/

namespace Sys2Proof.Machine

/-- Ticks left of a send (R129, R145): the byte being shifted out, then `T_BYTE` for each byte after it. -/
def sendTicks (cfg : Cfg) (b : Bte) : Nat :=
  (((b.txbuf.map List.length).getD 0) - 1 - b.txIdx.getD 0) * cfg.tByte + max 1 (b.byteCnt.getD 1)

/-- Ticks left of the turnaround delay (R122, R146). -/
def turnTicks (b : Bte) : Nat := max 1 (b.turnCnt.getD 1)

/-- Ticks left of the receive window (R123, R148). -/
def recvTicks (b : Bte) : Nat := max 1 (b.toCnt.getD 1)

/-- The longest a transaction can take from the tick that starts it to the one that reports it (R163, R263). -/
def longestTransaction (cfg : Cfg) (q : Request) : Nat :=
  if validate q then 1 + (encodeRequest q).length * cfg.tByte + cfg.tTurn + cfg.tTimeout + 1 else 2

/-- The longest the transaction in progress can still take until its `Done`; 0 when there is none (R262). -/
def currentTicks (cfg : Cfg) (b : Bte) : Nat :=
  match b.st with
  | .idle => 0
  | .sending => sendTicks cfg b + cfg.tTurn + cfg.tTimeout + 1
  | .awaitingTurnaround => turnTicks b + cfg.tTimeout + 1
  | .receiving => recvTicks b + 1
  | .completed => 1

/-- The longest the transaction in progress and every queued one can take together (R262). -/
def pendingTicks (cfg : Cfg) (b : Bte) : Nat :=
  currentTicks cfg b + (b.queue.map fun e => longestTransaction cfg e.2).sum

/-- How many `Done` outputs are due: one for each queued request and one for the transaction in progress (R159). -/
def pendingDone (b : Bte) : Nat := b.queue.length + if b.st = .idle then 0 else 1

/-- Runs the engine while the phase `inPhase` lasts, then gives back `value` of the state and event that ended it; a
`Reset` abandons the operation (R154, R241). The first argument bounds the number of events. -/
def runPhase (inPhase : Bte → Bool) (value : Bte → Event → Return) : Nat → State → Host.Outcome State Fault Refusal
  | 0, _ => .fault .unfinished
  | k + 1, s =>
    andThen (advance s) fun s1 =>
      if nextEvent s = .reset then .next (giveBack .abandoned s1)
      else if inPhase s1.bte then runPhase inPhase value k s1
      else .next (giveBack (value s.bte (nextEvent s)) s1)

/-- Runs the engine until the `todo`-th `Done` from here, and gives back its result (R141: the k-th `Done` answers the
k-th `Accepted`); a `Reset` abandons the wait (R241). The first argument bounds the number of events. -/
def awaitDone : Nat → Nat → State → Host.Outcome State Fault Refusal
  | 0, _, _ => .fault .unfinished
  | k + 1, todo, s =>
    andThen (advance s) fun s1 =>
      if nextEvent s = .reset then .next (giveBack .abandoned s1)
      else if nextEvent s = .tick ∧ s.bte.st = .completed then
        match todo, s.bte.result with
        | 0, _ => .fault .unfinished
        | 1, some r => .next (giveBack (.result r) s1)
        | 1, none => .fault .noValue
        | t + 2, _ => awaitDone k (t + 1) s1
      else awaitDone k todo s1

end Sys2Proof.Machine
end

