-- ==== Sys2Proof/Machine/Transceiver.lean ====
section
/-! DEFINITION. The meanings of SEND, TURN and RECV (41_transceiver.md). They are the three phases of a transaction, and
their effect is that of the engine's transitions R144 to R149, run until the phase is over. Asked for outside their place they
are refused: R124, "The transitions of 42_transaction.md admit no other order". -/

namespace Sys2Proof.Machine

/-- A frame is due or being sent: the start transition of a valid request and `Sending` (R120, R144, R145). -/
def inSend (b : Bte) : Bool := (dueFrame b).isSome

/-- The turnaround delay (R122, R146). -/
def inTurnaround (b : Bte) : Bool := decide (b.st = .awaitingTurnaround)

/-- The receive window (R123, R148, R149). -/
def inReceive (b : Bte) : Bool := decide (b.st = .receiving)

/-- Ticks left of the send phase: in `Idle` the start tick and the whole frame, in `Sending` what is left of it (R129). -/
def sendPhaseTicks (cfg : Cfg) (b : Bte) : Nat :=
  if b.st = .idle then 1 + ((dueFrame b).map List.length).getD 0 * cfg.tByte else sendTicks cfg b

/-- SEND: run until the frame is drained. -/
def sendPhase (s : State) : Host.Outcome State Fault Refusal :=
  runPhase inSend (fun _ _ => .unit) (s.inbox.length + sendPhaseTicks s.cfg s.bte) s

/-- SEND (R120). Its operand, the frame, is `txbuf`; in `Idle` it is the frame the start transition loads. -/
def execSend (s : State) : Host.Outcome State Fault Refusal :=
  if inSend s.bte then sendPhase s else .refused .phaseOrder

/-- TURN (R122): exactly the ticks left of the delay; the last of them ends it (R146). -/
def execTurn (s : State) : Host.Outcome State Fault Refusal :=
  if inTurnaround s.bte then runPhase inTurnaround (fun _ _ => .unit) (s.inbox.length + turnTicks s.bte) s
  else .refused .phaseOrder

/-- RECV (R123): until `exp_len` bytes are there or the window closes; gives back the bytes read, which `DEC_ST` classifies
in the same transition (R131, R148, R149). -/
def execRecv (s : State) : Host.Outcome State Fault Refusal :=
  if inReceive s.bte then
    runPhase inReceive (fun b e => .bytes (collected b e)) (s.inbox.length + recvTicks s.bte) s
  else .refused .phaseOrder

end Sys2Proof.Machine
end

