-- ==== Sys2Proof/Machine/Frames.lean ====
section
/-! DEFINITION. The meanings of the three frames on the line. A READ or WRITE frame that the engine is due to send or is
sending is sent by it (R61, R62, R120). Any other frame on the line reaches the receiver byte by byte (R2, R63, R149, R153). -/

namespace Sys2Proof.Machine

/-- The bytes of a frame arrive from the line one after another (R42), each by the rule of its state (R149, R153). -/
def hearFrame : List Byte → State → Host.Outcome State Fault Refusal
  | [], s => .next (giveBack .unit s)
  | x :: xs, s => andThen (applyEvent (.rxByte x) s) (hearFrame xs)

/-- An instruction frame is on the line: BTE's own when it is the frame due, else other traffic (R2, R257). -/
def carryFrame (f : List Byte) (s : State) : Host.Outcome State Fault Refusal :=
  if dueFrame s.bte = some f then sendPhase s else hearFrame f s

/-- READ (R61, R94, R155). -/
def execRead (t a n k : Byte) (s : State) : Host.Outcome State Fault Refusal := carryFrame (readBytes t a n k) s

/-- WRITE (R62, R95, R156, R157). -/
def execWrite (t l a : Byte) (d : List Byte) (k : Byte) (s : State) : Host.Outcome State Fault Refusal :=
  carryFrame (writeBytes t l a d k) s

/-- STATUS (R63, R97, R98): the frame arrives from the line; in `Receiving` the byte that satisfies the count hands the
bytes to `DEC_ST`. -/
def execStatus (id l e : Byte) (p : List Byte) (k : Byte) (s : State) : Host.Outcome State Fault Refusal :=
  hearFrame (statusBytes id l e p k) s

end Sys2Proof.Machine
end

