-- ==== Sys2Proof/Machine/Transaction.lean ====
section
/-! DEFINITION. The meanings of RD, WR, WR.BCAST and EXEC (42_transaction.md section 8 and 9): the `Submit` of a request and
the wait for the `Done` that answers it (R141). -/

namespace Sys2Proof.Machine

/-- `EXEC(q, raw)` (R165): the result as a function of the request and of the bytes the receive returned. -/
def execResult (q : Request) (raw : List Byte) : Option Result :=
  if validate q then
    if expectedLen q = 0 then some (.success [] errNone) else decodeStatus raw (expectedLen q)
  else some (.failure .constructionError)

/-- A blocking call (R141, R165): `Submit(c, q)`; when it is `Accepted`, the engine runs until the `Done` that answers it.
When it is `Rejected` nothing is recorded and the call is over (R142). -/
def transact (c : Nat) (q : Request) (s : State) : Host.Outcome State Fault Refusal :=
  andThen (applyEvent (.submit c q) s) fun s1 =>
    if cmdReady s.cfg s.bte then
      awaitDone (s1.inbox.length + pendingTicks s1.cfg s1.bte) (pendingDone s1.bte) s1
    else .next (giveBack .rejected s1)

/-- RD (R155). -/
def execRd (c t a n : Nat) (s : State) : Host.Outcome State Fault Refusal := transact c (rdRequest t a n) s

/-- WR to an addressed target (R156). -/
def execWr (c t a : Nat) (d : List Byte) (s : State) : Host.Outcome State Fault Refusal :=
  transact c (wrRequest t a d) s

/-- WR.BCAST (R157). -/
def execWrBcast (c a : Nat) (d : List Byte) (s : State) : Host.Outcome State Fault Refusal :=
  transact c (bcastRequest a d) s

/-- EXEC (R165). -/
def execExec (c : Nat) (q : Request) (s : State) : Host.Outcome State Fault Refusal := transact c q s

end Sys2Proof.Machine
end

