-- ==== Sys2Proof/Machine/Dispatch.lean ====
section
/-! DEFINITION. One arm for each constructor of `Instr`, each one direct call of its meaning. -/

namespace Sys2Proof.Machine

def exec (i : Instr) (s : State) : Host.Outcome State Fault Refusal :=
  match i with
  | .read t a n k => Sys2Proof.Machine.execRead t a n k s
  | .write t l a d k => Sys2Proof.Machine.execWrite t l a d k s
  | .status id l e p k => Sys2Proof.Machine.execStatus id l e p k s
  | .rd c t a n => Sys2Proof.Machine.execRd c t a n s
  | .wr c t a d => Sys2Proof.Machine.execWr c t a d s
  | .wrBcast c a d => Sys2Proof.Machine.execWrBcast c a d s
  | .chk bs => Sys2Proof.Machine.execChk bs s
  | .encRd t a n => Sys2Proof.Machine.execEncRd t a n s
  | .encWr t a d => Sys2Proof.Machine.execEncWr t a d s
  | .decSt raw e => Sys2Proof.Machine.execDecSt raw e s
  | .send => Sys2Proof.Machine.execSend s
  | .turn => Sys2Proof.Machine.execTurn s
  | .recv => Sys2Proof.Machine.execRecv s
  | .exec c q => Sys2Proof.Machine.execExec c q s

end Sys2Proof.Machine
end

