-- ==== Sys2Proof/Machine/Fetch.lean ====
section
/-! DEFINITION. BTE fetches no instructions (R54). What stands in for the fetch: an operation is the next input. -/

namespace Sys2Proof.Machine

/-- The operation presented next and the state with it taken, when the next input is an operation. -/
def fetch (s : State) : Option (Packet × State) :=
  match s.inbox with
  | .packet p :: rest => some (p, { s with inbox := rest })
  | .event _ :: _ => none
  | [] => none

end Sys2Proof.Machine
end

