-- ==== Sys2Proof/Machine/Step.lean ====
section
/-! DEFINITION. One step of the machine: an operation presented next is decoded and run; otherwise the next event happens. -/

namespace Sys2Proof.Machine

/-- One step. -/
def step (s : State) : Host.Outcome State Fault Refusal :=
  match fetch s with
  | some (p, s1) =>
    match decode p with
    | .ok i => exec i s1
    | .error e => .refused (.undecodable e)
  | none => advance s

/-- The state with the operation whose table bits are `w` presented next, ahead of the inputs already there. -/
def State.withFetchWord (s : State) (nbits w : Nat) : State :=
  { s with inbox := .packet (tablePacket nbits w) :: s.inbox }

end Sys2Proof.Machine
end

