-- ==== Sys2Proof/Machine/Ports.lean ====
section
/-! DEFINITION. The hardware encodings of the sequencer state, the direction line and the result port (R13, R14, R67). No
transition reads them. -/

namespace Sys2Proof.Machine

/-- The hardware encoding of `st` (R13); 5, 6 and 7 never occur. -/
def stCode : St → BitVec 3
  | .idle => 0
  | .sending => 1
  | .awaitingTurnaround => 2
  | .receiving => 3
  | .completed => 4

/-- The logical encoding of `dir` (R14). -/
def dirCode : Dir → BitVec 1
  | .rx => 0
  | .tx => 1

/-- The `status` field of the result port (R67, R200); 6 and 7 never occur. -/
def statusCode : Result → BitVec 3
  | .success _ _ => 0
  | .failure .constructionError => 1
  | .failure .timeout => 2
  | .failure .shortFrame => 3
  | .failure .badHeader => 4
  | .failure .checksumMismatch => 5

/-- The result port (R67). -/
structure ResultPort where
  status  : BitVec 3
  err     : Byte
  dataLen : Byte
  data    : List Byte
  client  : Nat
  deriving DecidableEq, Repr

/-- What the result port carries for `Done(c, r)` (R67): a failure carries the reason and nothing else (R200). -/
def resultPort (c : Nat) (r : Result) : ResultPort :=
  match r with
  | .success data err =>
    { status := statusCode r, err := err, dataLen := BitVec.ofNat 8 data.length, data := data, client := c }
  | .failure _ => { status := statusCode r, err := 0, dataLen := 0, data := [], client := c }

/-- The four classes of a finished transaction (R164). -/
inductive OutcomeClass where
  | rejectedRequest
  | transportFailure
  | deviceError (code : Byte)
  | cleanSuccess
  deriving DecidableEq, Repr

/-- `IsDeviceError(r)` (R206). -/
def isDeviceError : Result → Bool
  | .success _ err => decide (err ≠ 0)
  | .failure _ => false

/-- Classification of outcomes (R164, R206, R207). `BadHeader` is a transport failure. -/
def classify : Result → OutcomeClass
  | .success _ err => if err = 0 then .cleanSuccess else .deviceError err
  | .failure .constructionError => .rejectedRequest
  | .failure .timeout => .transportFailure
  | .failure .shortFrame => .transportFailure
  | .failure .badHeader => .transportFailure
  | .failure .checksumMismatch => .transportFailure

end Sys2Proof.Machine
end

