-- ==== Sys2Proof/Machine/Api.lean ====
section
/-! DEFINITION. The operations exposed to collaborators, pseudo-instructions over EXEC (R74), and the remote accesses of R40.
`describeRegister` is in Machine/Registry.lean. -/

namespace Sys2Proof.Machine

/-- `MemRead_t(addr, n)` (R40, 00_scope.md section 5.3) by client `c`. -/
def memRead (c t a n : Nat) (s : State) : Host.Outcome State Fault Refusal := execExec c (.rd t a n) s

/-- `MemWrite_t(addr, d)` (R40) by client `c`. -/
def memWrite (c t a : Nat) (d : List Byte) (s : State) : Host.Outcome State Fault Refusal := execExec c (.wr t a d) s

/-- What a collaborator is told (R74). -/
inductive Answer where
  | data (bytes : List Byte) (deviceError : Option Byte)
  | errorCode (code : Byte)
  | noErrorCode
  | failed (reason : Reason)
  deriving DecidableEq, Repr

/-- `readRegister`'s reading of a result: the data, and the device error when the code is not 0 (R74, R206). -/
def readAnswer : Result → Answer
  | .success d err => .data d (if err = 0 then none else some err)
  | .failure r => .failed r

/-- `writeRegister`'s reading of a result: for the broadcast target the placeholder code is not shown (R74, R150). -/
def writeAnswer (t : Nat) : Result → Answer
  | .success _ err => if t = idBcast then .noErrorCode else .errorCode err
  | .failure r => .failed r

/-- `readRegister(targetId, address, length)` (R74); `length: 1|2` is the caller's precondition, not a check (R45). -/
def readRegister (c t a n : Nat) (s : State) : Host.Outcome State Fault Refusal := memRead c t a n s

/-- `writeRegister(targetId, address, data)` (R74). -/
def writeRegister (c t a : Nat) (d : List Byte) (s : State) : Host.Outcome State Fault Refusal := memWrite c t a d s

/-- What the caller of an operation is told, from the operation's return value; `none` when no result came. -/
def answerOf (view : Result → Answer) (s : State) : Option Answer :=
  match s.ret with
  | some (.result r) => some (view r)
  | some _ => none
  | none => none

end Sys2Proof.Machine
end

