-- ==== Sys2Proof/Machine/Registry.lean ====
section
/-! DEFINITION. The control-table registry (43_registry.md): host-side pure functions, informative, no part of the block (R180,
92_eei_decisions.md D32). Arithmetic is exact. -/

namespace Sys2Proof.Machine

/-- The quantities that have a raw-to-physical conversion (R184 to R188). -/
inductive Quantity where
  | position
  | speed
  | load
  | voltage
  | temperature
  deriving DecidableEq, Repr

/-- A physical value. A load is the pair of its sign bit and its fraction: the meaning of the sign is not in the source
(R186, 92_eei_decisions.md D31). -/
inductive Physical where
  | degrees (x : ℚ)
  | rpm (x : ℚ)
  | load (sign : Bool) (fraction : ℚ)
  | volts (x : ℚ)
  | celsius (x : ℚ)
  deriving DecidableEq, Repr

/-- The conversions, total over every raw value (R184 to R189). The formulas are applied to any natural; above the range of a raw
value (0..65535) the spec gives no result. DESIGN CHOICE, unsafe, log entry 21. -/
def convert : Quantity → Nat → Physical
  | .position, raw => .degrees (raw * 300 / 1023)
  | .speed, raw => .rpm (raw * 111 / 1000)
  | .load, raw => .load (decide (raw / 2 ^ 10 % 2 = 1)) ((raw % 2 ^ 10 : Nat) / 1023)
  | .voltage, raw => .volts (raw / 10)
  | .temperature, raw => .celsius raw

/-- The width of a register, "1 or 2 bytes" (R180). -/
inductive Width where
  | one
  | two
  deriving DecidableEq, Repr

/-- How many bytes a register of this width has. -/
def widthBytes : Width → Nat
  | .one => 1
  | .two => 2

/-- A register descriptor: "name, address, width (1 or 2 bytes), and a pure conversion pair (raw↔physical)" (R180). The
conversion is named by its quantity, so that descriptors are plain data; `toPhysical` is its raw-to-physical half. The other
half is promised and given nowhere ("They are not specified here", R190), so it has no definition. -/
structure RegisterDescriptor where
  name     : String
  address  : Byte
  width    : Width
  quantity : Quantity
  deriving DecidableEq, Repr

/-- The static table (R180) with the two entries the source identifies (R182); a model must not supply others. That "goal
position" has the conversion of a position (R184) is DEDUCED from R182, which calls speed, load, voltage and temperature "the
other quantities that have a conversion": log entry 16. -/
def registry : List RegisterDescriptor :=
  [{ name := "position", address := 36, width := .two, quantity := .position },
   { name := "goal position", address := 30, width := .two, quantity := .position }]

/-- `describeRegister(name)` (R181), the lookup by name. `none` for a name without an entry: what the lookup answers there is
not in the source (93_implementation_defined.md U25; log entry 16). -/
def describeRegister (name : String) : Option RegisterDescriptor := registry.find? fun d => d.name = name

/-- The raw value of a register's data bytes, low byte first (R43, R183); `none` when they are not one or two
bytes, which is no width of a register (log entry 21). -/
def rawValue : List Byte → Option Nat
  | [x] => some x.toNat
  | [x, y] => some (x.toNat + 256 * y.toNat)
  | _ => none

/-- The data bytes of a two-byte raw value: `[raw mod 256, raw div 256]` (R183). The rule's domain is 0..65535; above it the spec
gives no bytes, and the model keeps the low 16 bits. DESIGN CHOICE, unsafe, log entry 21. -/
def rawBytes (raw : Nat) : List Byte := [BitVec.ofNat 8 (raw % 256), BitVec.ofNat 8 (raw / 256)]

/-- The raw value of a register from as many data bytes as its width (R183); from another number the spec gives none, and neither does
the model (log entry 21). -/
def rawOf (d : RegisterDescriptor) (data : List Byte) : Option Nat :=
  if data.length = widthBytes d.width then rawValue data else none

/-- The data bytes that write a raw value to a register, as many as its width (R183). The rule's domain is 0..255 for width 1 and
0..65535 for width 2; above it the spec gives no bytes, and the model keeps the low 8 or 16 bits. DESIGN CHOICE, unsafe, log
entry 21. -/
def dataOf (d : RegisterDescriptor) (raw : Nat) : List Byte :=
  match d.width with
  | .one => [BitVec.ofNat 8 raw]
  | .two => rawBytes raw

/-- The raw-to-physical half of a register's conversion (R180, R184 to R189). -/
def toPhysical (d : RegisterDescriptor) (raw : Nat) : Physical := convert d.quantity raw

/-- The physical value of a register's data bytes: S2 of 95_test_vectors.md as a function. -/
def physicalOf (d : RegisterDescriptor) (data : List Byte) : Option Physical := (rawOf d data).map (toPhysical d)

/-- The read of a register of target `t`: its address and width become the `a` and `n` of an `RD` (R181). -/
def readRequestOf (d : RegisterDescriptor) (t : Nat) : Request := .rd t d.address.toNat (widthBytes d.width)

/-- The write of a raw value to a register of target `t`: its address and width become the `a` and `len(d)` of a `WR` (R181). A
raw value too large for the width is cut by `dataOf` (log entry 21). -/
def writeRequestOf (d : RegisterDescriptor) (t raw : Nat) : Request := .wr t d.address.toNat (dataOf d raw)

end Sys2Proof.Machine
end

