-- ==== Sys2Proof/Safety.lean ====
section
/-! DEFINITION. What a good state is (R11's field ranges and the invariants of R26), and what a safe outcome is. -/

namespace Sys2Proof.Machine

/-- Every field holds a value of the type R11 gives it (10_state.md rule R11; I4 of R26). -/
structure FieldRanges (cfg : Cfg) (b : Bte) : Prop where
  queue   : b.queue.length ≤ cfg.qDepth
  clients : ∀ e ∈ b.queue, e.1 < cfg.nClients
  rxbuf   : b.rxbuf.length ≤ cfg.rxCap
  txbuf   : ∀ f, b.txbuf = some f → 7 ≤ f.length ∧ f.length ≤ 259
  txIdx   : ∀ i, b.txIdx = some i → i ≤ 259
  byteCnt : ∀ n, b.byteCnt = some n → 1 ≤ n ∧ n ≤ cfg.tByte
  turnCnt : ∀ n, b.turnCnt = some n → 1 ≤ n ∧ n ≤ cfg.tTurn
  toCnt   : ∀ n, b.toCnt = some n → 1 ≤ n ∧ n ≤ cfg.tTimeout
  expLen  : ∀ e, b.expLen = some e → e = 0 ∨ (6 ≤ e ∧ e ≤ 261)
  result  : ∀ d err, b.result = some (.success d err) → d.length ≤ 255

/-- The transaction in progress is for the valid request `q`: its frame and its expected length are loaded (I5 of R26, R19). -/
def Loaded (q : Request) (b : Bte) : Prop :=
  b.curReq = some q ∧ validate q = true ∧ b.txbuf = some (encodeRequest q) ∧ b.expLen = some (expectedLen q)

/-- The invariants of R26. `sending`, `turnaround`, `receiving` and `completed` are I1, I2, I3 and I5 for each state of the
sequencer; `holder` is R20 (the lock has a holder); `driven` is I6. I4 is in `FieldRanges`; I7 is `Machine.tickIdle` being
the only start. -/
structure EngineInv (cfg : Cfg) (b : Bte) : Prop where
  ranges : FieldRanges cfg b
  sending : b.st = .sending →
    b.dir = .tx ∧ b.rxbuf = [] ∧
      ∃ q i n, Loaded q b ∧ b.txIdx = some i ∧ i < (encodeRequest q).length ∧ b.byteCnt = some n
  turnaround : b.st = .awaitingTurnaround →
    b.dir = .tx ∧ b.rxbuf = [] ∧
      ∃ q n, Loaded q b ∧ b.txIdx = some (encodeRequest q).length ∧ b.turnCnt = some n
  receiving : b.st = .receiving →
    b.dir = .rx ∧
      ∃ q n, Loaded q b ∧ 6 ≤ expectedLen q ∧ b.rxbuf.length < expectedLen q ∧ b.toCnt = some n
  completed : b.st = .completed → ∃ r, b.result = some r
  holder : b.st ≠ .idle → ∃ c, b.curClient = some c ∧ c < cfg.nClients
  driven : b.st = .idle ∨ b.st = .completed → b.dir = .tx →
    ∃ a d, b.txbuf = some (encodeRequest (.wr 254 a d)) ∧ b.expLen = some 0

/-- A good state: a legal configuration (R10) and the invariants of R26. -/
structure Inv (s : State) : Prop where
  legal : legalCfg s.cfg = true
  inv   : EngineInv s.cfg s.bte

/-- An outcome that is no fault. -/
def NoFault (o : Host.Outcome State Fault Refusal) : Prop := ∀ f, o ≠ .fault f

/-- The inputs still to come hold no `Reset` and no `Submit` by a number that is no client: what a claim that an accepted
request is answered must suppose (R241). -/
def NoReset (cfg : Cfg) (l : List Input) : Prop :=
  ∀ e, Input.event e ∈ l → e ≠ .reset ∧ stranger cfg e = none

/-- The next thing the machine meets is event `e` (no operation is presented next), under a legal configuration. -/
structure Meets (e : Event) (s : State) : Prop where
  legal : legalCfg s.cfg = true
  event : nextEvent s = e
  plain : fetch s = none

/-- The client and the request of an operation that is a blocking call (R141, R155, R156, R157, R165). -/
def requestOf : Instr → Option (Nat × Request)
  | .rd c t a n => some (c, .rd t a n)
  | .wr c t a d => some (c, .wr t a d)
  | .wrBcast c a d => some (c, .wr 254 a d)
  | .exec c q => some (c, q)
  | .read _ _ _ _ => none
  | .write _ _ _ _ _ => none
  | .status _ _ _ _ _ => none
  | .chk _ => none
  | .encRd _ _ _ => none
  | .encWr _ _ _ => none
  | .decSt _ _ => none
  | .send => none
  | .turn => none
  | .recv => none

/-- The bytes of a frame on the line that is not the one BTE is due to send or is sending: a STATUS frame always, a READ or
WRITE frame when it is not the frame due (R2, log entry 5). -/
def heardFrame (b : Bte) : Instr → Option (List Byte)
  | .read t a n k => if dueFrame b = some (readBytes t a n k) then none else some (readBytes t a n k)
  | .write t l a d k => if dueFrame b = some (writeBytes t l a d k) then none else some (writeBytes t l a d k)
  | .status id l e p k => some (statusBytes id l e p k)
  | .rd _ _ _ _ => none
  | .wr _ _ _ _ => none
  | .wrBcast _ _ _ => none
  | .chk _ => none
  | .encRd _ _ _ => none
  | .encWr _ _ _ => none
  | .decSt _ _ => none
  | .send => none
  | .turn => none
  | .recv => none
  | .exec _ _ => none

/-- Client `c` finds the block idle with nothing queued, under a legal configuration: what a request needs to be served at
once. -/
structure ReadyFor (c : Nat) (s : State) : Prop where
  legal  : legalCfg s.cfg = true
  client : c < s.cfg.nClients
  idle   : s.bte.st = .idle
  queue  : s.bte.queue = []

/-- The frame of request `q`, byte by byte on the line (R42, R145). -/
def frameOutputs (q : Request) : List Output := (encodeRequest q).map .txByte

/-- The state in which `q`, served for client `c` from the head of the queue, is drained (R145): its frame is out, the turnaround
delay is loaded. -/
def drainedState (s : State) (c : Nat) (q : Request) (rest : List (Nat × Request)) (left : List Input) : State :=
  { s with
    bte := { s.bte with
      st        := .awaitingTurnaround
      dir       := .tx
      queue     := rest
      curClient := some c
      curReq    := some q
      txbuf     := some (encodeRequest q)
      txIdx     := some (encodeRequest q).length
      byteCnt   := some 1
      turnCnt   := some s.cfg.tTurn
      expLen    := some (expectedLen q)
      rxbuf     := [] }
    inbox := left
    out   := s.out ++ frameOutputs q
    ret   := some .unit }

/-- The state in which a call by client `c` of request `q`, served at once, has ended with result `r`: all thirteen fields of
R11, what was emitted, what is left of the inputs, and what the caller was given. -/
def endedState (s : State) (c : Nat) (q : Request) (level : Dir) (window : Option Nat) (r : Result) (left : List Input) :
    State where
  cfg := s.cfg
  bte :=
    { st        := .idle
      dir       := level
      queue     := []
      curClient := some c
      curReq    := some q
      txbuf     := some (encodeRequest q)
      txIdx     := some (encodeRequest q).length
      byteCnt   := some 1
      turnCnt   := some 1
      toCnt     := window
      expLen    := some (expectedLen q)
      rxbuf     := []
      result    := some r }
  inbox := left
  out   := s.out ++ (.accepted c :: frameOutputs q) ++ [.done c r]
  ret   := some (.result r)

/-- The state in which a call of a request that cannot be encoded has ended (R144, R201). -/
def refusedState (s : State) (c : Nat) (q : Request) (left : List Input) : State :=
  { s with
    bte := { s.bte with
      curClient := some c
      curReq    := some q
      result    := some (.failure .constructionError) }
    inbox := left
    out   := s.out ++ [.accepted c, .done c (.failure .constructionError)]
    ret   := some (.result (.failure .constructionError)) }

/-- Why a receive that ended on its timeout failed, from the bytes it returned (R148, R202, R203). -/
def lateReason (raw : List Byte) : Reason := if raw = [] then .timeout else .shortFrame

/-- Ticks from the one that starts request `q` to the one that ends its turnaround delay, the start tick counted (R263). -/
def ticksToWindow (cfg : Cfg) (q : Request) : Nat := 1 + (encodeRequest q).length * cfg.tByte + cfg.tTurn

/-- The events `w`, presented one after another. -/
def events (w : List Event) : List Input := w.map .event

/-- The events of a stretch of time in which only the line acts: ticks and arriving bytes. -/
def lineOnly (w : List Event) : Prop := ∀ e ∈ w, e = .tick ∨ ∃ x, e = .rxByte x

/-- How many ticks a stretch of time has. -/
def tickCount : List Event → Nat
  | [] => 0
  | .tick :: w => tickCount w + 1
  | .reset :: w => tickCount w
  | .rxByte _ :: w => tickCount w
  | .submit _ _ :: w => tickCount w

/-- The bytes that arrive in a stretch of time, in order. -/
def arrivals : List Event → List Byte
  | [] => []
  | .rxByte x :: w => x :: arrivals w
  | .tick :: w => arrivals w
  | .reset :: w => arrivals w
  | .submit _ _ :: w => arrivals w

/-- The requests submitted in a stretch of inputs, with the clients that submitted them, in order. -/
def submissions : List Input → List (Nat × Request)
  | [] => []
  | .event (.submit c q) :: l => (c, q) :: submissions l
  | .event .reset :: l => submissions l
  | .event .tick :: l => submissions l
  | .event (.rxByte _) :: l => submissions l
  | .packet _ :: l => submissions l

/-- The bytes put on the line, in order. -/
def lineBytes : List Output → List Byte
  | [] => []
  | .txByte x :: o => x :: lineBytes o
  | .accepted _ :: o => lineBytes o
  | .rejected _ :: o => lineBytes o
  | .done _ _ :: o => lineBytes o

/-- The clients whose requests were accepted, in order. -/
def acceptedClients : List Output → List Nat
  | [] => []
  | .accepted c :: o => c :: acceptedClients o
  | .txByte _ :: o => acceptedClients o
  | .rejected _ :: o => acceptedClients o
  | .done _ _ :: o => acceptedClients o

/-- The clients whose requests were reported, in order. -/
def doneClients : List Output → List Nat
  | [] => []
  | .done c _ :: o => c :: doneClients o
  | .txByte _ :: o => doneClients o
  | .accepted _ :: o => doneClients o
  | .rejected _ :: o => doneClients o

/-- The whole frames of the requests of `l` that can be encoded, one after another. -/
def wholeFrames : List (Nat × Request) → List Byte
  | [] => []
  | (_, q) :: l => (if validate q then encodeRequest q else []) ++ wholeFrames l

/-- `k` steps, stopping at the first fault or refusal. -/
def steps : Nat → State → Host.Outcome State Fault Refusal
  | 0, s => .next s
  | k + 1, s => andThen (step s) (steps k)

/-- What the machine can come to from the reset state of R27 under configuration `cfg`, whatever is presented. -/
inductive Reachable (cfg : Cfg) : State → Prop where
  | start (l : List Input) : Reachable cfg { State.reset with cfg := cfg, inbox := l }
  | after {s t : State} (h : Reachable cfg s) (ht : step s = .next t) : Reachable cfg t

end Sys2Proof.Machine
end

