-- ==== Sys2Proof/Certificates/Slice0/Obligations.lean ====
section
/-! DEFINITION. The statements for the provers, from the numbered rules of spec/ (ISA_SPEC.md).

In every statement about `exec` or `step`, the fields `inbox`, `out` and `ret` and the presentation of inputs are the model's
own record (log entries 2, 3, 4); the thirteen fields of `bte` are those of R11. Every next state is written out whole, so a
field that a statement does not name is unchanged. -/

section Statements

open Sys2Proof Sys2Proof.Machine

/-! ### Encodings -/

/-- Every well-formed operation, with every operand at every value its encoding admits, is read back from its own encoding
(R61, R62, R63, R66). The packets are the model's own (log entry 8). -/
def Obligations.DecodeReadsBackEveryEncoding : Prop :=
  ∀ i : Instr, i.wf = true → decode (encode i) = .ok i

/-- A frame on the line that decodes is the encoding of what it decodes to: no byte is dropped (R60 to R63). -/
def Obligations.DecodedFramesAreTheirOwnEncoding : Prop :=
  ∀ (bytes : List Byte) (i : Instr),
    (decode (.instrFrame bytes) = .ok i → encode i = .instrFrame bytes) ∧
    (decode (.statusFrame bytes) = .ok i → encode i = .statusFrame bytes)

/-- Words written out from the rows of spec/opcode_table.json decode to what the rows say; the row READ of S1, its broadcast
form of the write port, and the shortest frames. The numbering of a row's bits is that of log entry 9. -/
def Obligations.TableWordsDecode : Prop :=
  decodeTableWord 64 0xFFFF0104022402D2 = some (.read 0x01 0x24 0x02 0xD2) ∧
  decodeTableWord 72 0xFFFF0105031E0002D6 = some (.write 0x01 0x05 0x1E [0x00, 0x02] 0xD6) ∧
  decodeTableWord 56 0xFFFF05030319DB = some (.write 0x05 0x03 0x19 [] 0xDB) ∧
  decodeTableWord 16 0xFFFF = some (.status 0 0 0 [] 0) ∧
  decodeTableWord 32 0x00012402 = some (.rd 0 1 36 2) ∧
  decodeTableWord 32 0x02023C00 = some (.wr 0 1 30 []) ∧
  decodeTableWord 32 0x03FC3C00 = some (.wrBcast 0 30 []) ∧
  decodeTableWord 64 0xFFFF010404240200 = none ∧
  decodeTableWord 0 0 = none

/-- The opcode map of an instruction frame (R68): two entries, and BTE emits no other value. -/
def Obligations.InstructionFramesHaveTwoOpcodes : Prop :=
  (∀ (bytes : List Byte) (i : Instr), decode (.instrFrame bytes) = .ok i →
    (bytes[4]? = some 0x02 ∧ ∃ t a n k, i = .read t a n k) ∨
    (bytes[4]? = some 0x03 ∧ ∃ t l a d k, i = .write t l a d k)) ∧
  (∀ s : State, Inv s → s.bte.st = .sending →
    ∃ f, s.bte.txbuf = some f ∧ (f[4]? = some 0x02 ∨ f[4]? = some 0x03))

/-- A step runs the decoded operation: presented next, it is taken from the inputs and `exec` runs it; what does not decode
is refused by name; with no operation presented next, the next event happens (log entries 2 and 10). -/
def Obligations.StepRunsTheDecodedOperation : Prop :=
  (∀ (s : State) (p : Packet) (rest : List Input) (i : Instr), s.inbox = .packet p :: rest → decode p = .ok i →
    step s = exec i { s with inbox := rest }) ∧
  (∀ (s : State) (p : Packet) (rest : List Input) (e : DecodeError), s.inbox = .packet p :: rest → decode p = .error e →
    step s = .refused (.undecodable e)) ∧
  (∀ s : State, fetch s = none → step s = applyEvent (nextEvent s) { s with inbox := restInbox s }) ∧
  (∀ (s : State) (nbits w : Nat) (i : Instr), decodeTableWord nbits w = some i →
    step (s.withFetchWord nbits w) = exec i s)

/-! ### The codec -/

/-- CHK (R90): the complement of the exact byte sum, modulo 256; it depends only on the multiset of the bytes; it gives the
byte back and changes nothing else. -/
def Obligations.ChkComplementsTheByteSum : Prop :=
  (∀ (bs : List Byte) (s : State), ∃ k : Byte,
    k.toNat = 255 - (bs.map BitVec.toNat).sum % 256 ∧ exec (.chk bs) s = .next { s with ret := some (.byte k) }) ∧
  (∀ bs bs' : List Byte, bs.Perm bs' → chk bs = chk bs')

/-- The laws (a), (b) and (c) of the checksum (R91). -/
def Obligations.ChkLaws : Prop :=
  (∀ bs : List Byte, ((bs.map BitVec.toNat).sum + (chk bs).toNat) % 256 = 255) ∧
  (∀ (xs ys : List Byte) (x y : Byte), x ≠ y → chk (xs ++ x :: ys) ≠ chk (xs ++ y :: ys)) ∧
  (∀ (xs ys zs : List Byte) (x y u v : Byte), (x.toNat + y.toNat) % 256 = (u.toNat + v.toNat) % 256 →
    chk (xs ++ x :: ys ++ y :: zs) = chk (xs ++ u :: ys ++ v :: zs)) ∧
  (∀ bs bs' : List Byte, bs.Perm bs' → chk bs = chk bs')

/-- ENC_RD (R94): the 8-byte read frame of a request in range, `ConstructionError` for any other; nothing else changes. -/
def Obligations.EncRdBuildsTheReadFrame : Prop :=
  ∀ (t a n : Nat) (s : State),
    (t ≤ 253 ∧ a ≤ 255 ∧ n ≤ 255 →
      exec (.encRd t a n) s = .next { s with
        ret := some (.frame [0xFF, 0xFF, BitVec.ofNat 8 t, 4, 0x02, BitVec.ofNat 8 a, BitVec.ofNat 8 n,
          chk [BitVec.ofNat 8 t, 4, 0x02, BitVec.ofNat 8 a, BitVec.ofNat 8 n]]) }) ∧
    (¬(t ≤ 253 ∧ a ≤ 255 ∧ n ≤ 255) →
      exec (.encRd t a n) s = .next { s with ret := some (.result (.failure .constructionError)) })

/-- ENC_WR (R95): the write frame, `7 + len(d)` bytes, of a request in range, the broadcast target among them;
`ConstructionError` for any other; nothing else changes. -/
def Obligations.EncWrBuildsTheWriteFrame : Prop :=
  ∀ (t a : Nat) (d : List Byte) (s : State),
    (t ≤ 254 ∧ a ≤ 255 ∧ d.length ≤ 252 → ∃ f body : List Byte,
      body = [BitVec.ofNat 8 t, BitVec.ofNat 8 (3 + d.length), 0x03, BitVec.ofNat 8 a] ++ d ∧
      f = [0xFF, 0xFF] ++ body ++ [chk body] ∧ f.length = 7 + d.length ∧
      exec (.encWr t a d) s = .next { s with ret := some (.frame f) }) ∧
    (¬(t ≤ 254 ∧ a ≤ 255 ∧ d.length ≤ 252) →
      exec (.encWr t a d) s = .next { s with ret := some (.result (.failure .constructionError)) })

/-- The frame of every request in range is valid (header, declared length, checksum: R92) and has one of the two opcodes
(R96). The declared length is the exact one, so the LEN byte did not wrap. -/
def Obligations.EncodedFramesAreValid : Prop :=
  ∀ q : Request, validate q = true →
    frameValid (encodeRequest q) = true ∧
    (encodeRequest q)[3]?.map BitVec.toNat = some ((encodeRequest q).length - 4) ∧
    ((encodeRequest q)[4]? = some 0x02 ∨ (encodeRequest q)[4]? = some 0x03) ∧
    (∀ t a n, q = .rd t a n → encodeRequest q = encRead t a n) ∧
    (∀ t a d, q = .wr t a d → encodeRequest q = encWrite t a d)

/-- DEC_ST (R97): the tests in the rule's order, the first that fires deciding; nothing but the return value changes. -/
def Obligations.DecStTestsInOrder : Prop :=
  ∀ (raw : List Byte) (e : Nat) (s : State), 6 ≤ e →
    (raw.length = 0 → exec (.decSt raw e) s = .next { s with ret := some (.result (.failure .timeout)) }) ∧
    (raw.length ≠ 0 → raw.length ≠ e →
      exec (.decSt raw e) s = .next { s with ret := some (.result (.failure .shortFrame)) }) ∧
    (raw.length = e → (raw[0]? ≠ some 0xFF ∨ raw[1]? ≠ some 0xFF) →
      exec (.decSt raw e) s = .next { s with ret := some (.result (.failure .badHeader)) }) ∧
    (raw.length = e → raw[0]? = some 0xFF → raw[1]? = some 0xFF → raw[e - 1]? ≠ some (chk (slice raw 2 (e - 1))) →
      exec (.decSt raw e) s = .next { s with ret := some (.result (.failure .checksumMismatch)) }) ∧
    (∀ err : Byte, raw.length = e → raw[0]? = some 0xFF → raw[1]? = some 0xFF → raw[4]? = some err →
      raw[e - 1]? = some (chk (slice raw 2 (e - 1))) →
      exec (.decSt raw e) s = .next { s with ret := some (.result (.success (slice raw 5 (e - 1)) err)) })

/-- The domain of DEC_ST (R99): refused below 6, which changes nothing; any length of `raw` is decided; BTE itself decodes
only with an expected length of at least 6 (I2 of R26). -/
def Obligations.DecStIsRefusedBelowSix : Prop :=
  (∀ (raw : List Byte) (e : Nat) (s : State), e < 6 → exec (.decSt raw e) s = .refused .decodeStatusDomain) ∧
  (∀ (raw : List Byte) (e : Nat), 6 ≤ e → raw.length ≠ e →
    decodeStatus raw e = some (.failure .timeout) ∨ decodeStatus raw e = some (.failure .shortFrame)) ∧
  (∀ (s : State) (e : Nat), Inv s → s.bte.st = .receiving → s.bte.expLen = some e → 6 ≤ e)

/-- What DEC_ST does not test (R98): ID, LEN and ERR; a corruption of one of them alone is a checksum mismatch; a success
has the header and checksum of a valid frame and not necessarily its declared length. -/
def Obligations.DecStLeavesIdLenErrUntested : Prop :=
  (∀ (i l err : Byte) (p : List Byte),
    decodeStatus ([0xFF, 0xFF, i, l, err] ++ p ++ [chk ([i, l, err] ++ p)]) (6 + p.length) = some (.success p err)) ∧
  (∀ (raw : List Byte) (e j : Nat) (d : List Byte) (err x : Byte), decodeStatus raw e = some (.success d err) →
    2 ≤ j → j ≤ 4 → raw[j]? ≠ some x → decodeStatus (raw.set j x) e = some (.failure .checksumMismatch)) ∧
  (∀ (raw : List Byte) (e : Nat) (d : List Byte) (err : Byte), decodeStatus raw e = some (.success d err) →
    6 ≤ raw.length ∧ raw[0]? = some 0xFF ∧ raw[1]? = some 0xFF ∧
      raw[raw.length - 1]? = some (chk (slice raw 2 (raw.length - 1)))) ∧
  (∃ (raw : List Byte) (e : Nat) (d : List Byte) (err : Byte),
    decodeStatus raw e = some (.success d err) ∧ frameValid raw = false)

/-- The round trip (R101): the status decoder reads back the opcode and the parameters of every valid request's frame, and
the fields of every well-formed status frame. -/
def Obligations.EncodeDecodeRoundTrip : Prop :=
  (∀ t a n : Nat, validate (.rd t a n) = true →
    decodeStatus (encodeRequest (.rd t a n)) (encodeRequest (.rd t a n)).length =
      some (.success [BitVec.ofNat 8 a, BitVec.ofNat 8 n] 0x02) ∧
    (encodeRequest (.rd t a n))[2]? = some (BitVec.ofNat 8 t)) ∧
  (∀ (t a : Nat) (d : List Byte), validate (.wr t a d) = true →
    decodeStatus (encodeRequest (.wr t a d)) (encodeRequest (.wr t a d)).length =
      some (.success (BitVec.ofNat 8 a :: d) 0x03) ∧
    (encodeRequest (.wr t a d))[2]? = some (BitVec.ofNat 8 t)) ∧
  (∀ (i err : Byte) (p : List Byte), p.length ≤ 253 →
    decodeStatus ([0xFF, 0xFF, i, BitVec.ofNat 8 (p.length + 2), err] ++ p ++
      [chk ([i, BitVec.ofNat 8 (p.length + 2), err] ++ p)]) (6 + p.length) = some (.success p err))

/-- Single-bit detection (R102): one bit of a valid frame inverted, at bit `k` of byte `j`. -/
def Obligations.SingleBitFlipIsDetected : Prop :=
  ∀ (f : List Byte) (x : Byte) (j k : Nat), frameValid f = true → f[j]? = some x → k < 8 →
    decodeStatus (f.set j (x ^^^ BitVec.twoPow 8 k)) f.length =
      some (.failure (if j < 2 then .badHeader else .checksumMismatch))

/-- Validation and the expected response length (R147; the bounds of `Validate` are those of R93). -/
def Obligations.ExpectedLengthByKind : Prop :=
  (∀ t a n : Nat, (validate (.rd t a n) = true ↔ t ≤ 253 ∧ a ≤ 255 ∧ n ≤ 255) ∧ expectedLen (.rd t a n) = 6 + n) ∧
  (∀ (t a : Nat) (d : List Byte), (validate (.wr t a d) = true ↔ t ≤ 254 ∧ a ≤ 255 ∧ d.length ≤ 252) ∧
    expectedLen (.wr 254 a d) = 0 ∧ (t ≠ 254 → expectedLen (.wr t a d) = 6)) ∧
  (∀ q : Request, validate q = true → expectedLen q = 0 ∨ (6 ≤ expectedLen q ∧ expectedLen q ≤ 261))

/-! ### The events, one by one -/

/-- `Submit` in any state (R142): queued at the tail and `Accepted`, or `Rejected` with no trace. -/
def Obligations.SubmitQueuesOrRejects : Prop :=
  ∀ (s : State) (c : Nat) (q : Request), Meets (.submit c q) s → c < s.cfg.nClients →
    (s.bte.queue.length < s.cfg.qDepth →
      step s = .next { s with
        bte   := { s.bte with queue := s.bte.queue ++ [(c, q)] }
        inbox := restInbox s
        out   := s.out ++ [Output.accepted c] }) ∧
    (¬ s.bte.queue.length < s.cfg.qDepth →
      step s = .next { s with inbox := restInbox s, out := s.out ++ [Output.rejected c] })

/-- `Tick` in `Idle` (R144). -/
def Obligations.TickInIdleStartsTheHead : Prop :=
  ∀ s : State, Meets .tick s → s.bte.st = .idle →
    (s.bte.queue = [] → step s = .next { s with inbox := restInbox s }) ∧
    (∀ (c : Nat) (q : Request) (rest : List (Nat × Request)), s.bte.queue = (c, q) :: rest →
      (validate q = false →
        step s = .next { s with
          bte := { s.bte with
            queue     := rest
            curClient := some c
            curReq    := some q
            result    := some (.failure .constructionError)
            st        := .completed }
          inbox := restInbox s }) ∧
      (validate q = true →
        step s = .next { s with
          bte := { s.bte with
            queue     := rest
            curClient := some c
            curReq    := some q
            txbuf     := some (encodeRequest q)
            txIdx     := some 0
            byteCnt   := some s.cfg.tByte
            expLen    := some (expectedLen q)
            dir       := .tx
            rxbuf     := []
            st        := .sending }
          inbox := restInbox s }))

/-- `Tick` in `Sending` (R145), and the frame's schedule (R129): whatever the line does, after `k` ticks from the start the
whole bytes out are the first `k / T_BYTE`, and on tick `L * T_BYTE` the frame is drained. -/
def Obligations.SendingShiftsTheFrameOutOnSchedule : Prop :=
  (∀ (s : State) (f : List Byte) (i n : Nat) (x : Byte), Meets .tick s → s.bte.st = .sending → s.bte.txbuf = some f →
    s.bte.txIdx = some i → s.bte.byteCnt = some n → 1 ≤ n → f[i]? = some x →
    (1 < n → step s = .next { s with bte := { s.bte with byteCnt := some (n - 1) }, inbox := restInbox s }) ∧
    (n = 1 → i + 1 < f.length →
      step s = .next { s with
        bte   := { s.bte with txIdx := some (i + 1), byteCnt := some s.cfg.tByte }
        inbox := restInbox s
        out   := s.out ++ [Output.txByte x] }) ∧
    (n = 1 → ¬ i + 1 < f.length →
      step s = .next { s with
        bte   := { s.bte with txIdx := some (i + 1), turnCnt := some s.cfg.tTurn, st := .awaitingTurnaround }
        inbox := restInbox s
        out   := s.out ++ [Output.txByte x] })) ∧
  (∀ (s : State) (f : List Byte) (w : List Event) (rest : List Input), legalCfg s.cfg = true → s.bte.st = .sending →
    s.bte.dir = .tx → s.bte.txbuf = some f → s.bte.txIdx = some 0 → s.bte.byteCnt = some s.cfg.tByte → lineOnly w →
    (s.inbox = events w ++ rest → tickCount w < f.length * s.cfg.tByte →
      steps w.length s = .next { s with
        bte := { s.bte with
          txIdx   := some (tickCount w / s.cfg.tByte)
          byteCnt := some (s.cfg.tByte - tickCount w % s.cfg.tByte) }
        inbox := rest
        out   := s.out ++ (f.take (tickCount w / s.cfg.tByte)).map Output.txByte }) ∧
    (s.inbox = events (w ++ [Event.tick]) ++ rest → tickCount w + 1 = f.length * s.cfg.tByte →
      steps (w.length + 1) s = .next { s with
        bte := { s.bte with
          txIdx   := some f.length
          byteCnt := some 1
          turnCnt := some s.cfg.tTurn
          st      := .awaitingTurnaround }
        inbox := rest
        out   := s.out ++ f.map Output.txByte }))

/-- `Tick` in `AwaitingTurnaround` (R146), and how long the state lasts: with `n` ticks left it is left on the `n`-th. -/
def Obligations.TurnaroundLastsItsTicks : Prop :=
  (∀ (s : State) (n e : Nat), Meets .tick s → s.bte.st = .awaitingTurnaround → s.bte.turnCnt = some n →
    s.bte.expLen = some e → 1 ≤ n →
    (1 < n → step s = .next { s with bte := { s.bte with turnCnt := some (n - 1) }, inbox := restInbox s }) ∧
    (n = 1 → e = 0 →
      step s = .next { s with
        bte   := { s.bte with result := some (.success [] 0), st := .completed }
        inbox := restInbox s }) ∧
    (n = 1 → e ≠ 0 →
      step s = .next { s with
        bte   := { s.bte with dir := .rx, toCnt := some s.cfg.tTimeout, st := .receiving }
        inbox := restInbox s })) ∧
  (∀ (s : State) (n e : Nat) (w : List Event) (rest : List Input), legalCfg s.cfg = true →
    s.bte.st = .awaitingTurnaround → s.bte.dir = .tx → s.bte.turnCnt = some n → s.bte.expLen = some e →
    s.inbox = events w ++ rest → lineOnly w → tickCount w < n →
    steps w.length s = .next { s with
      bte := { s.bte with turnCnt := some (n - tickCount w) }, inbox := rest })

/-- `Tick` in `Receiving` (R148). The premise `len(rxbuf) < exp_len` is I2 of R26, which every step keeps. -/
def Obligations.TickInReceivingCountsDownAndTimesOut : Prop :=
  ∀ (s : State) (n e : Nat), Meets .tick s → s.bte.st = .receiving → s.bte.toCnt = some n → s.bte.expLen = some e →
    1 ≤ n → 6 ≤ e → s.bte.rxbuf.length < e →
    (1 < n → step s = .next { s with bte := { s.bte with toCnt := some (n - 1) }, inbox := restInbox s }) ∧
    (n = 1 → decodeStatus s.bte.rxbuf e = some (.failure (if s.bte.rxbuf = [] then .timeout else .shortFrame)) ∧
      step s = .next { s with
        bte := { s.bte with
          rxbuf  := []
          result := some (.failure (if s.bte.rxbuf = [] then .timeout else .shortFrame))
          st     := .completed }
        inbox := restInbox s })

/-- `RxByte` in `Receiving` (R149): the byte is taken whatever its value; when the count is satisfied the transaction
completes on this event, with a header or checksum failure or a success. -/
def Obligations.ByteInReceivingIsTaken : Prop :=
  ∀ (s : State) (x : Byte) (e : Nat), Meets (.rxByte x) s → s.bte.st = .receiving → s.bte.expLen = some e → 6 ≤ e →
    (s.bte.rxbuf.length + 1 ≠ e →
      step s = .next { s with bte := { s.bte with rxbuf := s.bte.rxbuf ++ [x] }, inbox := restInbox s }) ∧
    (s.bte.rxbuf.length + 1 = e → ∃ r, decodeStatus (s.bte.rxbuf ++ [x]) e = some r ∧
      (r = .failure .badHeader ∨ r = .failure .checksumMismatch ∨ ∃ d err, r = .success d err) ∧
      step s = .next { s with
        bte := { s.bte with rxbuf := [], result := some r, st := .completed }, inbox := restInbox s })

/-- `RxByte` in every other state (R153), and the unreachability it mentions (I1 of R26). -/
def Obligations.ByteElsewhereIsGatedOrStale : Prop :=
  (∀ (s : State) (x : Byte), Meets (.rxByte x) s → s.bte.st ≠ .receiving →
    (s.bte.dir = .tx → step s = .next { s with inbox := restInbox s }) ∧
    (s.bte.dir = .rx → s.bte.rxbuf.length < s.cfg.rxCap →
      step s = .next { s with bte := { s.bte with rxbuf := s.bte.rxbuf ++ [x] }, inbox := restInbox s }) ∧
    (s.bte.dir = .rx → ¬ s.bte.rxbuf.length < s.cfg.rxCap → step s = .next { s with inbox := restInbox s })) ∧
  (∀ s : State, Inv s → s.bte.dir = .rx → s.bte.st ≠ .sending ∧ s.bte.st ≠ .awaitingTurnaround)

/-- `Tick` in `Completed` (R151): `Done` is emitted, the lock is released, nothing else changes; if the queue is not empty the
following `Tick` starts its head. -/
def Obligations.RetireReportsAndReleasesTheLock : Prop :=
  ∀ (s : State) (c : Nat) (r : Result), Meets .tick s → s.bte.st = .completed → s.bte.curClient = some c →
    s.bte.result = some r →
    step s = .next { s with
      bte   := { s.bte with st := .idle }
      inbox := restInbox s
      out   := s.out ++ [Output.done c r] } ∧
    (∀ (t : State) (c' : Nat) (q : Request) (rest : List (Nat × Request)), step s = .next t → Meets .tick t →
      s.bte.queue = (c', q) :: rest →
      ∃ u, step t = .next u ∧ u.bte.curClient = some c' ∧ u.bte.curReq = some q ∧ u.bte.queue = rest ∧
        u.bte.st ≠ .idle)

/-- `Reset` in any state (R27, R154, R240): every field at its reset value, nothing emitted, and the status outputs 0, 1, 0. -/
def Obligations.ResetPutsEveryFieldBack : Prop :=
  ∀ s : State, Meets .reset s →
    step s = .next { s with
      bte := { st := .idle, dir := .rx, queue := [], curClient := none, curReq := none, txbuf := none, txIdx := none,
               byteCnt := none, turnCnt := none, toCnt := none, expLen := none, rxbuf := [], result := none }
      inbox := restInbox s } ∧
    (∀ t, step s = .next t → busy t.bte = false ∧ cmdReady t.cfg t.bte = true ∧ resValid t.bte = false) ∧
    State.reset.bte = { st := .idle, dir := .rx, queue := [], curClient := none, curReq := none, txbuf := none,
                        txIdx := none, byteCnt := none, turnCnt := none, toCnt := none, expLen := none, rxbuf := [],
                        result := none }

/-- What is no event of the alphabet is refused and changes nothing: any event under an illegal configuration (R10: "the
model refuses it"), and a `Submit` by a number that is no client (log entries 11 and 12). -/
def Obligations.IllegalConfigurationAndStrangersAreRefused : Prop :=
  (∀ s : State, legalCfg s.cfg = false → fetch s = none → step s = .refused .illegalCfg) ∧
  (∀ (s : State) (i : Instr) (c : Nat) (q : Request), legalCfg s.cfg = false → requestOf i = some (c, q) →
    exec i s = .refused .illegalCfg) ∧
  (∀ (s : State) (c : Nat) (q : Request), Meets (.submit c q) s → ¬ c < s.cfg.nClients →
    step s = .refused (.notAClient c)) ∧
  (∀ cfg : Cfg, legalCfg cfg = true ↔ 1 ≤ cfg.tTurn ∧ 1 ≤ cfg.tTimeout ∧ 1 ≤ cfg.tByte ∧ 1 ≤ cfg.qDepth ∧
    261 ≤ cfg.rxCap ∧ 1 ≤ cfg.nClients ∧ 0 < cfg.tickPeriodNum ∧ 0 < cfg.tickPeriodDen)

/-! ### Whole-machine rules -/

/-- The reset state is good, under every legal configuration and whatever is presented (R27). -/
def Obligations.ResetMeetsTheInvariants : Prop :=
  Inv State.reset ∧
  ∀ (cfg : Cfg) (l : List Input), legalCfg cfg = true → Inv { State.reset with cfg := cfg, inbox := l }

/-- Every step, an operation's among them, keeps the field ranges of R11 and the invariants of R26. -/
def Obligations.StepKeepsTheInvariants : Prop :=
  ∀ s t : State, Inv s → step s = .next t → Inv t

/-- The invariants I1 to I7 of R26, in every reachable state, as the rule lists them. -/
def Obligations.ReachableStatesMeetI1ToI7 : Prop :=
  ∀ (cfg : Cfg) (s : State), legalCfg cfg = true → Reachable cfg s →
    (s.bte.dir = .rx → s.bte.st = .idle ∨ s.bte.st = .receiving ∨ s.bte.st = .completed) ∧
    (s.bte.st = .receiving → s.bte.dir = .rx ∧ ∃ e, s.bte.expLen = some e ∧ 6 ≤ e ∧ s.bte.rxbuf.length < e) ∧
    (∀ e b o, engine s.cfg s.bte e = .ok (b, o) → s.bte.st ≠ .receiving → b.st = .receiving → b.rxbuf = []) ∧
    (s.bte.queue.length ≤ cfg.qDepth ∧ s.bte.rxbuf.length ≤ cfg.rxCap) ∧
    ((s.bte.st = .sending → ∃ q i n, s.bte.curReq = some q ∧ validate q = true ∧
        s.bte.txbuf = some (encodeRequest q) ∧ s.bte.txIdx = some i ∧ i < (encodeRequest q).length ∧
        s.bte.byteCnt = some n ∧ 1 ≤ n ∧ n ≤ cfg.tByte) ∧
      (s.bte.st = .awaitingTurnaround → ∃ f n, s.bte.txbuf = some f ∧ s.bte.txIdx = some f.length ∧
        s.bte.turnCnt = some n ∧ 1 ≤ n ∧ n ≤ cfg.tTurn) ∧
      (s.bte.st = .receiving → ∃ n, s.bte.toCnt = some n ∧ 1 ≤ n ∧ n ≤ cfg.tTimeout) ∧
      (s.bte.st = .completed → ∃ r c, s.bte.result = some r ∧ s.bte.curClient = some c)) ∧
    (s.bte.st = .idle ∨ s.bte.st = .completed → s.bte.dir = .tx →
      ∃ a d, s.bte.txbuf = some (encodeRequest (.wr 254 a d)) ∧ s.bte.expLen = some 0) ∧
    (∀ e b o, engine s.cfg s.bte e = .ok (b, o) → e ≠ .reset → b.queue.length < s.bte.queue.length →
      e = .tick ∧ s.bte.st = .idle)

/-- No behaviour is a fault (93_implementation_defined.md, end of Part 1): from a good state no step faults, the step of an
operation among them. The three faults stand for states that break R26 (log entry 14). -/
def Obligations.GoodStatesNeverFault : Prop :=
  ∀ s : State, Inv s → NoFault (step s)

/-- The configuration never changes (R10, R243). -/
def Obligations.ConfigurationNeverChanges : Prop :=
  ∀ s t : State, step s = .next t → t.cfg = s.cfg

/-- The transitions of `st`, complete (R158), with the results the table puts at the entries into `Completed`. -/
def Obligations.SequencerMovesAsTabled : Prop :=
  ∀ s t : State, Inv s → fetch s = none → step s = .next t →
    (t.bte.st =
      match nextEvent s, s.bte.st with
      | .reset, _ => .idle
      | .submit _ _, st => st
      | .rxByte _, .receiving => if s.bte.expLen = some (s.bte.rxbuf.length + 1) then .completed else .receiving
      | .rxByte _, st => st
      | .tick, .idle =>
        match s.bte.queue with
        | [] => .idle
        | (_, q) :: _ => if validate q then .sending else .completed
      | .tick, .sending =>
        if s.bte.byteCnt = some 1 ∧ s.bte.txIdx.map (· + 1) = s.bte.txbuf.map List.length then .awaitingTurnaround
        else .sending
      | .tick, .awaitingTurnaround =>
        if s.bte.turnCnt = some 1 then (if s.bte.expLen = some 0 then .completed else .receiving)
        else .awaitingTurnaround
      | .tick, .receiving => if s.bte.toCnt = some 1 then .completed else .receiving
      | .tick, .completed => .idle) ∧
    (s.bte.st ≠ .completed → t.bte.st = .completed →
      (nextEvent s = .tick ∧ s.bte.st = .idle ∧ t.bte.result = some (.failure .constructionError)) ∨
      (nextEvent s = .tick ∧ s.bte.st = .awaitingTurnaround ∧ t.bte.result = some (.success [] 0)) ∨
      (nextEvent s = .tick ∧ s.bte.st = .receiving ∧
        (t.bte.result = some (.failure .timeout) ∨ t.bte.result = some (.failure .shortFrame))) ∨
      ((∃ x, nextEvent s = .rxByte x) ∧ s.bte.st = .receiving ∧
        (t.bte.result = some (.failure .badHeader) ∨ t.bte.result = some (.failure .checksumMismatch) ∨
          ∃ d err, t.bte.result = some (.success d err))))

/-- The direction line (R127): to `TX` in one place, to `RX` in two, and nowhere else. -/
def Obligations.DirectionLineMovesInThreePlaces : Prop :=
  ∀ s t : State, Inv s → fetch s = none → step s = .next t →
    t.bte.dir =
      match nextEvent s, s.bte.st with
      | .reset, _ => .rx
      | .tick, .idle =>
        match s.bte.queue with
        | [] => s.bte.dir
        | (_, q) :: _ => if validate q then .tx else s.bte.dir
      | .tick, .awaitingTurnaround =>
        if s.bte.turnCnt = some 1 ∧ s.bte.expLen ≠ some 0 then .rx else s.bte.dir
      | _, _ => s.bte.dir

/-- `complete(r)` is the only way into `Completed` (R152): the result is stored, nothing is emitted, and it happens in four
places; nothing else writes `result`, but for `Reset`. -/
def Obligations.OnlyCompleteEntersCompleted : Prop :=
  ∀ s t : State, Inv s → fetch s = none → step s = .next t →
    (s.bte.st ≠ .completed → t.bte.st = .completed →
      (∃ r, t.bte.result = some r) ∧ t.out = s.out ∧
      ((nextEvent s = .tick ∧ (s.bte.st = .idle ∨ s.bte.st = .awaitingTurnaround ∨ s.bte.st = .receiving)) ∨
        (∃ x, nextEvent s = .rxByte x) ∧ s.bte.st = .receiving)) ∧
    (t.bte.result ≠ s.bte.result → nextEvent s = .reset ∨ s.bte.st ≠ .completed ∧ t.bte.st = .completed)

/-- The submission queue is first-in first-out (R15, R160): `Submit` appends while there is room, the start transition takes
the head, `Reset` empties it, nothing else touches it. -/
def Obligations.QueueIsFirstInFirstOut : Prop :=
  ∀ s t : State, Inv s → fetch s = none → step s = .next t →
    t.bte.queue =
      (match nextEvent s, s.bte.st with
      | .reset, _ => []
      | .submit c q, _ => if s.bte.queue.length < s.cfg.qDepth then s.bte.queue ++ [(c, q)] else s.bte.queue
      | .tick, .idle => s.bte.queue.tail
      | _, _ => s.bte.queue) ∧
    (∀ e rest, nextEvent s = .tick → s.bte.st = .idle → s.bte.queue = e :: rest →
      t.bte.curClient = some e.1 ∧ t.bte.curReq = some e.2)

/-- The registers of a transaction are written by the start transition and `Reset` only (R12, R16, R19). -/
def Obligations.TransactionRegistersAreWrittenAtTheStart : Prop :=
  ∀ s t : State, Inv s → fetch s = none → step s = .next t →
    (nextEvent s = .reset →
      t.bte.curClient = none ∧ t.bte.curReq = none ∧ t.bte.txbuf = none ∧ t.bte.expLen = none) ∧
    (nextEvent s ≠ .reset → ¬(nextEvent s = .tick ∧ s.bte.st = .idle ∧ s.bte.queue ≠ []) →
      t.bte.curClient = s.bte.curClient ∧ t.bte.curReq = s.bte.curReq ∧ t.bte.txbuf = s.bte.txbuf ∧
        t.bte.expLen = s.bte.expLen) ∧
    (∀ c q rest, nextEvent s = .tick → s.bte.st = .idle → s.bte.queue = (c, q) :: rest → validate q = false →
      t.bte.txbuf = s.bte.txbuf ∧ t.bte.expLen = s.bte.expLen)

/-- What each event emits (R140 to R154): `Accepted` or `Rejected` for a `Submit`, one `TxByte` on the last tick of a byte,
`Done` for the current client on the retire tick, and nothing else. -/
def Obligations.OutputsOfEachEvent : Prop :=
  ∀ s t : State, Inv s → fetch s = none → step s = .next t →
    ∃ o, t.out = s.out ++ o ∧
      match nextEvent s, s.bte.st with
      | .submit c _, _ => o = if s.bte.queue.length < s.cfg.qDepth then [.accepted c] else [.rejected c]
      | .tick, .sending =>
        if s.bte.byteCnt = some 1 then
          ∃ f i x, s.bte.txbuf = some f ∧ s.bte.txIdx = some i ∧ f[i]? = some x ∧ o = [.txByte x]
        else o = []
      | .tick, .completed => ∃ c r, s.bte.curClient = some c ∧ s.bte.result = some r ∧ o = [.done c r]
      | _, _ => o = []

/-- Service follows acceptance, and no two transactions' bytes interleave (R46, R50, R51, R141, R159; S7 of
95_test_vectors.md): over any run of events without `Reset`, from any good idle state, the requests taken are those queued
before and accepted since, in that order; `Done` follows that order; the line carries whole frames one after another, the
last one perhaps still under way. -/
def Obligations.ServiceFollowsAcceptance : Prop :=
  ∀ (k : Nat) (s t : State), Inv s → s.bte.st = .idle → (∀ p, Input.packet p ∉ s.inbox) → Input.event .reset ∉ s.inbox →
    steps k s = .next t →
    ∃ taken joined : List (Nat × Request),
      taken ++ t.bte.queue = s.bte.queue ++ joined ∧
      joined.Sublist (submissions s.inbox) ∧
      acceptedClients t.out = acceptedClients s.out ++ joined.map Prod.fst ∧
      doneClients t.out =
        doneClients s.out ++ (if t.bte.st = .idle then taken else taken.dropLast).map Prod.fst ∧
      (t.bte.st ≠ .idle → ∃ c q, t.bte.curClient = some c ∧ t.bte.curReq = some q ∧ taken.getLast? = some (c, q)) ∧
      (t.bte.st ≠ .sending → lineBytes t.out = lineBytes s.out ++ wholeFrames taken) ∧
      (t.bte.st = .sending → ∃ f i, t.bte.txbuf = some f ∧ t.bte.txIdx = some i ∧
        lineBytes t.out = lineBytes s.out ++ wholeFrames taken.dropLast ++ f.take i)

/-! ### The transceiver's phases -/

/-- SEND, asked for in `Idle` with a valid request at the head of the queue (R120, R121, R144, R145): whatever the line does
meanwhile, on the last of `1 + L * T_BYTE` ticks the whole frame is out and drained, `dir` is `TX`, stale input is gone. That
SEND runs the engine's own transitions is log entry 7. -/
def Obligations.SendPutsTheWholeFrameOut : Prop :=
  (∀ (s : State) (c : Nat) (q : Request) (rest : List (Nat × Request)) (w : List Event) (left : List Input),
    legalCfg s.cfg = true → s.bte.st = .idle → s.bte.queue = (c, q) :: rest → validate q = true → lineOnly w →
    tickCount w = (encodeRequest q).length * s.cfg.tByte → s.inbox = events (w ++ [Event.tick]) ++ left →
    exec .send s = .next (drainedState s c q rest left)) ∧
  (∀ (s : State) (f : List Byte) (i n : Nat) (w : List Event) (left : List Input),
    legalCfg s.cfg = true → s.bte.st = .sending → s.bte.dir = .tx → s.bte.txbuf = some f → s.bte.txIdx = some i →
    i < f.length → s.bte.byteCnt = some n → 1 ≤ n → n ≤ s.cfg.tByte → lineOnly w →
    tickCount w + 1 = (f.length - 1 - i) * s.cfg.tByte + n → s.inbox = events (w ++ [Event.tick]) ++ left →
    exec .send s = .next { s with
      bte := { s.bte with
        txIdx   := some f.length
        byteCnt := some 1
        turnCnt := some s.cfg.tTurn
        st      := .awaitingTurnaround }
      inbox := left
      out   := s.out ++ (f.drop i).map Output.txByte
      ret   := some .unit })

/-- TURN (R122, R146, R150): exactly the ticks left of the delay, nothing emitted, bytes from the line discarded; then
receive-enable, or completion when nothing is expected. -/
def Obligations.TurnWaitsOutTheDelay : Prop :=
  ∀ (s : State) (n e : Nat) (w : List Event) (left : List Input),
    legalCfg s.cfg = true → s.bte.st = .awaitingTurnaround → s.bte.dir = .tx → s.bte.turnCnt = some n →
    s.bte.expLen = some e → lineOnly w → tickCount w + 1 = n → s.inbox = events (w ++ [Event.tick]) ++ left →
    (e ≠ 0 → exec .turn s = .next { s with
      bte   := { s.bte with turnCnt := some 1, dir := .rx, toCnt := some s.cfg.tTimeout, st := .receiving }
      inbox := left
      ret   := some .unit }) ∧
    (e = 0 → exec .turn s = .next { s with
      bte   := { s.bte with turnCnt := some 1, result := some (.success [] 0), st := .completed }
      inbox := left
      ret   := some .unit })

/-- RECV whose count is satisfied in time (R123, R149): it returns the bytes at once, without waiting for a tick, and DEC_ST
classifies them; `w` is what happens before the last byte `x`. -/
def Obligations.RecvReturnsWhenTheCountIsSatisfied : Prop :=
  ∀ (s : State) (n e : Nat) (w : List Event) (x : Byte) (r : Result) (left : List Input),
    legalCfg s.cfg = true → s.bte.st = .receiving → s.bte.expLen = some e → s.bte.toCnt = some n → lineOnly w →
    tickCount w < n → s.bte.rxbuf.length + (arrivals w).length + 1 = e →
    decodeStatus (s.bte.rxbuf ++ arrivals w ++ [x]) e = some r → s.inbox = events (w ++ [Event.rxByte x]) ++ left →
    exec .recv s = .next { s with
      bte := { s.bte with
        toCnt  := some (n - tickCount w)
        rxbuf  := []
        result := some r
        st     := .completed }
      inbox := left
      ret   := some (.bytes (s.bte.rxbuf ++ arrivals w ++ [x])) }

/-- RECV whose window closes first (R123, R131, R148): an empty or short return is a normal value, classified as `Timeout` or
`ShortFrame`. -/
def Obligations.RecvReturnsWhatItHasAtTheTimeout : Prop :=
  ∀ (s : State) (n e : Nat) (w : List Event) (left : List Input),
    legalCfg s.cfg = true → s.bte.st = .receiving → s.bte.expLen = some e → 6 ≤ e → s.bte.toCnt = some n → lineOnly w →
    tickCount w + 1 = n → s.bte.rxbuf.length + (arrivals w).length < e → s.inbox = events (w ++ [Event.tick]) ++ left →
    exec .recv s = .next { s with
      bte := { s.bte with
        toCnt  := some 1
        rxbuf  := []
        result := some (.failure (lateReason (s.bte.rxbuf ++ arrivals w)))
        st     := .completed }
      inbox := left
      ret   := some (.bytes (s.bte.rxbuf ++ arrivals w)) }

/-- The phases occur in one order only (R124): asked for in any other place, each is refused and nothing changes. That the
refusal is the answer is log entry 13. -/
def Obligations.PhasesOutOfOrderAreRefused : Prop :=
  ∀ s : State,
    (dueFrame s.bte = none → exec .send s = .refused .phaseOrder) ∧
    (s.bte.st ≠ .awaitingTurnaround → exec .turn s = .refused .phaseOrder) ∧
    (s.bte.st ≠ .receiving → exec .recv s = .refused .phaseOrder) ∧
    (dueFrame s.bte = none ↔
      (s.bte.st = .sending ∧ s.bte.txbuf = none) ∨ s.bte.st = .awaitingTurnaround ∨ s.bte.st = .receiving ∨
      s.bte.st = .completed ∨ (s.bte.st = .idle ∧ ∀ c q rest, s.bte.queue = (c, q) :: rest → validate q = false))

/-! ### The frames on the line -/

/-- READ, the frame due for the request at the head of the queue (R61, R94, R120): BTE sends it; the same frame while it is
being sent is SEND. That a frame due is sent by BTE is log entry 5. -/
def Obligations.ReadFrameDueIsSent : Prop :=
  (∀ (s : State) (c t a n : Nat) (rest : List (Nat × Request)) (w : List Event) (left : List Input),
    legalCfg s.cfg = true → s.bte.st = .idle → s.bte.queue = (c, .rd t a n) :: rest → t ≤ 253 → a ≤ 255 → n ≤ 255 →
    lineOnly w → tickCount w = 8 * s.cfg.tByte → s.inbox = events (w ++ [Event.tick]) ++ left →
    exec (.read (BitVec.ofNat 8 t) (BitVec.ofNat 8 a) (BitVec.ofNat 8 n)
      (chk [BitVec.ofNat 8 t, 0x04, 0x02, BitVec.ofNat 8 a, BitVec.ofNat 8 n])) s =
      .next (drainedState s c (.rd t a n) rest left)) ∧
  (∀ (s : State) (t a n k : Byte), dueFrame s.bte = some [0xFF, 0xFF, t, 0x04, 0x02, a, n, k] →
    exec (.read t a n k) s = exec .send s)

/-- WRITE, the frame due for the request at the head of the queue (R62, R95, R120), the broadcast target among them. That a
frame due is sent by BTE is log entry 5. -/
def Obligations.WriteFrameDueIsSent : Prop :=
  (∀ (s : State) (c t a : Nat) (d : List Byte) (rest : List (Nat × Request)) (w : List Event) (left : List Input),
    legalCfg s.cfg = true → s.bte.st = .idle → s.bte.queue = (c, .wr t a d) :: rest → t ≤ 254 → a ≤ 255 →
    d.length ≤ 252 → lineOnly w → tickCount w = (7 + d.length) * s.cfg.tByte → s.inbox = events (w ++ [Event.tick]) ++ left →
    exec (.write (BitVec.ofNat 8 t) (BitVec.ofNat 8 (3 + d.length)) (BitVec.ofNat 8 a) d
      (chk ([BitVec.ofNat 8 t, BitVec.ofNat 8 (3 + d.length), 0x03, BitVec.ofNat 8 a] ++ d))) s =
      .next (drainedState s c (.wr t a d) rest left)) ∧
  (∀ (s : State) (t l a k : Byte) (d : List Byte), dueFrame s.bte = some ([0xFF, 0xFF, t, l, 0x03, a] ++ d ++ [k]) →
    exec (.write t l a d k) s = exec .send s)

/-- Any other frame on the line outside a receive (R125, R126, R153): discarded while `dir = TX`; stale input, up to `RX_CAP`,
while `dir = RX`. That the bytes follow one another with nothing between is log entry 5. -/
def Obligations.FramesHeardOutsideAReceive : Prop :=
  ∀ (s : State) (i : Instr) (f : List Byte), legalCfg s.cfg = true → heardFrame s.bte i = some f → s.bte.st ≠ .receiving →
    (s.bte.dir = .tx → exec i s = .next { s with ret := some .unit }) ∧
    (s.bte.dir = .rx → s.bte.rxbuf.length ≤ s.cfg.rxCap →
      exec i s = .next { s with
        bte := { s.bte with rxbuf := (s.bte.rxbuf ++ f).take s.cfg.rxCap }
        ret := some .unit })

/-- A frame on the line during a receive (R149, R252): its bytes are collected; those that satisfy the count complete the
transaction, and the rest is stale input. -/
def Obligations.FramesHeardDuringAReceive : Prop :=
  ∀ (s : State) (i : Instr) (f : List Byte) (e : Nat), legalCfg s.cfg = true → heardFrame s.bte i = some f →
    s.bte.st = .receiving → s.bte.dir = .rx → s.bte.expLen = some e → 6 ≤ e → s.bte.rxbuf.length < e →
    (s.bte.rxbuf.length + f.length < e →
      exec i s = .next { s with bte := { s.bte with rxbuf := s.bte.rxbuf ++ f }, ret := some .unit }) ∧
    (∀ r, e ≤ s.bte.rxbuf.length + f.length → decodeStatus ((s.bte.rxbuf ++ f).take e) e = some r →
      exec i s = .next { s with
        bte := { s.bte with
          rxbuf  := ((s.bte.rxbuf ++ f).drop e).take s.cfg.rxCap
          result := some r
          st     := .completed }
        ret := some .unit })

/-- STATUS in answer to the request in progress (R63, R97, R98, R149): a status frame of the expected length completes the
transaction whatever its ID, LEN and ERR bytes, with its data and error code when the checksum is right. That STATUS does so in one
operation, its bytes following one another with nothing between, is the model's choice (log entry 5). -/
def Obligations.StatusFrameAnswersTheRequest : Prop :=
  ∀ (s : State) (id l err k : Byte) (p : List Byte), legalCfg s.cfg = true → s.bte.st = .receiving → s.bte.rxbuf = [] →
    s.bte.expLen = some (6 + p.length) →
    exec (.status id l err p k) s = .next { s with
      bte := { s.bte with
        rxbuf  := []
        result := some (if k = chk ([id, l, err] ++ p) then .success p err else .failure .checksumMismatch)
        st     := .completed }
      ret := some .unit }

/-! ### Transactions -/

/-- RD (R155), served at once: `w` is what happens up to the last tick of the turnaround delay, `v` what happens in the receive
window. All thirteen fields, the frame on the line,
  the result; a success has `n` data bytes. Answered within the window; not answered in
time; or a request that cannot be encoded. -/
def Obligations.RdTransaction : Prop :=
  ∀ (s : State) (c t a n : Nat), ReadyFor c s →
    (t ≤ 253 ∧ a ≤ 255 ∧ n ≤ 255 → ∀ (w v : List Event) (left : List Input), lineOnly w → lineOnly v →
      tickCount w = 8 * s.cfg.tByte + s.cfg.tTurn →
      (∀ (x : Byte) (r : Result), tickCount v < s.cfg.tTimeout → (arrivals v).length + 1 = 6 + n →
        decodeStatus (arrivals v ++ [x]) (6 + n) = some r →
        s.inbox = events (w ++ Event.tick :: v ++ [Event.rxByte x, .tick]) ++ left →
        (∀ d err, r = .success d err → d.length = n) ∧
        exec (.rd c t a n) s = .next (endedState s c (.rd t a n) .rx (some (s.cfg.tTimeout - tickCount v)) r left)) ∧
      (tickCount v + 1 = s.cfg.tTimeout → (arrivals v).length < 6 + n →
        s.inbox = events (w ++ Event.tick :: v ++ [Event.tick, .tick]) ++ left →
        exec (.rd c t a n) s = .next (endedState s c (.rd t a n) .rx (some 1) (.failure (lateReason (arrivals v))) left))) ∧
    (¬(t ≤ 253 ∧ a ≤ 255 ∧ n ≤ 255) → ∀ left : List Input, s.inbox = events [Event.tick, .tick] ++ left →
      exec (.rd c t a n) s = .next (refusedState s c (.rd t a n) left))

/-- WR to an addressed target (R156), served at once, as RD; with the broadcast target the row is WR.BCAST. -/
def Obligations.WrTransaction : Prop :=
  ∀ (s : State) (c t a : Nat) (d : List Byte), ReadyFor c s →
    (t ≤ 253 ∧ a ≤ 255 ∧ d.length ≤ 252 → ∀ (w v : List Event) (left : List Input), lineOnly w → lineOnly v →
      tickCount w = (7 + d.length) * s.cfg.tByte + s.cfg.tTurn →
      (∀ (x : Byte) (r : Result), tickCount v < s.cfg.tTimeout → (arrivals v).length + 1 = 6 →
        decodeStatus (arrivals v ++ [x]) 6 = some r →
        s.inbox = events (w ++ Event.tick :: v ++ [Event.rxByte x, .tick]) ++ left →
        (∀ d' err, r = .success d' err → d' = []) ∧
        exec (.wr c t a d) s = .next (endedState s c (.wr t a d) .rx (some (s.cfg.tTimeout - tickCount v)) r left)) ∧
      (tickCount v + 1 = s.cfg.tTimeout → (arrivals v).length < 6 →
        s.inbox = events (w ++ Event.tick :: v ++ [Event.tick, .tick]) ++ left →
        exec (.wr c t a d) s = .next (endedState s c (.wr t a d) .rx (some 1) (.failure (lateReason (arrivals v))) left))) ∧
    (t ≠ 254 → ¬(t ≤ 253 ∧ a ≤ 255 ∧ d.length ≤ 252) → ∀ left : List Input, s.inbox = events [Event.tick, .tick] ++ left →
      exec (.wr c t a d) s = .next (refusedState s c (.wr t a d) left)) ∧
    (t = 254 → exec (.wr c t a d) s = exec (.wrBcast c a d) s)

/-- WR.BCAST (R150, R157), served at once, under every `T_TIMEOUT`: after `L * T_BYTE + T_TURN` ticks from the start tick it has
completed with the placeholder success; nothing the line sends is heard; `dir` stays `TX`. -/
def Obligations.WrBcastTransaction : Prop :=
  ∀ (s : State) (c a : Nat) (d : List Byte), ReadyFor c s →
    (a ≤ 255 ∧ d.length ≤ 252 → ∀ (w : List Event) (left : List Input), lineOnly w →
      tickCount w = (7 + d.length) * s.cfg.tByte + s.cfg.tTurn → s.inbox = events (w ++ [Event.tick, .tick]) ++ left →
      exec (.wrBcast c a d) s = .next (endedState s c (.wr 254 a d) .tx s.bte.toCnt (.success [] 0) left)) ∧
    (¬(a ≤ 255 ∧ d.length ≤ 252) → ∀ left : List Input, s.inbox = events [Event.tick, .tick] ++ left →
      exec (.wrBcast c a d) s = .next (refusedState s c (.wr 254 a d) left))

/-- EXEC (R165), served at once, on any request: its result is the rule's function of the request and of the bytes the receive
returned. -/
def Obligations.ExecTransaction : Prop :=
  ∀ (s : State) (c : Nat) (q : Request), ReadyFor c s →
    (validate q = true → ∀ (w v : List Event) (left : List Input), lineOnly w → lineOnly v →
      tickCount w + 1 = ticksToWindow s.cfg q →
      (expectedLen q = 0 → s.inbox = events (w ++ [Event.tick, .tick]) ++ left →
        (∀ raw, execResult q raw = some (.success [] 0)) ∧
        exec (.exec c q) s = .next (endedState s c q .tx s.bte.toCnt (.success [] 0) left)) ∧
      (∀ (x : Byte) (r : Result), expectedLen q ≠ 0 → tickCount v < s.cfg.tTimeout →
        (arrivals v).length + 1 = expectedLen q → execResult q (arrivals v ++ [x]) = some r →
        s.inbox = events (w ++ Event.tick :: v ++ [Event.rxByte x, .tick]) ++ left →
        exec (.exec c q) s = .next (endedState s c q .rx (some (s.cfg.tTimeout - tickCount v)) r left)) ∧
      (∀ r : Result, expectedLen q ≠ 0 → tickCount v + 1 = s.cfg.tTimeout → (arrivals v).length < expectedLen q →
        execResult q (arrivals v) = some r → s.inbox = events (w ++ Event.tick :: v ++ [Event.tick, .tick]) ++ left →
        exec (.exec c q) s = .next (endedState s c q .rx (some 1) r left))) ∧
    (validate q = false → ∀ left : List Input, s.inbox = events [Event.tick, .tick] ++ left →
      (∀ raw, execResult q raw = some (.failure .constructionError)) ∧
      exec (.exec c q) s = .next (refusedState s c q left))

/-- ConstructionError (R201): a request that cannot be encoded, submitted by any of the four calls to an idle block, takes two
ticks, and `dir`, `rxbuf` and `txbuf` are untouched and no `TxByte` is emitted. -/
def Obligations.ConstructionErrorSendsNothing : Prop :=
  ∀ (i : Instr) (s : State) (c : Nat) (q : Request) (left : List Input), requestOf i = some (c, q) → ReadyFor c s →
    validate q = false → s.inbox = events [Event.tick, .tick] ++ left →
    ∃ t, exec i s = .next t ∧ t.ret = some (.result (.failure .constructionError)) ∧
      t.bte.result = some (.failure .constructionError) ∧ t.bte.dir = s.bte.dir ∧ t.bte.rxbuf = s.bte.rxbuf ∧
      t.bte.txbuf = s.bte.txbuf ∧ lineBytes t.out = lineBytes s.out ∧ t.inbox = left

/-- Back-pressure (R142, R259): a call whose `Submit` finds the queue full is over at once, rejected, and leaves no trace. The
return value is the model's own (log entry 4). -/
def Obligations.FullQueueTurnsACallAway : Prop :=
  ∀ (i : Instr) (s : State) (c : Nat) (q : Request), requestOf i = some (c, q) → legalCfg s.cfg = true →
    c < s.cfg.nClients → ¬ s.bte.queue.length < s.cfg.qDepth →
    exec i s = .next { s with out := s.out ++ [Output.rejected c], ret := some .rejected }

/-- Progress (R141, R163, R165, R262): from every good state with room in the queue, whatever is queued, under way or arriving, a
call of any of the four kinds is accepted and answered, provided no `Reset` intervenes (the premise R241 asks for): its `Done`
goes to its client and carries the rule's result for some bytes received. Ticks that the inputs do not hold happen
by themselves (log entry 2). -/
def Obligations.EveryAcceptedCallIsAnswered : Prop :=
  ∀ (i : Instr) (s : State) (c : Nat) (q : Request), requestOf i = some (c, q) → Inv s → c < s.cfg.nClients →
    s.bte.queue.length < s.cfg.qDepth → NoReset s.cfg s.inbox →
    ∃ (t : State) (r : Result) (o : List Output) (raw : List Byte), exec i s = .next t ∧ Inv t ∧
      t.out = s.out ++ Output.accepted c :: o ++ [Output.done c r] ∧ t.ret = some (.result r) ∧ execResult q raw = some r ∧
      t.bte.st = .idle ∧ t.bte.curClient = some c ∧ t.bte.curReq = some q

/-- A `Reset` in the middle of a call (R154, R241): no `Done`, every field back at reset, and the frame cut after the last byte for
which `TxByte` was emitted. The return value is the model's own (log entry 4). -/
def Obligations.ResetAbandonsACallUnderWay : Prop :=
  ∀ (i : Instr) (s : State) (c : Nat) (q : Request) (w : List Event) (left : List Input), requestOf i = some (c, q) →
    ReadyFor c s → validate q = true → lineOnly w → tickCount w < ticksToWindow s.cfg q →
    s.inbox = events (w ++ [Event.reset]) ++ left →
    exec i s = .next { s with
      bte   := Bte.reset
      inbox := left
      out   := s.out ++ Output.accepted c :: ((encodeRequest q).take ((tickCount w - 1) / s.cfg.tByte)).map Output.txByte
      ret   := some .abandoned }

/-! ### The host's side -/

/-- The result port (R67): the status codes, the error code and data of a success, nothing but the reason of a failure. -/
def Obligations.ResultPortCarriesTheResult : Prop :=
  (∀ (c : Nat) (d : List Byte) (err : Byte), d.length ≤ 255 →
    (resultPort c (.success d err)).status = 0 ∧ (resultPort c (.success d err)).err = err ∧
    (resultPort c (.success d err)).dataLen.toNat = d.length ∧ (resultPort c (.success d err)).data = d ∧
    (resultPort c (.success d err)).client = c) ∧
  (∀ (c : Nat) (x : Reason), (resultPort c (.failure x)).err = 0 ∧ (resultPort c (.failure x)).dataLen = 0 ∧
    (resultPort c (.failure x)).data = [] ∧ (resultPort c (.failure x)).client = c ∧
    (resultPort c (.failure x)).status =
      match x with
      | .constructionError => 1
      | .timeout => 2
      | .shortFrame => 3
      | .badHeader => 4
      | .checksumMismatch => 5) ∧
  (∀ s : State, Inv s → ∀ d err, s.bte.result = some (.success d err) → d.length ≤ 255)

/-- The classification of outcomes (R164, R206): exactly one class each, and a DeviceError is a success with a code that is not 0. -/
def Obligations.OutcomesAreClassified : Prop :=
  (∀ (d : List Byte) (err : Byte), (isDeviceError (.success d err) = true ↔ err ≠ 0) ∧
    classify (.success d err) = if err = 0 then .cleanSuccess else .deviceError err) ∧
  (∀ x : Reason, isDeviceError (.failure x) = false ∧
    classify (.failure x) = if x = .constructionError then .rejectedRequest else .transportFailure) ∧
  (∀ (t a n : Nat) (c : Nat) (s : State), readRegister c t a n s = exec (.exec c (.rd t a n)) s) ∧
  (∀ (t a c : Nat) (d : List Byte) (s : State), writeRegister c t a d s = exec (.exec c (.wr t a d)) s) ∧
  (∀ (d : List Byte) (err : Byte), writeAnswer 254 (.success d err) = .noErrorCode)

/-- A two-byte register value is little-endian (R43, R183): bytes and raw value determine each other. -/
def Obligations.RawBytesRoundTrip : Prop :=
  (∀ raw : Nat, raw < 65536 → rawValue (rawBytes raw) = some raw) ∧
  (∀ x y : Byte, rawValue [x] = some x.toNat ∧ rawValue [x, y] = some (x.toNat + 256 * y.toNat) ∧
    rawBytes (x.toNat + 256 * y.toNat) = [x, y])

/-- The registry (R180 to R184): a lookup answers the table's entry of that name, one of the two the source
identifies; what a register is read and written with; the physical value of a position read. That "goal position" is converted as
a position and that another name has no entry are the model's (log entry 16), and so are the bytes written for a
raw value outside the width and its physical value (log entry 21). -/
def Obligations.RegistryDescribesItsRegisters : Prop :=
  (∀ name : String, describeRegister name =
    if name = "position" then some { name := "position", address := 36, width := .two, quantity := .position }
    else if name = "goal position" then
      some { name := "goal position", address := 30, width := .two, quantity := .position }
    else none) ∧
  (∀ (d : RegisterDescriptor) (t raw : Nat), t ≤ 253 →
    validate (readRequestOf d t) = true ∧ expectedLen (readRequestOf d t) = 6 + widthBytes d.width ∧
    validate (writeRequestOf d t raw) = true) ∧
  (∀ (d : RegisterDescriptor) (raw : Nat), raw < 256 ^ widthBytes d.width → rawOf d (dataOf d raw) = some raw) ∧
  (∀ (d : RegisterDescriptor) (x y : Byte),
    (d.width = .one → physicalOf d [x] = some (toPhysical d x.toNat) ∧ physicalOf d [x, y] = none) ∧
    (d.width = .two → physicalOf d [x] = none ∧
      physicalOf d [x, y] = some (toPhysical d (x.toNat + 256 * y.toNat)))) ∧
  (∀ (d : RegisterDescriptor) (raw : Nat), describeRegister "position" = some d →
    toPhysical d raw = .degrees (raw * 300 / 1023))

end Statements
end

