-- ==== Sys2Proof/Laws/Codec.lean ====
section
/-! SUPPORT. What the codec's functions do: the checksum as a number, the lengths and elements of the frames, the arms of the
status decoder. -/

namespace Sys2Proof.Machine

@[simp] theorem byteSum_nil : byteSum [] = 0 := rfl
@[simp] theorem byteSum_cons (x : Byte) (xs : List Byte) : byteSum (x :: xs) = x.toNat + byteSum xs := rfl

@[simp] theorem byteSum_append (xs ys : List Byte) : byteSum (xs ++ ys) = byteSum xs + byteSum ys := by
  induction xs with
  | nil => simp
  | cons x xs ih => simp [ih, Nat.add_assoc]

/-- R90 in its second form: `255 - (sum(bs) mod 256)`. -/
theorem chk_toNat (bs : List Byte) : (chk bs).toNat = 255 - byteSum bs % 256 := by
  simp only [chk, BitVec.toNat_not, BitVec.toNat_ofNat]

/-- The checksum is decided by the sum modulo 256 and decides it. -/
theorem chk_eq_iff (xs ys : List Byte) : chk xs = chk ys ↔ byteSum xs % 256 = byteSum ys % 256 := by
  rw [← BitVec.toNat_inj, chk_toNat, chk_toNat]; omega

@[simp] theorem encRead_length (t a n : Nat) : (encRead t a n).length = 8 := rfl

@[simp] theorem encWrite_length (t a : Nat) (d : List Byte) : (encWrite t a d).length = 7 + d.length := by
  simp [encWrite, writeBody]; omega

@[simp] theorem encodeRequest_rd (t a n : Nat) : encodeRequest (.rd t a n) = encRead t a n := rfl
@[simp] theorem encodeRequest_wr (t a : Nat) (d : List Byte) : encodeRequest (.wr t a d) = encWrite t a d := rfl

@[simp] theorem validate_rd (t a n : Nat) : validate (.rd t a n) = true ↔ t ≤ 253 ∧ a ≤ 255 ∧ n ≤ 255 := by
  simp only [validate, Bool.and_eq_true, decide_eq_true_eq, and_assoc]; exact Iff.rfl

@[simp] theorem validate_wr (t a : Nat) (d : List Byte) :
    validate (.wr t a d) = true ↔ t ≤ 254 ∧ a ≤ 255 ∧ d.length ≤ 252 := by
  simp only [validate, Bool.and_eq_true, decide_eq_true_eq, and_assoc]; exact Iff.rfl

/-- The sizes of R6. -/
theorem encodeRequest_length_bounds (q : Request) (h : validate q = true) :
    7 ≤ (encodeRequest q).length ∧ (encodeRequest q).length ≤ 259 := by
  cases q with
  | rd t a n => simp
  | wr t a d => rw [validate_wr] at h; simp; omega

theorem encodeRequest_length_pos (q : Request) : 0 < (encodeRequest q).length := by
  cases q <;> simp

/-- R147 for a request that passed `Validate`: 0, or 6 to 261. -/
theorem expectedLen_range (q : Request) (h : validate q = true) :
    expectedLen q = 0 ∨ (6 ≤ expectedLen q ∧ expectedLen q ≤ 261) := by
  cases q with
  | rd t a n => rw [validate_rd] at h; simp [expectedLen, statusMin]; omega
  | wr t a d => simp only [expectedLen, statusMin]; split <;> simp

/-- An addressed write expects a status frame with no data (R147). -/
theorem expectedLen_addressed (t a : Nat) (d : List Byte) (h : t ≠ 254) : expectedLen (.wr t a d) = 6 := if_neg h

/-- Only a broadcast write expects nothing (R147). -/
theorem expectedLen_zero (q : Request) (h : expectedLen q = 0) : ∃ a d, q = .wr 254 a d := by
  cases q with
  | rd t a n => simp [expectedLen, statusMin] at h
  | wr t a d =>
    simp only [expectedLen, statusMin] at h
    split at h
    · rename_i ht; exact ⟨a, d, by rw [ht]; rfl⟩
    · simp at h

/-- In its domain the decoder always answers (R97, R99). -/
theorem decodeStatus_isSome (raw : List Byte) (e : Nat) (h : 6 ≤ e) : ∃ r, decodeStatus raw e = some r := by
  unfold decodeStatus
  rw [if_neg (by simp [statusMin]; omega)]
  split
  · exact ⟨_, rfl⟩
  · split
    · exact ⟨_, rfl⟩
    · rename_i hne hlen
      split
      · exact ⟨_, rfl⟩
      · split
        · exact ⟨_, rfl⟩
        · have h4 : 4 < raw.length := by omega
          exact ⟨_, by rw [List.getElem?_eq_getElem h4]; rfl⟩

theorem decodeStatus_domain (raw : List Byte) (e : Nat) (h : e < 6) : decodeStatus raw e = none := by
  simp [decodeStatus, statusMin, h]

theorem decodeStatus_empty (e : Nat) (h : 6 ≤ e) : decodeStatus [] e = some (.failure .timeout) := by
  simp [decodeStatus, statusMin]; omega

theorem decodeStatus_short (raw : List Byte) (e : Nat) (h : 6 ≤ e) (h0 : raw ≠ []) (hl : raw.length ≠ e) :
    decodeStatus raw e = some (.failure .shortFrame) := by
  have : ¬ e < 6 := by omega
  simp [decodeStatus, statusMin, this, h0, hl]

theorem slice_length_le (f : List Byte) (a b : Nat) : (slice f a b).length ≤ b - a := by
  simp [slice]; omega

/-- A successful status has at most `e - 6` data bytes. -/
theorem decodeStatus_data_length (raw : List Byte) (e : Nat) (d : List Byte) (err : Byte)
    (h : decodeStatus raw e = some (.success d err)) : d.length ≤ e - 6 := by
  unfold decodeStatus at h
  repeat' split at h
  all_goals try (simp at h; done)
  simp only [Option.map_eq_some_iff] at h
  obtain ⟨x, -, hx⟩ := h
  injection hx with h1 h2
  rw [← h1]
  have := slice_length_le raw 5 (e - 1)
  omega

/-- A successful status has exactly `e - 6` data bytes, for an expected length in the domain (R97). -/
theorem decodeStatus_data_length_eq (raw : List Byte) (e : Nat) (d : List Byte) (err : Byte)
    (h : decodeStatus raw e = some (.success d err)) : 6 ≤ e ∧ d.length = e - 6 := by
  unfold decodeStatus at h
  repeat' split at h
  all_goals try (simp at h; done)
  rename_i h6 _ hl _ _
  simp only [Option.map_eq_some_iff] at h
  obtain ⟨x, -, hx⟩ := h
  injection hx with h1 h2
  simp only [statusMin] at h6
  refine ⟨by omega, ?_⟩
  rw [← h1]
  simp only [slice, List.length_drop, List.length_take]
  omega

/-- The bytes of a status frame, at the positions the decoder looks at. -/
theorem decodeStatus_frame (h0 h1 id l err : Byte) (p : List Byte) (k : Byte) :
    decodeStatus ([h0, h1, id, l, err] ++ p ++ [k]) (6 + p.length) =
      some (if h0 ≠ hdr ∨ h1 ≠ hdr then .failure .badHeader
        else if k ≠ chk ([id, l, err] ++ p) then .failure .checksumMismatch
        else .success p err) := by
  have hlen : ([h0, h1, id, l, err] ++ p ++ [k]).length = 6 + p.length := by simp; omega
  have hlast : ([h0, h1, id, l, err] ++ p ++ [k])[6 + p.length - 1]? = some k := by
    rw [List.getElem?_append_right (by simp; omega)]
    have : 6 + p.length - 1 - ([h0, h1, id, l, err] ++ p).length = 0 := by simp; omega
    rw [this]; rfl
  have htake : ([h0, h1, id, l, err] ++ p ++ [k]).take (6 + p.length - 1) = [h0, h1, id, l, err] ++ p := by
    rw [List.take_append_of_le_length (by simp; omega)]
    exact List.take_of_length_le (by simp; omega)
  have hbody : slice ([h0, h1, id, l, err] ++ p ++ [k]) 2 (6 + p.length - 1) = [id, l, err] ++ p := by
    rw [slice, htake]; rfl
  have hdata : slice ([h0, h1, id, l, err] ++ p ++ [k]) 5 (6 + p.length - 1) = p := by
    rw [slice, htake]; rfl
  unfold decodeStatus
  rw [if_neg (by simp [statusMin]), if_neg (by simp), if_neg (by rw [hlen]; simp), hlast, hbody, hdata]
  simp only [List.cons_append, List.getElem?_cons_zero, List.getElem?_cons_succ, Option.some.injEq, ne_eq]
  by_cases hh : ¬h0 = hdr ∨ ¬h1 = hdr
  · simp [hh]
  · rw [if_neg hh, if_neg hh]
    by_cases hk : k = chk ([id, l, err] ++ p)
    · rw [if_neg (by simpa using hk), if_neg (by simpa using hk)]; rfl
    · rw [if_pos (by simpa using hk), if_pos (by simpa using hk)]

end Sys2Proof.Machine
end

