-- ==== Sys2Proof/Laws/State.lean ====
section
/-! SUPPORT. The fields of a state after each shared operation, one lemma a field, all by `rfl`. -/

namespace Sys2Proof.Machine

@[simp] theorem complete_st (r : Result) (b : Bte) : (complete r b).st = .completed := rfl
@[simp] theorem complete_dir (r : Result) (b : Bte) : (complete r b).dir = b.dir := rfl
@[simp] theorem complete_queue (r : Result) (b : Bte) : (complete r b).queue = b.queue := rfl
@[simp] theorem complete_curClient (r : Result) (b : Bte) : (complete r b).curClient = b.curClient := rfl
@[simp] theorem complete_curReq (r : Result) (b : Bte) : (complete r b).curReq = b.curReq := rfl
@[simp] theorem complete_txbuf (r : Result) (b : Bte) : (complete r b).txbuf = b.txbuf := rfl
@[simp] theorem complete_txIdx (r : Result) (b : Bte) : (complete r b).txIdx = b.txIdx := rfl
@[simp] theorem complete_byteCnt (r : Result) (b : Bte) : (complete r b).byteCnt = b.byteCnt := rfl
@[simp] theorem complete_turnCnt (r : Result) (b : Bte) : (complete r b).turnCnt = b.turnCnt := rfl
@[simp] theorem complete_toCnt (r : Result) (b : Bte) : (complete r b).toCnt = b.toCnt := rfl
@[simp] theorem complete_expLen (r : Result) (b : Bte) : (complete r b).expLen = b.expLen := rfl
@[simp] theorem complete_rxbuf (r : Result) (b : Bte) : (complete r b).rxbuf = b.rxbuf := rfl
@[simp] theorem complete_result (r : Result) (b : Bte) : (complete r b).result = some r := rfl

@[simp] theorem raiseFailure_st (r : Reason) (b : Bte) : (raiseFailure r b).st = .completed := rfl
@[simp] theorem raiseFailure_dir (r : Reason) (b : Bte) : (raiseFailure r b).dir = b.dir := rfl
@[simp] theorem raiseFailure_queue (r : Reason) (b : Bte) : (raiseFailure r b).queue = b.queue := rfl
@[simp] theorem raiseFailure_curClient (r : Reason) (b : Bte) : (raiseFailure r b).curClient = b.curClient := rfl
@[simp] theorem raiseFailure_curReq (r : Reason) (b : Bte) : (raiseFailure r b).curReq = b.curReq := rfl
@[simp] theorem raiseFailure_txbuf (r : Reason) (b : Bte) : (raiseFailure r b).txbuf = b.txbuf := rfl
@[simp] theorem raiseFailure_txIdx (r : Reason) (b : Bte) : (raiseFailure r b).txIdx = b.txIdx := rfl
@[simp] theorem raiseFailure_byteCnt (r : Reason) (b : Bte) : (raiseFailure r b).byteCnt = b.byteCnt := rfl
@[simp] theorem raiseFailure_turnCnt (r : Reason) (b : Bte) : (raiseFailure r b).turnCnt = b.turnCnt := rfl
@[simp] theorem raiseFailure_toCnt (r : Reason) (b : Bte) : (raiseFailure r b).toCnt = b.toCnt := rfl
@[simp] theorem raiseFailure_expLen (r : Reason) (b : Bte) : (raiseFailure r b).expLen = b.expLen := rfl
@[simp] theorem raiseFailure_rxbuf (r : Reason) (b : Bte) : (raiseFailure r b).rxbuf = b.rxbuf := rfl
@[simp] theorem raiseFailure_result (r : Reason) (b : Bte) : (raiseFailure r b).result = some (.failure r) := rfl

@[simp] theorem releaseLock_st (b : Bte) : (releaseLock b).st = .idle := rfl
@[simp] theorem releaseLock_dir (b : Bte) : (releaseLock b).dir = b.dir := rfl
@[simp] theorem releaseLock_queue (b : Bte) : (releaseLock b).queue = b.queue := rfl
@[simp] theorem releaseLock_curClient (b : Bte) : (releaseLock b).curClient = b.curClient := rfl
@[simp] theorem releaseLock_curReq (b : Bte) : (releaseLock b).curReq = b.curReq := rfl
@[simp] theorem releaseLock_txbuf (b : Bte) : (releaseLock b).txbuf = b.txbuf := rfl
@[simp] theorem releaseLock_txIdx (b : Bte) : (releaseLock b).txIdx = b.txIdx := rfl
@[simp] theorem releaseLock_byteCnt (b : Bte) : (releaseLock b).byteCnt = b.byteCnt := rfl
@[simp] theorem releaseLock_turnCnt (b : Bte) : (releaseLock b).turnCnt = b.turnCnt := rfl
@[simp] theorem releaseLock_toCnt (b : Bte) : (releaseLock b).toCnt = b.toCnt := rfl
@[simp] theorem releaseLock_expLen (b : Bte) : (releaseLock b).expLen = b.expLen := rfl
@[simp] theorem releaseLock_rxbuf (b : Bte) : (releaseLock b).rxbuf = b.rxbuf := rfl
@[simp] theorem releaseLock_result (b : Bte) : (releaseLock b).result = b.result := rfl

@[simp] theorem acquireLock_st (c : Nat) (q : Request) (l : List (Nat × Request)) (b : Bte) : (acquireLock c q l b).st = b.st := rfl
@[simp] theorem acquireLock_dir (c : Nat) (q : Request) (l : List (Nat × Request)) (b : Bte) : (acquireLock c q l b).dir = b.dir := rfl
@[simp] theorem acquireLock_queue (c : Nat) (q : Request) (l : List (Nat × Request)) (b : Bte) : (acquireLock c q l b).queue = l := rfl
@[simp] theorem acquireLock_curClient (c : Nat) (q : Request) (l : List (Nat × Request)) (b : Bte) : (acquireLock c q l b).curClient = some c := rfl
@[simp] theorem acquireLock_curReq (c : Nat) (q : Request) (l : List (Nat × Request)) (b : Bte) : (acquireLock c q l b).curReq = some q := rfl
@[simp] theorem acquireLock_txbuf (c : Nat) (q : Request) (l : List (Nat × Request)) (b : Bte) : (acquireLock c q l b).txbuf = b.txbuf := rfl
@[simp] theorem acquireLock_txIdx (c : Nat) (q : Request) (l : List (Nat × Request)) (b : Bte) : (acquireLock c q l b).txIdx = b.txIdx := rfl
@[simp] theorem acquireLock_byteCnt (c : Nat) (q : Request) (l : List (Nat × Request)) (b : Bte) : (acquireLock c q l b).byteCnt = b.byteCnt := rfl
@[simp] theorem acquireLock_turnCnt (c : Nat) (q : Request) (l : List (Nat × Request)) (b : Bte) : (acquireLock c q l b).turnCnt = b.turnCnt := rfl
@[simp] theorem acquireLock_toCnt (c : Nat) (q : Request) (l : List (Nat × Request)) (b : Bte) : (acquireLock c q l b).toCnt = b.toCnt := rfl
@[simp] theorem acquireLock_expLen (c : Nat) (q : Request) (l : List (Nat × Request)) (b : Bte) : (acquireLock c q l b).expLen = b.expLen := rfl
@[simp] theorem acquireLock_rxbuf (c : Nat) (q : Request) (l : List (Nat × Request)) (b : Bte) : (acquireLock c q l b).rxbuf = b.rxbuf := rfl
@[simp] theorem acquireLock_result (c : Nat) (q : Request) (l : List (Nat × Request)) (b : Bte) : (acquireLock c q l b).result = b.result := rfl

@[simp] theorem beginSend_st (cfg : Cfg) (q : Request) (b : Bte) : (beginSend cfg q b).st = .sending := rfl
@[simp] theorem beginSend_dir (cfg : Cfg) (q : Request) (b : Bte) : (beginSend cfg q b).dir = .tx := rfl
@[simp] theorem beginSend_queue (cfg : Cfg) (q : Request) (b : Bte) : (beginSend cfg q b).queue = b.queue := rfl
@[simp] theorem beginSend_curClient (cfg : Cfg) (q : Request) (b : Bte) : (beginSend cfg q b).curClient = b.curClient := rfl
@[simp] theorem beginSend_curReq (cfg : Cfg) (q : Request) (b : Bte) : (beginSend cfg q b).curReq = b.curReq := rfl
@[simp] theorem beginSend_txbuf (cfg : Cfg) (q : Request) (b : Bte) : (beginSend cfg q b).txbuf = some (encodeRequest q) := rfl
@[simp] theorem beginSend_txIdx (cfg : Cfg) (q : Request) (b : Bte) : (beginSend cfg q b).txIdx = some 0 := rfl
@[simp] theorem beginSend_byteCnt (cfg : Cfg) (q : Request) (b : Bte) : (beginSend cfg q b).byteCnt = some cfg.tByte := rfl
@[simp] theorem beginSend_turnCnt (cfg : Cfg) (q : Request) (b : Bte) : (beginSend cfg q b).turnCnt = b.turnCnt := rfl
@[simp] theorem beginSend_toCnt (cfg : Cfg) (q : Request) (b : Bte) : (beginSend cfg q b).toCnt = b.toCnt := rfl
@[simp] theorem beginSend_expLen (cfg : Cfg) (q : Request) (b : Bte) : (beginSend cfg q b).expLen = some (expectedLen q) := rfl
@[simp] theorem beginSend_rxbuf (cfg : Cfg) (q : Request) (b : Bte) : (beginSend cfg q b).rxbuf = [] := rfl
@[simp] theorem beginSend_result (cfg : Cfg) (q : Request) (b : Bte) : (beginSend cfg q b).result = b.result := rfl

@[simp] theorem beginReceive_st (cfg : Cfg) (b : Bte) : (beginReceive cfg b).st = .receiving := rfl
@[simp] theorem beginReceive_dir (cfg : Cfg) (b : Bte) : (beginReceive cfg b).dir = .rx := rfl
@[simp] theorem beginReceive_queue (cfg : Cfg) (b : Bte) : (beginReceive cfg b).queue = b.queue := rfl
@[simp] theorem beginReceive_curClient (cfg : Cfg) (b : Bte) : (beginReceive cfg b).curClient = b.curClient := rfl
@[simp] theorem beginReceive_curReq (cfg : Cfg) (b : Bte) : (beginReceive cfg b).curReq = b.curReq := rfl
@[simp] theorem beginReceive_txbuf (cfg : Cfg) (b : Bte) : (beginReceive cfg b).txbuf = b.txbuf := rfl
@[simp] theorem beginReceive_txIdx (cfg : Cfg) (b : Bte) : (beginReceive cfg b).txIdx = b.txIdx := rfl
@[simp] theorem beginReceive_byteCnt (cfg : Cfg) (b : Bte) : (beginReceive cfg b).byteCnt = b.byteCnt := rfl
@[simp] theorem beginReceive_turnCnt (cfg : Cfg) (b : Bte) : (beginReceive cfg b).turnCnt = b.turnCnt := rfl
@[simp] theorem beginReceive_toCnt (cfg : Cfg) (b : Bte) : (beginReceive cfg b).toCnt = some cfg.tTimeout := rfl
@[simp] theorem beginReceive_expLen (cfg : Cfg) (b : Bte) : (beginReceive cfg b).expLen = b.expLen := rfl
@[simp] theorem beginReceive_rxbuf (cfg : Cfg) (b : Bte) : (beginReceive cfg b).rxbuf = b.rxbuf := rfl
@[simp] theorem beginReceive_result (cfg : Cfg) (b : Bte) : (beginReceive cfg b).result = b.result := rfl

@[simp] theorem capture_st (x : Byte) (b : Bte) : (capture x b).st = b.st := rfl
@[simp] theorem capture_dir (x : Byte) (b : Bte) : (capture x b).dir = b.dir := rfl
@[simp] theorem capture_queue (x : Byte) (b : Bte) : (capture x b).queue = b.queue := rfl
@[simp] theorem capture_curClient (x : Byte) (b : Bte) : (capture x b).curClient = b.curClient := rfl
@[simp] theorem capture_curReq (x : Byte) (b : Bte) : (capture x b).curReq = b.curReq := rfl
@[simp] theorem capture_txbuf (x : Byte) (b : Bte) : (capture x b).txbuf = b.txbuf := rfl
@[simp] theorem capture_txIdx (x : Byte) (b : Bte) : (capture x b).txIdx = b.txIdx := rfl
@[simp] theorem capture_byteCnt (x : Byte) (b : Bte) : (capture x b).byteCnt = b.byteCnt := rfl
@[simp] theorem capture_turnCnt (x : Byte) (b : Bte) : (capture x b).turnCnt = b.turnCnt := rfl
@[simp] theorem capture_toCnt (x : Byte) (b : Bte) : (capture x b).toCnt = b.toCnt := rfl
@[simp] theorem capture_expLen (x : Byte) (b : Bte) : (capture x b).expLen = b.expLen := rfl
@[simp] theorem capture_rxbuf (x : Byte) (b : Bte) : (capture x b).rxbuf = b.rxbuf ++ [x] := rfl
@[simp] theorem capture_result (x : Byte) (b : Bte) : (capture x b).result = b.result := rfl

@[simp] theorem consumeRx_st (b : Bte) : (consumeRx b).st = b.st := rfl
@[simp] theorem consumeRx_dir (b : Bte) : (consumeRx b).dir = b.dir := rfl
@[simp] theorem consumeRx_queue (b : Bte) : (consumeRx b).queue = b.queue := rfl
@[simp] theorem consumeRx_curClient (b : Bte) : (consumeRx b).curClient = b.curClient := rfl
@[simp] theorem consumeRx_curReq (b : Bte) : (consumeRx b).curReq = b.curReq := rfl
@[simp] theorem consumeRx_txbuf (b : Bte) : (consumeRx b).txbuf = b.txbuf := rfl
@[simp] theorem consumeRx_txIdx (b : Bte) : (consumeRx b).txIdx = b.txIdx := rfl
@[simp] theorem consumeRx_byteCnt (b : Bte) : (consumeRx b).byteCnt = b.byteCnt := rfl
@[simp] theorem consumeRx_turnCnt (b : Bte) : (consumeRx b).turnCnt = b.turnCnt := rfl
@[simp] theorem consumeRx_toCnt (b : Bte) : (consumeRx b).toCnt = b.toCnt := rfl
@[simp] theorem consumeRx_expLen (b : Bte) : (consumeRx b).expLen = b.expLen := rfl
@[simp] theorem consumeRx_rxbuf (b : Bte) : (consumeRx b).rxbuf = [] := rfl
@[simp] theorem consumeRx_result (b : Bte) : (consumeRx b).result = b.result := rfl

@[simp] theorem enqueue_st (c : Nat) (q : Request) (b : Bte) : (enqueue c q b).st = b.st := rfl
@[simp] theorem enqueue_dir (c : Nat) (q : Request) (b : Bte) : (enqueue c q b).dir = b.dir := rfl
@[simp] theorem enqueue_queue (c : Nat) (q : Request) (b : Bte) : (enqueue c q b).queue = b.queue ++ [(c, q)] := rfl
@[simp] theorem enqueue_curClient (c : Nat) (q : Request) (b : Bte) : (enqueue c q b).curClient = b.curClient := rfl
@[simp] theorem enqueue_curReq (c : Nat) (q : Request) (b : Bte) : (enqueue c q b).curReq = b.curReq := rfl
@[simp] theorem enqueue_txbuf (c : Nat) (q : Request) (b : Bte) : (enqueue c q b).txbuf = b.txbuf := rfl
@[simp] theorem enqueue_txIdx (c : Nat) (q : Request) (b : Bte) : (enqueue c q b).txIdx = b.txIdx := rfl
@[simp] theorem enqueue_byteCnt (c : Nat) (q : Request) (b : Bte) : (enqueue c q b).byteCnt = b.byteCnt := rfl
@[simp] theorem enqueue_turnCnt (c : Nat) (q : Request) (b : Bte) : (enqueue c q b).turnCnt = b.turnCnt := rfl
@[simp] theorem enqueue_toCnt (c : Nat) (q : Request) (b : Bte) : (enqueue c q b).toCnt = b.toCnt := rfl
@[simp] theorem enqueue_expLen (c : Nat) (q : Request) (b : Bte) : (enqueue c q b).expLen = b.expLen := rfl
@[simp] theorem enqueue_rxbuf (c : Nat) (q : Request) (b : Bte) : (enqueue c q b).rxbuf = b.rxbuf := rfl
@[simp] theorem enqueue_result (c : Nat) (q : Request) (b : Bte) : (enqueue c q b).result = b.result := rfl

@[simp] theorem setByteCnt_st (n : Nat) (b : Bte) : (setByteCnt n b).st = b.st := rfl
@[simp] theorem setByteCnt_dir (n : Nat) (b : Bte) : (setByteCnt n b).dir = b.dir := rfl
@[simp] theorem setByteCnt_queue (n : Nat) (b : Bte) : (setByteCnt n b).queue = b.queue := rfl
@[simp] theorem setByteCnt_curClient (n : Nat) (b : Bte) : (setByteCnt n b).curClient = b.curClient := rfl
@[simp] theorem setByteCnt_curReq (n : Nat) (b : Bte) : (setByteCnt n b).curReq = b.curReq := rfl
@[simp] theorem setByteCnt_txbuf (n : Nat) (b : Bte) : (setByteCnt n b).txbuf = b.txbuf := rfl
@[simp] theorem setByteCnt_txIdx (n : Nat) (b : Bte) : (setByteCnt n b).txIdx = b.txIdx := rfl
@[simp] theorem setByteCnt_byteCnt (n : Nat) (b : Bte) : (setByteCnt n b).byteCnt = some n := rfl
@[simp] theorem setByteCnt_turnCnt (n : Nat) (b : Bte) : (setByteCnt n b).turnCnt = b.turnCnt := rfl
@[simp] theorem setByteCnt_toCnt (n : Nat) (b : Bte) : (setByteCnt n b).toCnt = b.toCnt := rfl
@[simp] theorem setByteCnt_expLen (n : Nat) (b : Bte) : (setByteCnt n b).expLen = b.expLen := rfl
@[simp] theorem setByteCnt_rxbuf (n : Nat) (b : Bte) : (setByteCnt n b).rxbuf = b.rxbuf := rfl
@[simp] theorem setByteCnt_result (n : Nat) (b : Bte) : (setByteCnt n b).result = b.result := rfl

@[simp] theorem nextByte_st (cfg : Cfg) (i : Nat) (b : Bte) : (nextByte cfg i b).st = b.st := rfl
@[simp] theorem nextByte_dir (cfg : Cfg) (i : Nat) (b : Bte) : (nextByte cfg i b).dir = b.dir := rfl
@[simp] theorem nextByte_queue (cfg : Cfg) (i : Nat) (b : Bte) : (nextByte cfg i b).queue = b.queue := rfl
@[simp] theorem nextByte_curClient (cfg : Cfg) (i : Nat) (b : Bte) : (nextByte cfg i b).curClient = b.curClient := rfl
@[simp] theorem nextByte_curReq (cfg : Cfg) (i : Nat) (b : Bte) : (nextByte cfg i b).curReq = b.curReq := rfl
@[simp] theorem nextByte_txbuf (cfg : Cfg) (i : Nat) (b : Bte) : (nextByte cfg i b).txbuf = b.txbuf := rfl
@[simp] theorem nextByte_txIdx (cfg : Cfg) (i : Nat) (b : Bte) : (nextByte cfg i b).txIdx = some i := rfl
@[simp] theorem nextByte_byteCnt (cfg : Cfg) (i : Nat) (b : Bte) : (nextByte cfg i b).byteCnt = some cfg.tByte := rfl
@[simp] theorem nextByte_turnCnt (cfg : Cfg) (i : Nat) (b : Bte) : (nextByte cfg i b).turnCnt = b.turnCnt := rfl
@[simp] theorem nextByte_toCnt (cfg : Cfg) (i : Nat) (b : Bte) : (nextByte cfg i b).toCnt = b.toCnt := rfl
@[simp] theorem nextByte_expLen (cfg : Cfg) (i : Nat) (b : Bte) : (nextByte cfg i b).expLen = b.expLen := rfl
@[simp] theorem nextByte_rxbuf (cfg : Cfg) (i : Nat) (b : Bte) : (nextByte cfg i b).rxbuf = b.rxbuf := rfl
@[simp] theorem nextByte_result (cfg : Cfg) (i : Nat) (b : Bte) : (nextByte cfg i b).result = b.result := rfl

@[simp] theorem endSend_st (cfg : Cfg) (i : Nat) (b : Bte) : (endSend cfg i b).st = .awaitingTurnaround := rfl
@[simp] theorem endSend_dir (cfg : Cfg) (i : Nat) (b : Bte) : (endSend cfg i b).dir = b.dir := rfl
@[simp] theorem endSend_queue (cfg : Cfg) (i : Nat) (b : Bte) : (endSend cfg i b).queue = b.queue := rfl
@[simp] theorem endSend_curClient (cfg : Cfg) (i : Nat) (b : Bte) : (endSend cfg i b).curClient = b.curClient := rfl
@[simp] theorem endSend_curReq (cfg : Cfg) (i : Nat) (b : Bte) : (endSend cfg i b).curReq = b.curReq := rfl
@[simp] theorem endSend_txbuf (cfg : Cfg) (i : Nat) (b : Bte) : (endSend cfg i b).txbuf = b.txbuf := rfl
@[simp] theorem endSend_txIdx (cfg : Cfg) (i : Nat) (b : Bte) : (endSend cfg i b).txIdx = some i := rfl
@[simp] theorem endSend_byteCnt (cfg : Cfg) (i : Nat) (b : Bte) : (endSend cfg i b).byteCnt = b.byteCnt := rfl
@[simp] theorem endSend_turnCnt (cfg : Cfg) (i : Nat) (b : Bte) : (endSend cfg i b).turnCnt = some cfg.tTurn := rfl
@[simp] theorem endSend_toCnt (cfg : Cfg) (i : Nat) (b : Bte) : (endSend cfg i b).toCnt = b.toCnt := rfl
@[simp] theorem endSend_expLen (cfg : Cfg) (i : Nat) (b : Bte) : (endSend cfg i b).expLen = b.expLen := rfl
@[simp] theorem endSend_rxbuf (cfg : Cfg) (i : Nat) (b : Bte) : (endSend cfg i b).rxbuf = b.rxbuf := rfl
@[simp] theorem endSend_result (cfg : Cfg) (i : Nat) (b : Bte) : (endSend cfg i b).result = b.result := rfl

@[simp] theorem setTurnCnt_st (n : Nat) (b : Bte) : (setTurnCnt n b).st = b.st := rfl
@[simp] theorem setTurnCnt_dir (n : Nat) (b : Bte) : (setTurnCnt n b).dir = b.dir := rfl
@[simp] theorem setTurnCnt_queue (n : Nat) (b : Bte) : (setTurnCnt n b).queue = b.queue := rfl
@[simp] theorem setTurnCnt_curClient (n : Nat) (b : Bte) : (setTurnCnt n b).curClient = b.curClient := rfl
@[simp] theorem setTurnCnt_curReq (n : Nat) (b : Bte) : (setTurnCnt n b).curReq = b.curReq := rfl
@[simp] theorem setTurnCnt_txbuf (n : Nat) (b : Bte) : (setTurnCnt n b).txbuf = b.txbuf := rfl
@[simp] theorem setTurnCnt_txIdx (n : Nat) (b : Bte) : (setTurnCnt n b).txIdx = b.txIdx := rfl
@[simp] theorem setTurnCnt_byteCnt (n : Nat) (b : Bte) : (setTurnCnt n b).byteCnt = b.byteCnt := rfl
@[simp] theorem setTurnCnt_turnCnt (n : Nat) (b : Bte) : (setTurnCnt n b).turnCnt = some n := rfl
@[simp] theorem setTurnCnt_toCnt (n : Nat) (b : Bte) : (setTurnCnt n b).toCnt = b.toCnt := rfl
@[simp] theorem setTurnCnt_expLen (n : Nat) (b : Bte) : (setTurnCnt n b).expLen = b.expLen := rfl
@[simp] theorem setTurnCnt_rxbuf (n : Nat) (b : Bte) : (setTurnCnt n b).rxbuf = b.rxbuf := rfl
@[simp] theorem setTurnCnt_result (n : Nat) (b : Bte) : (setTurnCnt n b).result = b.result := rfl

@[simp] theorem setToCnt_st (n : Nat) (b : Bte) : (setToCnt n b).st = b.st := rfl
@[simp] theorem setToCnt_dir (n : Nat) (b : Bte) : (setToCnt n b).dir = b.dir := rfl
@[simp] theorem setToCnt_queue (n : Nat) (b : Bte) : (setToCnt n b).queue = b.queue := rfl
@[simp] theorem setToCnt_curClient (n : Nat) (b : Bte) : (setToCnt n b).curClient = b.curClient := rfl
@[simp] theorem setToCnt_curReq (n : Nat) (b : Bte) : (setToCnt n b).curReq = b.curReq := rfl
@[simp] theorem setToCnt_txbuf (n : Nat) (b : Bte) : (setToCnt n b).txbuf = b.txbuf := rfl
@[simp] theorem setToCnt_txIdx (n : Nat) (b : Bte) : (setToCnt n b).txIdx = b.txIdx := rfl
@[simp] theorem setToCnt_byteCnt (n : Nat) (b : Bte) : (setToCnt n b).byteCnt = b.byteCnt := rfl
@[simp] theorem setToCnt_turnCnt (n : Nat) (b : Bte) : (setToCnt n b).turnCnt = b.turnCnt := rfl
@[simp] theorem setToCnt_toCnt (n : Nat) (b : Bte) : (setToCnt n b).toCnt = some n := rfl
@[simp] theorem setToCnt_expLen (n : Nat) (b : Bte) : (setToCnt n b).expLen = b.expLen := rfl
@[simp] theorem setToCnt_rxbuf (n : Nat) (b : Bte) : (setToCnt n b).rxbuf = b.rxbuf := rfl
@[simp] theorem setToCnt_result (n : Nat) (b : Bte) : (setToCnt n b).result = b.result := rfl

@[simp] theorem commit_cfg (b : Bte) (o : List Output) (s : State) : (commit b o s).cfg = s.cfg := rfl
@[simp] theorem commit_bte (b : Bte) (o : List Output) (s : State) : (commit b o s).bte = b := rfl
@[simp] theorem commit_inbox (b : Bte) (o : List Output) (s : State) : (commit b o s).inbox = s.inbox := rfl
@[simp] theorem commit_out (b : Bte) (o : List Output) (s : State) : (commit b o s).out = s.out ++ o := rfl
@[simp] theorem commit_ret (b : Bte) (o : List Output) (s : State) : (commit b o s).ret = s.ret := rfl

@[simp] theorem giveBack_cfg (v : Return) (s : State) : (giveBack v s).cfg = s.cfg := rfl
@[simp] theorem giveBack_bte (v : Return) (s : State) : (giveBack v s).bte = s.bte := rfl
@[simp] theorem giveBack_inbox (v : Return) (s : State) : (giveBack v s).inbox = s.inbox := rfl
@[simp] theorem giveBack_out (v : Return) (s : State) : (giveBack v s).out = s.out := rfl
@[simp] theorem giveBack_ret (v : Return) (s : State) : (giveBack v s).ret = some v := rfl

@[simp] theorem setInbox_cfg (l : List Input) (s : State) : (setInbox l s).cfg = s.cfg := rfl
@[simp] theorem setInbox_bte (l : List Input) (s : State) : (setInbox l s).bte = s.bte := rfl
@[simp] theorem setInbox_inbox (l : List Input) (s : State) : (setInbox l s).inbox = l := rfl
@[simp] theorem setInbox_out (l : List Input) (s : State) : (setInbox l s).out = s.out := rfl
@[simp] theorem setInbox_ret (l : List Input) (s : State) : (setInbox l s).ret = s.ret := rfl

@[simp] theorem andThen_next (s : State) (f : State → Host.Outcome State Fault Refusal) :
    andThen (.next s) f = f s := rfl
@[simp] theorem andThen_fault (e : Fault) (f : State → Host.Outcome State Fault Refusal) :
    andThen (.fault e) f = .fault e := rfl
@[simp] theorem andThen_refused (r : Refusal) (f : State → Host.Outcome State Fault Refusal) :
    andThen (.refused r) f = .refused r := rfl

/-- From a next state of a sequence, the next state of its first part. -/
theorem andThen_eq_next (o : Host.Outcome State Fault Refusal) (f : State → Host.Outcome State Fault Refusal)
    (t : State) (h : andThen o f = .next t) : ∃ s, o = .next s ∧ f s = .next t := by
  cases o with
  | next s => exact ⟨s, rfl, h⟩
  | fault e => simp at h
  | refused r => simp at h

@[simp] theorem nextEvent_event (s : State) (e : Event) (l : List Input) (h : s.inbox = .event e :: l) :
    nextEvent s = e := by simp [nextEvent, h]
@[simp] theorem restInbox_event (s : State) (e : Event) (l : List Input) (h : s.inbox = .event e :: l) :
    restInbox s = l := by simp [restInbox, h]
@[simp] theorem nextEvent_nil (s : State) (h : s.inbox = []) : nextEvent s = .tick := by simp [nextEvent, h]
@[simp] theorem restInbox_nil (s : State) (h : s.inbox = []) : restInbox s = [] := by simp [restInbox, h]

/-- The next event is a `Tick` of the outside's silence, or the first of the inputs. -/
theorem next_cases (s : State) :
    (nextEvent s = .tick ∧ restInbox s = s.inbox) ∨ (∃ l, s.inbox = .event (nextEvent s) :: l ∧ restInbox s = l) := by
  unfold nextEvent restInbox
  cases h : s.inbox with
  | nil => simp
  | cons x l =>
    cases x with
    | event e => simp
    | packet p => simp

/-- Taking an input never lengthens the list of those to come. -/
theorem restInbox_length (s : State) : (restInbox s).length ≤ s.inbox.length := by
  rcases next_cases s with ⟨-, h⟩ | ⟨l, h1, h2⟩
  · rw [h]
  · rw [h1, h2]; simp

end Sys2Proof.Machine
end

