-- ==== Sys2Proof/Laws/Engine.lean ====
section
/-! SUPPORT. What one transition of the engine can do (R142 to R154): in a state that meets the invariants of R26 it answers,
and the state it answers meets them again. -/

namespace Sys2Proof.Machine

theorem legalCfg_iff (cfg : Cfg) : legalCfg cfg = true ↔
    1 ≤ cfg.tTurn ∧ 1 ≤ cfg.tTimeout ∧ 1 ≤ cfg.tByte ∧ 1 ≤ cfg.qDepth ∧ 261 ≤ cfg.rxCap ∧ 1 ≤ cfg.nClients ∧
      0 < cfg.tickPeriodNum ∧ 0 < cfg.tickPeriodDen := by
  simp only [legalCfg, Bool.and_eq_true, decide_eq_true_eq, and_assoc]; exact Iff.rfl

/-- Two states with the same sequencer state, direction and transaction registers: what an event that touches only the
queue or only stale input leaves. -/
theorem EngineInv.submit {cfg : Cfg} {b : Bte} (h : EngineInv cfg b) (c : Nat) (q : Request) (hc : c < cfg.nClients) :
    EngineInv cfg (onSubmit cfg c q b).1 := by
  unfold onSubmit
  split
  · rename_i hr
    have hr' : b.queue.length < cfg.qDepth := by simpa [cmdReady] using hr
    refine { h with ranges := { h.ranges with queue := ?_, clients := ?_ } }
    · simp; omega
    · intro e he
      simp only [enqueue_queue, List.mem_append, List.mem_singleton] at he
      rcases he with he | rfl
      · exact h.ranges.clients e he
      · exact hc
  · exact h

/-- The start transition (R144). -/
theorem EngineInv.tickIdle {cfg : Cfg} {b : Bte} (hl : legalCfg cfg = true) (h : EngineInv cfg b) (hs : b.st = .idle) :
    EngineInv cfg (tickIdle cfg b).1 := by
  rw [legalCfg_iff] at hl
  unfold Machine.tickIdle
  cases hq : b.queue with
  | nil => exact h
  | cons e rest =>
    obtain ⟨c, q⟩ := e
    have hqs := h.ranges.queue
    have hcl := h.ranges.clients
    rw [hq] at hqs hcl
    have hcc : c < cfg.nClients := hcl (c, q) (by simp)
    have hrest : ∀ e ∈ rest, e.1 < cfg.nClients := fun e he => hcl e (by simp [he])
    have hlen : rest.length ≤ cfg.qDepth := by simp at hqs; omega
    by_cases hv : validate q = true
    · simp only [hv, if_true]
      refine ⟨⟨?_, ?_, ?_, ?_, ?_, ?_, ?_, ?_, ?_, ?_⟩, ?_, ?_, ?_, ?_, ?_, ?_⟩
      · simpa using hlen
      · simpa using hrest
      · simp
      · intro f hf; simp at hf; subst hf; exact encodeRequest_length_bounds q hv
      · intro i hi; simp at hi; omega
      · intro n hn; simp at hn; omega
      · simpa using h.ranges.turnCnt
      · simpa using h.ranges.toCnt
      · intro x hx; simp at hx; subst hx; exact expectedLen_range q hv
      · simpa using h.ranges.result
      · intro _
        exact ⟨rfl, rfl, q, 0, cfg.tByte, ⟨rfl, hv, rfl, rfl⟩, rfl, encodeRequest_length_pos q, rfl⟩
      · intro hx; simp at hx
      · intro hx; simp at hx
      · intro hx; simp at hx
      · intro _; exact ⟨c, rfl, hcc⟩
      · intro hx; simp at hx
    · simp only [hv]
      refine ⟨⟨?_, ?_, ?_, ?_, ?_, ?_, ?_, ?_, ?_, ?_⟩, ?_, ?_, ?_, ?_, ?_, ?_⟩
      · simpa using hlen
      · simpa using hrest
      · simpa using h.ranges.rxbuf
      · simpa using h.ranges.txbuf
      · simpa using h.ranges.txIdx
      · simpa using h.ranges.byteCnt
      · simpa using h.ranges.turnCnt
      · simpa using h.ranges.toCnt
      · simpa using h.ranges.expLen
      · intro d err hx; simp at hx
      · intro hx; simp at hx
      · intro hx; simp at hx
      · intro hx; simp at hx
      · intro _; exact ⟨_, rfl⟩
      · intro _; exact ⟨c, rfl, hcc⟩
      · intro _ hd; simpa using h.driven (Or.inl hs) (by simpa using hd)

/-- `Tick` in `Sending` (R145): it answers, and keeps the invariants. -/
theorem EngineInv.tickSending {cfg : Cfg} {b : Bte} (hl : legalCfg cfg = true) (h : EngineInv cfg b) (hs : b.st = .sending) :
    ∃ b' o, tickSending cfg b = .ok (b', o) ∧ EngineInv cfg b' := by
  rw [legalCfg_iff] at hl
  obtain ⟨hd, hr, q, i, n, hL, hi, hlt, hn⟩ := h.sending hs
  have hrn := h.ranges.byteCnt n hn
  have hb := encodeRequest_length_bounds q hL.2.1
  unfold Machine.tickSending
  rw [hL.2.2.1, hi, hn]
  simp only
  by_cases h1 : 1 < n
  · rw [if_pos h1]
    refine ⟨setByteCnt (n - 1) b, _, rfl, ⟨{ h.ranges with byteCnt := ?_ }, ?_, ?_, ?_, ?_, ?_, ?_⟩⟩
    · intro m hm; simp at hm; omega
    · intro _; exact ⟨hd, hr, q, i, n - 1, hL, hi, hlt, rfl⟩
    · intro hx; simp [hs] at hx
    · intro hx; simp [hs] at hx
    · intro hx; simp [hs] at hx
    · exact h.holder
    · intro hx; simp [hs] at hx
  · rw [if_neg h1, List.getElem?_eq_getElem hlt]
    simp only
    by_cases h2 : i + 1 < (encodeRequest q).length
    · rw [if_pos h2]
      refine ⟨_, _, rfl, ⟨{ h.ranges with txIdx := ?_, byteCnt := ?_ }, ?_, ?_, ?_, ?_, ?_, ?_⟩⟩
      · intro j hj; simp at hj; omega
      · intro m hm; simp at hm; omega
      · intro _; exact ⟨hd, hr, q, i + 1, cfg.tByte, hL, rfl, h2, rfl⟩
      · intro hx; simp [hs] at hx
      · intro hx; simp [hs] at hx
      · intro hx; simp [hs] at hx
      · exact h.holder
      · intro hx; simp [hs] at hx
    · rw [if_neg h2]
      refine ⟨_, _, rfl, ⟨{ h.ranges with txIdx := ?_, turnCnt := ?_ }, ?_, ?_, ?_, ?_, ?_, ?_⟩⟩
      · intro j hj; simp at hj; omega
      · intro m hm; simp at hm; omega
      · intro hx; simp at hx
      · intro _
        exact ⟨hd, hr, q, cfg.tTurn, hL, by simp; omega, rfl⟩
      · intro hx; simp at hx
      · intro hx; simp at hx
      · intro _; exact h.holder (by simp [hs])
      · intro hx; simp at hx

/-- `Tick` in `AwaitingTurnaround` (R146, R150): it answers, and keeps the invariants. -/
theorem EngineInv.tickTurnaround {cfg : Cfg} {b : Bte} (hl : legalCfg cfg = true) (h : EngineInv cfg b)
    (hs : b.st = .awaitingTurnaround) : ∃ b' o, tickTurnaround cfg b = .ok (b', o) ∧ EngineInv cfg b' := by
  rw [legalCfg_iff] at hl
  obtain ⟨hd, hr, q, n, hL, hi, hn⟩ := h.turnaround hs
  have hrn := h.ranges.turnCnt n hn
  unfold Machine.tickTurnaround
  rw [hn, hL.2.2.2]
  simp only
  by_cases h1 : 1 < n
  · rw [if_pos h1]
    refine ⟨_, _, rfl, ⟨{ h.ranges with turnCnt := ?_ }, ?_, ?_, ?_, ?_, ?_, ?_⟩⟩
    · intro m hm; simp at hm; omega
    · intro hx; simp [hs] at hx
    · intro _; exact ⟨hd, hr, q, n - 1, hL, hi, rfl⟩
    · intro hx; simp [hs] at hx
    · intro hx; simp [hs] at hx
    · exact h.holder
    · intro hx; simp [hs] at hx
  · rw [if_neg h1]
    by_cases h0 : expectedLen q = 0
    · rw [if_pos h0]
      obtain ⟨a, d, rfl⟩ := expectedLen_zero q h0
      refine ⟨_, _, rfl, ⟨{ h.ranges with result := ?_ }, ?_, ?_, ?_, ?_, ?_, ?_⟩⟩
      · intro d' e' hx; simp at hx; simp [hx.1]
      · intro hx; simp at hx
      · intro hx; simp at hx
      · intro hx; simp at hx
      · intro _; exact ⟨_, rfl⟩
      · intro _; exact h.holder (by simp [hs])
      · intro _ _; exact ⟨a, d, hL.2.2.1, by rw [complete_expLen, hL.2.2.2, h0]⟩
    · rw [if_neg h0]
      have h6 := (expectedLen_range q hL.2.1).resolve_left h0
      refine ⟨_, _, rfl, ⟨{ h.ranges with toCnt := ?_ }, ?_, ?_, ?_, ?_, ?_, ?_⟩⟩
      · intro m hm; simp at hm; omega
      · intro hx; simp at hx
      · intro hx; simp at hx
      · intro _
        exact ⟨rfl, q, cfg.tTimeout, hL, h6.1, by simp [hr]; omega, rfl⟩
      · intro hx; simp at hx
      · intro _; exact h.holder (by simp [hs])
      · intro hx; simp at hx

/-- The end of a receive (R148, R149): it answers, and what it answers meets the invariants. -/
theorem endReceive_inv {cfg : Cfg} {b : Bte} {e : Nat} (h : FieldRanges cfg b) (hd : b.dir = .rx) (he : 6 ≤ e)
    (he' : e ≤ 261) (hh : ∃ c, b.curClient = some c ∧ c < cfg.nClients) :
    ∃ b' o, endReceive e b = .ok (b', o) ∧ EngineInv cfg b' := by
  obtain ⟨r, hr⟩ := decodeStatus_isSome b.rxbuf e he
  unfold endReceive
  rw [hr]
  refine ⟨_, _, rfl, ⟨{ h with rxbuf := by simp, result := ?_ }, ?_, ?_, ?_, ?_, ?_, ?_⟩⟩
  · intro d err hx
    simp only [complete_result, Option.some.injEq] at hx
    subst hx
    have := decodeStatus_data_length _ _ _ _ hr
    omega
  · intro hx; simp at hx
  · intro hx; simp at hx
  · intro hx; simp at hx
  · intro _; exact ⟨_, rfl⟩
  · intro _; exact hh
  · intro _ hx; simp [hd] at hx

/-- `Tick` in `Receiving` (R148): it answers, and keeps the invariants. -/
theorem EngineInv.tickReceiving {cfg : Cfg} {b : Bte} (h : EngineInv cfg b) (hs : b.st = .receiving) :
    ∃ b' o, tickReceiving b = .ok (b', o) ∧ EngineInv cfg b' := by
  obtain ⟨hd, q, n, hL, h6, hlt, hn⟩ := h.receiving hs
  have hrn := h.ranges.toCnt n hn
  have hrg := expectedLen_range q hL.2.1
  unfold Machine.tickReceiving
  rw [hn, hL.2.2.2]
  simp only
  by_cases h1 : 1 < n
  · rw [if_pos h1]
    refine ⟨_, _, rfl, ⟨{ h.ranges with toCnt := ?_ }, ?_, ?_, ?_, ?_, ?_, ?_⟩⟩
    · intro m hm; simp at hm; omega
    · intro hx; simp [hs] at hx
    · intro hx; simp [hs] at hx
    · intro _; exact ⟨hd, q, n - 1, hL, h6, hlt, rfl⟩
    · intro hx; simp [hs] at hx
    · exact h.holder
    · intro hx; simp [hs] at hx
  · rw [if_neg h1]
    exact endReceive_inv h.ranges hd h6 (by omega) (h.holder (by simp [hs]))

/-- `Tick` in `Completed` (R151): it answers, and keeps the invariants. -/
theorem EngineInv.tickCompleted {cfg : Cfg} {b : Bte} (h : EngineInv cfg b) (hs : b.st = .completed) :
    ∃ b' o, tickCompleted b = .ok (b', o) ∧ EngineInv cfg b' := by
  obtain ⟨r, hr⟩ := h.completed hs
  obtain ⟨c, hc, hcn⟩ := h.holder (by simp [hs])
  unfold Machine.tickCompleted
  rw [hr, hc]
  refine ⟨_, _, rfl, ⟨{ h.ranges with }, ?_, ?_, ?_, ?_, ?_, ?_⟩⟩
  · intro hx; simp at hx
  · intro hx; simp at hx
  · intro hx; simp at hx
  · intro hx; simp at hx
  · intro hx; simp at hx
  · intro _ hd; exact h.driven (Or.inr hs) hd

/-- `RxByte` in `Receiving` (R149): it answers, and keeps the invariants. -/
theorem EngineInv.rxByteReceiving {cfg : Cfg} {b : Bte} (hl : legalCfg cfg = true) (h : EngineInv cfg b) (hs : b.st = .receiving)
    (x : Byte) : ∃ b' o, rxByteReceiving x b = .ok (b', o) ∧ EngineInv cfg b' := by
  rw [legalCfg_iff] at hl
  obtain ⟨hd, q, n, hL, h6, hlt, hn⟩ := h.receiving hs
  have hrg := expectedLen_range q hL.2.1
  have hcap : (capture x b).rxbuf.length ≤ cfg.rxCap := by simp; omega
  have hfr : FieldRanges cfg (capture x b) := { h.ranges with rxbuf := hcap }
  unfold Machine.rxByteReceiving
  rw [hL.2.2.2]
  simp only
  by_cases h1 : (capture x b).rxbuf.length = expectedLen q
  · rw [if_pos h1]
    exact endReceive_inv hfr hd h6 (by omega) (h.holder (by simp [hs]))
  · rw [if_neg h1]
    refine ⟨_, _, rfl, ⟨hfr, ?_, ?_, ?_, ?_, ?_, ?_⟩⟩
    · intro hx; simp [hs] at hx
    · intro hx; simp [hs] at hx
    · intro _
      refine ⟨hd, q, n, hL, h6, ?_, hn⟩
      simp at h1 ⊢; omega
    · intro hx; simp [hs] at hx
    · exact h.holder
    · intro hx; simp [hs] at hx

/-- `RxByte` outside `Receiving` (R153) keeps the invariants. -/
theorem EngineInv.rxByteElsewhere {cfg : Cfg} {b : Bte} (h : EngineInv cfg b) (hs : b.st ≠ .receiving) (x : Byte) :
    EngineInv cfg (rxByteElsewhere cfg x b).1 := by
  unfold Machine.rxByteElsewhere
  cases hd : b.dir with
  | tx => exact h
  | rx =>
    simp only
    split
    · rename_i hcap
      refine ⟨{ h.ranges with rxbuf := by simp; omega }, ?_, ?_, ?_, ?_, ?_, ?_⟩
      · intro hx; have := (h.sending hx).1; simp [hd] at this
      · intro hx; have := (h.turnaround hx).1; simp [hd] at this
      · intro hx; exact absurd hx hs
      · exact h.completed
      · exact h.holder
      · exact h.driven
    · exact h

/-- The reset state meets the invariants under every configuration (R27). -/
theorem EngineInv.reset (cfg : Cfg) : EngineInv cfg Bte.reset := by
  refine ⟨⟨?_, ?_, ?_, ?_, ?_, ?_, ?_, ?_, ?_, ?_⟩, ?_, ?_, ?_, ?_, ?_, ?_⟩ <;> simp [Bte.reset]

/-- What one transition can do from a state that meets the invariants of R26: it answers, and the invariants hold again. -/
theorem engine_inv {cfg : Cfg} {b : Bte} (hl : legalCfg cfg = true) (h : EngineInv cfg b) (e : Event)
    (hc : stranger cfg e = none) : ∃ b' o, engine cfg b e = .ok (b', o) ∧ EngineInv cfg b' := by
  cases e with
  | reset => exact ⟨_, _, rfl, EngineInv.reset cfg⟩
  | submit c q =>
    have hc' : c < cfg.nClients := by
      by_contra hn
      simp [stranger, hn] at hc
    exact ⟨_, _, rfl, h.submit c q hc'⟩
  | tick =>
    unfold engine onTick
    cases hs : b.st with
    | idle => exact ⟨_, _, rfl, h.tickIdle hl hs⟩
    | sending => exact h.tickSending hl hs
    | awaitingTurnaround => exact h.tickTurnaround hl hs
    | receiving => exact h.tickReceiving hs
    | completed => exact h.tickCompleted hs
  | rxByte x =>
    unfold engine onRxByte
    cases hs : b.st with
    | receiving => exact h.rxByteReceiving hl hs x
    | idle => exact ⟨_, _, rfl, h.rxByteElsewhere (by simp [hs]) x⟩
    | sending => exact ⟨_, _, rfl, h.rxByteElsewhere (by simp [hs]) x⟩
    | awaitingTurnaround => exact ⟨_, _, rfl, h.rxByteElsewhere (by simp [hs]) x⟩
    | completed => exact ⟨_, _, rfl, h.rxByteElsewhere (by simp [hs]) x⟩

/-- What meeting an event can answer, under a legal configuration: the next state is the engine's, committed. -/
theorem applyEvent_eq_next {e : Event} {s t : State} (h : applyEvent e s = .next t) :
    legalCfg s.cfg = true ∧ stranger s.cfg e = none ∧
      ∃ b o, engine s.cfg s.bte e = .ok (b, o) ∧ t = commit b o s := by
  unfold applyEvent at h
  split at h
  · rename_i hl
    split at h
    · simp at h
    · rename_i hst
      split at h
      · rename_i r hr
        injection h with h
        exact ⟨hl, hst, r.1, r.2, by rw [hr], h.symm⟩
      · simp at h
  · simp at h

theorem applyEvent_of_engine {e : Event} {s : State} {b : Bte} {o : List Output} (hl : legalCfg s.cfg = true)
    (hc : stranger s.cfg e = none) (h : engine s.cfg s.bte e = .ok (b, o)) :
    applyEvent e s = .next (commit b o s) := by
  simp [applyEvent, hl, hc, h]

/-- From a good state an event answers a good next state, or is refused as no event. -/
theorem applyEvent_inv {e : Event} {s : State} (h : Inv s) (hc : stranger s.cfg e = none) :
    ∃ t, applyEvent e s = .next t ∧ Inv t ∧ t.cfg = s.cfg ∧ t.inbox = s.inbox := by
  obtain ⟨b, o, he, hb⟩ := engine_inv h.legal h.inv e hc
  exact ⟨_, applyEvent_of_engine h.legal hc he, ⟨h.legal, hb⟩, rfl, rfl⟩

theorem applyEvent_stranger {e : Event} {s : State} {c : Nat} (hl : legalCfg s.cfg = true)
    (hc : stranger s.cfg e = some c) : applyEvent e s = .refused (.notAClient c) := by
  simp [applyEvent, hl, hc]

/-- From a good state an event never faults. -/
theorem applyEvent_noFault {e : Event} {s : State} (h : Inv s) : NoFault (applyEvent e s) := by
  intro f hf
  cases hc : stranger s.cfg e with
  | none => obtain ⟨t, ht, -⟩ := applyEvent_inv h hc; rw [ht] at hf; cases hf
  | some c => rw [applyEvent_stranger h.legal hc] at hf; cases hf

/-- A good state stays good when its next state is reached by an event. -/
theorem applyEvent_keeps_inv {e : Event} {s t : State} (h : Inv s) (ht : applyEvent e s = .next t) :
    Inv t ∧ t.cfg = s.cfg ∧ t.inbox = s.inbox := by
  obtain ⟨-, hc, -⟩ := applyEvent_eq_next ht
  obtain ⟨t', ht', hi⟩ := applyEvent_inv h hc
  rw [ht] at ht'
  injection ht' with ht'
  rw [ht']; exact hi

end Sys2Proof.Machine
end

