-- ==== Sys2Proof/Laws/Cases.lean ====
section
/-! SUPPORT. What each transition can do, said once (R142 to R153): if it answers, then one of these cases holds. -/

namespace Sys2Proof.Machine

theorem onSubmit_cases (cfg : Cfg) (c : Nat) (q : Request) (b : Bte) :
    (b.queue.length < cfg.qDepth ∧ onSubmit cfg c q b = (enqueue c q b, [.accepted c])) ∨
    (¬ b.queue.length < cfg.qDepth ∧ onSubmit cfg c q b = (b, [.rejected c])) := by
  by_cases h : b.queue.length < cfg.qDepth <;> simp [onSubmit, cmdReady, h]

theorem tickIdle_cases (cfg : Cfg) (b : Bte) :
    (b.queue = [] ∧ tickIdle cfg b = (b, [])) ∨
    (∃ c q rest, b.queue = (c, q) :: rest ∧
      ((validate q = true ∧ tickIdle cfg b = (beginSend cfg q (acquireLock c q rest b), [])) ∨
       (validate q = false ∧
        tickIdle cfg b = (raiseFailure .constructionError (acquireLock c q rest b), [])))) := by
  unfold tickIdle
  cases hq : b.queue with
  | nil => simp
  | cons e rest =>
    obtain ⟨c, q⟩ := e
    right
    refine ⟨c, q, rest, rfl, ?_⟩
    cases hv : validate q <;> simp [hv]

theorem tickSending_cases {cfg : Cfg} {b b' : Bte} {o : List Output} (h : tickSending cfg b = .ok (b', o)) :
    ∃ f i n, b.txbuf = some f ∧ b.txIdx = some i ∧ b.byteCnt = some n ∧
      ((1 < n ∧ b' = setByteCnt (n - 1) b ∧ o = []) ∨
       (n ≤ 1 ∧ ∃ x, f[i]? = some x ∧ o = [.txByte x] ∧
        ((i + 1 < f.length ∧ b' = nextByte cfg (i + 1) b) ∨ (¬ i + 1 < f.length ∧ b' = endSend cfg (i + 1) b)))) := by
  unfold tickSending at h
  split at h
  · rename_i f i n hf hi hn
    refine ⟨f, i, n, hf, hi, hn, ?_⟩
    by_cases h1 : 1 < n
    · simp [h1] at h; exact Or.inl ⟨h1, h.1.symm, h.2⟩
    · rw [if_neg h1] at h
      right
      refine ⟨by omega, ?_⟩
      split at h
      · rename_i x hx
        refine ⟨x, hx, ?_⟩
        by_cases h2 : i + 1 < f.length
        · simp [h2] at h; exact ⟨h.2.symm, Or.inl ⟨h2, h.1.symm⟩⟩
        · simp [h2] at h; exact ⟨h.2.symm, Or.inr ⟨h2, h.1.symm⟩⟩
      · simp at h
  · simp at h

theorem tickTurnaround_cases {cfg : Cfg} {b b' : Bte} {o : List Output} (h : tickTurnaround cfg b = .ok (b', o)) :
    ∃ n e, b.turnCnt = some n ∧ b.expLen = some e ∧ o = [] ∧
      ((1 < n ∧ b' = setTurnCnt (n - 1) b) ∨
       (n ≤ 1 ∧ e = 0 ∧ b' = complete (.success [] errNone) b) ∨
       (n ≤ 1 ∧ e ≠ 0 ∧ b' = beginReceive cfg b)) := by
  unfold tickTurnaround at h
  split at h
  · rename_i n e hn he
    refine ⟨n, e, hn, he, ?_⟩
    by_cases h1 : 1 < n
    · simp [h1] at h; exact ⟨h.2, Or.inl ⟨h1, h.1.symm⟩⟩
    · by_cases h0 : e = 0
      · simp [h1, h0] at h; exact ⟨h.2, Or.inr (Or.inl ⟨by omega, h0, h.1.symm⟩)⟩
      · simp [h1, h0] at h; exact ⟨h.2, Or.inr (Or.inr ⟨by omega, h0, h.1.symm⟩)⟩
  · simp at h

theorem endReceive_cases {e : Nat} {b b' : Bte} {o : List Output} (h : endReceive e b = .ok (b', o)) :
    ∃ r, decodeStatus b.rxbuf e = some r ∧ b' = complete r (consumeRx b) ∧ o = [] := by
  unfold endReceive at h
  split at h
  · rename_i r hr
    simp at h
    exact ⟨r, hr, h.1.symm, h.2⟩
  · simp at h

theorem tickReceiving_cases {b b' : Bte} {o : List Output} (h : tickReceiving b = .ok (b', o)) :
    ∃ n e, b.toCnt = some n ∧ b.expLen = some e ∧ o = [] ∧
      ((1 < n ∧ b' = setToCnt (n - 1) b) ∨
       (n ≤ 1 ∧ ∃ r, decodeStatus b.rxbuf e = some r ∧ b' = complete r (consumeRx b))) := by
  unfold tickReceiving at h
  split at h
  · rename_i n e hn he
    refine ⟨n, e, hn, he, ?_⟩
    by_cases h1 : 1 < n
    · simp [h1] at h; exact ⟨h.2, Or.inl ⟨h1, h.1.symm⟩⟩
    · rw [if_neg h1] at h
      obtain ⟨r, hr, hb, ho⟩ := endReceive_cases h
      exact ⟨ho, Or.inr ⟨by omega, r, hr, hb⟩⟩
  · simp at h

theorem tickCompleted_cases {b b' : Bte} {o : List Output} (h : tickCompleted b = .ok (b', o)) :
    ∃ c r, b.curClient = some c ∧ b.result = some r ∧ b' = releaseLock b ∧ o = [.done c r] := by
  unfold tickCompleted at h
  split at h
  · rename_i c r hc hr
    simp at h
    exact ⟨c, r, hc, hr, h.1.symm, h.2.symm⟩
  · simp at h

theorem rxByteReceiving_cases {x : Byte} {b b' : Bte} {o : List Output} (h : rxByteReceiving x b = .ok (b', o)) :
    ∃ e, b.expLen = some e ∧ o = [] ∧
      ((b.rxbuf.length + 1 ≠ e ∧ b' = capture x b) ∨
       (b.rxbuf.length + 1 = e ∧
        ∃ r, decodeStatus (b.rxbuf ++ [x]) e = some r ∧ b' = complete r (consumeRx (capture x b)))) := by
  unfold rxByteReceiving at h
  split at h
  · rename_i e he
    refine ⟨e, he, ?_⟩
    by_cases h1 : (capture x b).rxbuf.length = e
    · rw [if_pos h1] at h
      obtain ⟨r, hr, hb, ho⟩ := endReceive_cases h
      exact ⟨ho, Or.inr ⟨by simpa using h1, r, hr, hb⟩⟩
    · rw [if_neg h1] at h
      simp at h
      exact ⟨h.2, Or.inl ⟨by simpa using h1, h.1.symm⟩⟩
  · simp at h

theorem rxByteElsewhere_cases (cfg : Cfg) (x : Byte) (b : Bte) :
    (b.dir = .tx ∧ rxByteElsewhere cfg x b = (b, [])) ∨
    (b.dir = .rx ∧ b.rxbuf.length < cfg.rxCap ∧ rxByteElsewhere cfg x b = (capture x b, [])) ∨
    (b.dir = .rx ∧ ¬ b.rxbuf.length < cfg.rxCap ∧ rxByteElsewhere cfg x b = (b, [])) := by
  unfold rxByteElsewhere
  cases hd : b.dir with
  | tx => simp
  | rx => by_cases h : b.rxbuf.length < cfg.rxCap <;> simp [h]

/-- A `Tick`, by state. -/
theorem engine_tick_idle {cfg : Cfg} {b : Bte} (h : b.st = .idle) : engine cfg b .tick = .ok (tickIdle cfg b) := by
  simp [engine, onTick, h]
theorem engine_tick_sending {cfg : Cfg} {b : Bte} (h : b.st = .sending) : engine cfg b .tick = tickSending cfg b := by
  simp [engine, onTick, h]
theorem engine_tick_turnaround {cfg : Cfg} {b : Bte} (h : b.st = .awaitingTurnaround) :
    engine cfg b .tick = tickTurnaround cfg b := by
  simp [engine, onTick, h]
theorem engine_tick_receiving {cfg : Cfg} {b : Bte} (h : b.st = .receiving) : engine cfg b .tick = tickReceiving b := by
  simp [engine, onTick, h]
theorem engine_tick_completed {cfg : Cfg} {b : Bte} (h : b.st = .completed) : engine cfg b .tick = tickCompleted b := by
  simp [engine, onTick, h]
/-- An `RxByte`, by state. -/
theorem engine_rx_receiving {cfg : Cfg} {b : Bte} {x : Byte} (h : b.st = .receiving) :
    engine cfg b (.rxByte x) = rxByteReceiving x b := by
  simp [engine, onRxByte, h]
theorem engine_rx_elsewhere {cfg : Cfg} {b : Bte} {x : Byte} (h : b.st ≠ .receiving) :
    engine cfg b (.rxByte x) = .ok (rxByteElsewhere cfg x b) := by
  unfold engine onRxByte
  cases hs : b.st with
  | receiving => exact absurd hs h
  | idle => rfl
  | sending => rfl
  | awaitingTurnaround => rfl
  | completed => rfl

end Sys2Proof.Machine
end

