-- ==== Sys2Proof/Laws/Run.lean ====
section
/-! SUPPORT. Running the engine over many events: every event keeps a good state good, ticks run the phases out (R262, R263),
so a phase or a wait ends within its bound. -/

namespace Sys2Proof.Machine

/-- What an operation can answer from a good state: a good next state under the same configuration, or the refusal of an
input that is no event. -/
def Settles (s : State) (o : Host.Outcome State Fault Refusal) : Prop :=
  (∃ t, o = .next t ∧ Inv t ∧ t.cfg = s.cfg) ∨
  (∃ c e, o = .refused (.notAClient c) ∧ Input.event e ∈ s.inbox ∧ stranger s.cfg e = some c)

theorem Settles.noFault {s : State} {o : Host.Outcome State Fault Refusal} (h : Settles s o) : NoFault o := by
  intro f hf
  rcases h with ⟨t, ht, -⟩ | ⟨c, e, hc, -⟩
  · rw [ht] at hf; cases hf
  · rw [hc] at hf; cases hf

theorem Settles.next {s : State} {o : Host.Outcome State Fault Refusal} (h : Settles s o) {l : List Input}
    (hl : NoReset s.cfg l) (hs : s.inbox = l) : ∃ t, o = .next t ∧ Inv t ∧ t.cfg = s.cfg := by
  rcases h with h | ⟨c, e, -, hm, hst⟩
  · exact h
  · rw [hs] at hm
    rw [(hl e hm).2] at hst; cases hst

/-- What `advance` can answer from a good state. -/
theorem advance_cases {s : State} (h : Inv s) :
    (∃ t, advance s = .next t ∧ Inv t ∧ t.cfg = s.cfg ∧ t.inbox = restInbox s ∧
      ∃ b o, engine s.cfg s.bte (nextEvent s) = .ok (b, o) ∧ t = commit b o (setInbox (restInbox s) s)) ∨
    (∃ c, advance s = .refused (.notAClient c) ∧ Input.event (nextEvent s) ∈ s.inbox ∧
      stranger s.cfg (nextEvent s) = some c) := by
  cases hc : stranger s.cfg (nextEvent s) with
  | none =>
    left
    have hi : Inv (setInbox (restInbox s) s) := ⟨h.legal, h.inv⟩
    obtain ⟨t, ht, hti, htc, htb⟩ := applyEvent_inv (e := nextEvent s) hi hc
    obtain ⟨-, -, b, o, he, rfl⟩ := applyEvent_eq_next ht
    exact ⟨_, ht, hti, htc, htb, b, o, he, rfl⟩
  | some c =>
    right
    refine ⟨c, applyEvent_stranger (s := setInbox (restInbox s) s) h.legal hc, ?_, rfl⟩
    rcases next_cases s with ⟨ht, -⟩ | ⟨l, hl, -⟩
    · rw [ht] at hc; simp [stranger] at hc
    · exact hl ▸ List.mem_cons_self ..

theorem advance_eq_next {s t : State} (h : advance s = .next t) :
    legalCfg s.cfg = true ∧ t.cfg = s.cfg ∧ t.inbox = restInbox s ∧
      ∃ b o, engine s.cfg s.bte (nextEvent s) = .ok (b, o) ∧ t = commit b o (setInbox (restInbox s) s) := by
  obtain ⟨hl, -, b, o, he, rfl⟩ := applyEvent_eq_next h
  exact ⟨hl, rfl, rfl, b, o, he, rfl⟩

theorem advance_keeps_inv {s t : State} (h : Inv s) (ht : advance s = .next t) : Inv t ∧ t.cfg = s.cfg := by
  rcases advance_cases h with ⟨t', ht', hi, hc, -⟩ | ⟨c, hr, -⟩
  · rw [ht] at ht'; injection ht' with ht'; rw [ht']; exact ⟨hi, hc⟩
  · rw [ht] at hr; cases hr

theorem advance_settles {s : State} (h : Inv s) : Settles s (advance s) := by
  rcases advance_cases h with ⟨t, ht, hi, hc, -⟩ | ⟨c, hr, hm, hs⟩
  · exact Or.inl ⟨t, ht, hi, hc⟩
  · exact Or.inr ⟨c, _, hr, hm, hs⟩

theorem Inv.giveBack {s : State} (h : Inv s) (v : Return) : Inv (giveBack v s) := ⟨h.legal, h.inv⟩

/-- The refusal of an input that stands further down the list is one of the whole list. -/
theorem Settles.of_rest {s t : State} {o : Host.Outcome State Fault Refusal} (h : Settles t o) (hc : t.cfg = s.cfg)
    (hi : t.inbox = restInbox s) : Settles s o := by
  rcases h with ⟨u, hu, hui, huc⟩ | ⟨c, e, ho, hm, hs⟩
  · exact Or.inl ⟨u, hu, hui, huc.trans hc⟩
  · refine Or.inr ⟨c, e, ho, ?_, hc ▸ hs⟩
    rw [hi] at hm
    rcases next_cases s with ⟨-, h2⟩ | ⟨l, h1, h2⟩
    · rw [← h2]; exact hm
    · rw [h1]; rw [h2] at hm; exact List.mem_cons_of_mem _ hm

/-- A phase runs out: when each event but a `Reset` keeps `μ` from growing, and each `Tick` that does not end the phase
lowers it, the phase ends within `μ` ticks and the inputs given. -/
theorem runPhase_settles (inPhase : Bte → Bool) (value : Bte → Event → Return) (μ : Cfg → Bte → Nat)
    (hpos : ∀ cfg b, inPhase b = true → 0 < μ cfg b)
    (htick : ∀ cfg b b' o, legalCfg cfg = true → EngineInv cfg b → inPhase b = true → inPhase b' = true →
      engine cfg b .tick = .ok (b', o) → μ cfg b' < μ cfg b)
    (hother : ∀ cfg b b' o e, legalCfg cfg = true → EngineInv cfg b → inPhase b = true → inPhase b' = true →
      e ≠ .reset → e ≠ .tick → engine cfg b e = .ok (b', o) → μ cfg b' ≤ μ cfg b) :
    ∀ k s, Inv s → inPhase s.bte = true → s.inbox.length + μ s.cfg s.bte ≤ k →
      Settles s (runPhase inPhase value k s) := by
  intro k
  induction k with
  | zero =>
    intro s h hp hk
    have := hpos s.cfg s.bte hp
    omega
  | succ k ih =>
    intro s h hp hk
    rw [runPhase]
    rcases advance_cases h with ⟨t, ht, hti, htc, htb, b, o, he, hte⟩ | ⟨c, hr, hm, hst⟩
    · rw [ht]
      simp only [andThen_next]
      by_cases hre : nextEvent s = .reset
      · rw [if_pos hre]; exact Or.inl ⟨_, rfl, hti.giveBack _, htc⟩
      · rw [if_neg hre]
        by_cases hp' : inPhase t.bte = true
        · rw [if_pos hp']
          refine (ih t hti hp' ?_).of_rest htc htb
          have hb : t.bte = b := by rw [hte]; rfl
          rw [htb, htc, hb]
          rw [hb] at hp'
          rcases next_cases s with ⟨h1, h2⟩ | ⟨l, h1, h2⟩
          · rw [h1] at he
            have := htick _ _ _ _ h.legal h.inv hp hp' he
            rw [h2]; omega
          · have hle : μ s.cfg b ≤ μ s.cfg s.bte := by
              by_cases htk : nextEvent s = .tick
              · rw [htk] at he
                exact Nat.le_of_lt (htick _ _ _ _ h.legal h.inv hp hp' he)
              · exact hother _ _ _ _ _ h.legal h.inv hp hp' hre htk he
            have hlen : s.inbox.length = l.length + 1 := by rw [h1]; rfl
            rw [h2]; omega
        · rw [if_neg hp']; exact Or.inl ⟨_, rfl, hti.giveBack _, htc⟩
    · rw [hr]
      exact Or.inr ⟨c, _, rfl, hm, hst⟩

/-- Running a phase keeps a good state good. -/
theorem runPhase_keeps_inv (inPhase : Bte → Bool) (value : Bte → Event → Return) :
    ∀ k s t, Inv s → runPhase inPhase value k s = .next t → Inv t ∧ t.cfg = s.cfg := by
  intro k
  induction k with
  | zero => intro s t _ h; simp [runPhase] at h
  | succ k ih =>
    intro s t hi h
    rw [runPhase] at h
    obtain ⟨s1, h1, h2⟩ := andThen_eq_next _ _ _ h
    obtain ⟨hi1, hc1⟩ := advance_keeps_inv hi h1
    split at h2
    · injection h2 with h2; rw [← h2]; exact ⟨hi1.giveBack _, hc1⟩
    · split at h2
      · obtain ⟨hi2, hc2⟩ := ih s1 t hi1 h2; exact ⟨hi2, hc2.trans hc1⟩
      · injection h2 with h2; rw [← h2]; exact ⟨hi1.giveBack _, hc1⟩

/-- Waiting for a `Done` keeps a good state good. -/
theorem awaitDone_keeps_inv :
    ∀ k todo s t, Inv s → awaitDone k todo s = .next t → Inv t ∧ t.cfg = s.cfg := by
  intro k
  induction k with
  | zero => intro todo s t _ h; simp [awaitDone] at h
  | succ k ih =>
    intro todo s t hi h
    rw [awaitDone] at h
    obtain ⟨s1, h1, h2⟩ := andThen_eq_next _ _ _ h
    obtain ⟨hi1, hc1⟩ := advance_keeps_inv hi h1
    split at h2
    · injection h2 with h2; rw [← h2]; exact ⟨hi1.giveBack _, hc1⟩
    · split at h2
      · split at h2
        · simp at h2
        · injection h2 with h2; rw [← h2]; exact ⟨hi1.giveBack _, hc1⟩
        · simp at h2
        · obtain ⟨hi2, hc2⟩ := ih _ s1 t hi1 h2; exact ⟨hi2, hc2.trans hc1⟩
      · obtain ⟨hi2, hc2⟩ := ih _ s1 t hi1 h2; exact ⟨hi2, hc2.trans hc1⟩

/-- In a good state a `Tick` of a transaction under way shortens what is left of it, or it is over (R262, R263). -/
theorem currentTicks_tick {cfg : Cfg} {b b' : Bte} {o : List Output} (hl : legalCfg cfg = true) (h : EngineInv cfg b)
    (hi : b.st ≠ .idle) (hc : b.st ≠ .completed) (he : engine cfg b .tick = .ok (b', o)) :
    currentTicks cfg b' < currentTicks cfg b ∧ b'.queue = b.queue ∧ b'.st ≠ .idle := by
  rw [legalCfg_iff] at hl
  cases hs : b.st with
  | idle => exact absurd hs hi
  | completed => exact absurd hs hc
  | sending =>
    rw [engine_tick_sending hs] at he
    obtain ⟨f, i, n, hf, hi', hn, hcase⟩ := tickSending_cases he
    have hrn := h.ranges.byteCnt n hn
    rcases hcase with ⟨h1, rfl, -⟩ | ⟨h1, x, hx, -, ⟨h2, rfl⟩ | ⟨h2, rfl⟩⟩
    · refine ⟨?_, by simp, by simp [hs]⟩
      simp only [currentTicks, hs, setByteCnt_st, sendTicks, setByteCnt_txbuf, setByteCnt_txIdx, setByteCnt_byteCnt,
        hn, Option.getD_some]
      omega
    · refine ⟨?_, by simp, by simp [hs]⟩
      simp only [currentTicks, hs, nextByte_st, sendTicks, nextByte_txbuf, nextByte_txIdx, nextByte_byteCnt,
        hn, hf, hi', Option.getD_some, Option.map_some]
      have hsplit : f.length - 1 - i = (f.length - 1 - (i + 1)) + 1 := by omega
      rw [hsplit, Nat.add_mul]
      omega
    · refine ⟨?_, by simp, by simp⟩
      simp only [currentTicks, hs, endSend_st, turnTicks, endSend_turnCnt, sendTicks, Option.getD_some]
      omega
  | awaitingTurnaround =>
    rw [engine_tick_turnaround hs] at he
    obtain ⟨n, e, hn, -, -, ⟨h1, rfl⟩ | ⟨h1, -, rfl⟩ | ⟨h1, -, rfl⟩⟩ := tickTurnaround_cases he
    · refine ⟨?_, by simp, by simp [hs]⟩
      simp only [currentTicks, hs, setTurnCnt_st, turnTicks, setTurnCnt_turnCnt, hn, Option.getD_some]
      omega
    · refine ⟨?_, by simp, by simp⟩
      simp only [currentTicks, hs, complete_st, turnTicks]
      omega
    · refine ⟨?_, by simp, by simp⟩
      simp only [currentTicks, hs, beginReceive_st, recvTicks, beginReceive_toCnt, turnTicks, Option.getD_some]
      omega
  | receiving =>
    rw [engine_tick_receiving hs] at he
    obtain ⟨n, e, hn, -, -, ⟨h1, rfl⟩ | ⟨h1, r, -, rfl⟩⟩ := tickReceiving_cases he
    · refine ⟨?_, by simp, by simp [hs]⟩
      simp only [currentTicks, hs, setToCnt_st, recvTicks, setToCnt_toCnt, hn, Option.getD_some]
      omega
    · refine ⟨?_, by simp, by simp⟩
      simp only [currentTicks, hs, complete_st, recvTicks]
      omega

/-- An `RxByte` never prolongs a transaction, and neither starts nor retires one (R262). -/
theorem currentTicks_rx {cfg : Cfg} {b b' : Bte} {o : List Output} {x : Byte}
    (he : engine cfg b (.rxByte x) = .ok (b', o)) :
    currentTicks cfg b' ≤ currentTicks cfg b ∧ b'.queue = b.queue ∧ (b'.st = .idle ↔ b.st = .idle) := by
  by_cases hs : b.st = .receiving
  · rw [engine_rx_receiving hs] at he
    obtain ⟨e, -, -, ⟨-, rfl⟩ | ⟨-, r, -, rfl⟩⟩ := rxByteReceiving_cases he
    · exact ⟨Nat.le_of_eq rfl, rfl, Iff.rfl⟩
    · refine ⟨?_, rfl, by simp [hs]⟩
      simp [currentTicks, hs]
  · rw [engine_rx_elsewhere hs] at he
    injection he with he
    rcases rxByteElsewhere_cases cfg x b with ⟨-, h2⟩ | ⟨-, -, h2⟩ | ⟨-, -, h2⟩ <;>
      (rw [h2] at he; injection he with h3 h4; subst h3)
    · exact ⟨Nat.le_refl _, rfl, Iff.rfl⟩
    · exact ⟨Nat.le_of_eq rfl, rfl, Iff.rfl⟩
    · exact ⟨Nat.le_refl _, rfl, Iff.rfl⟩

/-- A `Submit` leaves the transaction in progress alone; the queue keeps its entries in place. -/
theorem currentTicks_submit (cfg : Cfg) (b : Bte) (c : Nat) (q : Request) :
    currentTicks cfg (onSubmit cfg c q b).1 = currentTicks cfg b ∧ (onSubmit cfg c q b).1.st = b.st ∧
      ∃ l, (onSubmit cfg c q b).1.queue = b.queue ++ l := by
  rcases onSubmit_cases cfg c q b with ⟨-, h⟩ | ⟨-, h⟩ <;> rw [h]
  · exact ⟨rfl, rfl, _, rfl⟩
  · exact ⟨rfl, rfl, [], by simp⟩

/-- How many of the queued requests are among the first `todo` transactions still to be reported. -/
def queuedAmong (b : Bte) (todo : Nat) : Nat := todo - if b.st = .idle then 0 else 1

/-- The longest the first `todo` transactions still to be reported can take (R262). -/
def ticksFor (cfg : Cfg) (b : Bte) (todo : Nat) : Nat :=
  currentTicks cfg b + ((b.queue.take (queuedAmong b todo)).map fun e => longestTransaction cfg e.2).sum

/-- Every `Tick` brings the `todo`-th `Done` nearer (R262): the transaction in progress is shortened, started or retired. -/
theorem ticksFor_tick {cfg : Cfg} {b b' : Bte} {o : List Output} {todo : Nat} (hl : legalCfg cfg = true)
    (h : EngineInv cfg b) (ht : 1 ≤ todo) (hd : todo ≤ pendingDone b) (hc : b.st ≠ .completed)
    (he : engine cfg b .tick = .ok (b', o)) :
    ticksFor cfg b' todo < ticksFor cfg b todo ∧ todo ≤ pendingDone b' := by
  by_cases hs : b.st = .idle
  · rw [engine_tick_idle hs] at he
    injection he with he
    simp only [pendingDone, hs, if_true, Nat.add_zero] at hd
    rcases tickIdle_cases cfg b with ⟨hq, -⟩ | ⟨c, q, rest, hq, ⟨hv, h2⟩ | ⟨hv, h2⟩⟩
    · rw [hq] at hd; simp at hd; omega
    · rw [h2] at he; injection he with h3 h4; subst h3
      rw [hq] at hd; simp only [List.length_cons] at hd
      obtain ⟨m, rfl⟩ : ∃ m, todo = m + 1 := ⟨todo - 1, by omega⟩
      constructor
      · have hlen := encodeRequest_length_pos q
        rw [legalCfg_iff] at hl
        simp only [ticksFor, queuedAmong, hs, hq, if_true, currentTicks, beginSend_st, beginSend_queue,
          acquireLock_queue, sendTicks, beginSend_txbuf, beginSend_txIdx, beginSend_byteCnt, Option.map_some,
          Option.getD_some, longestTransaction, hv, List.take_succ_cons, List.map_cons, List.sum_cons,
          Nat.sub_zero, reduceCtorEq, if_false, Nat.add_sub_cancel]
        have hsplit : (encodeRequest q).length = ((encodeRequest q).length - 1) + 1 := by omega
        have hmul : (encodeRequest q).length * cfg.tByte = ((encodeRequest q).length - 1) * cfg.tByte + cfg.tByte := by
          conv_lhs => rw [hsplit, Nat.add_mul, Nat.one_mul]
        rw [hmul]
        omega
      · simp [pendingDone]; omega
    · rw [h2] at he; injection he with h3 h4; subst h3
      rw [hq] at hd; simp only [List.length_cons] at hd
      obtain ⟨m, rfl⟩ : ∃ m, todo = m + 1 := ⟨todo - 1, by omega⟩
      constructor
      · simp only [ticksFor, queuedAmong, hs, hq, if_true, currentTicks, raiseFailure_st, raiseFailure_queue,
          acquireLock_queue, longestTransaction, hv, List.take_succ_cons, List.map_cons, List.sum_cons,
          Nat.sub_zero, reduceCtorEq, if_false, Nat.add_sub_cancel, Bool.false_eq_true]
        omega
      · simp [pendingDone]; omega
  · obtain ⟨h1, h2, h3⟩ := currentTicks_tick hl h hs hc he
    constructor
    · simp only [ticksFor, queuedAmong, h2, hs, h3, if_false]; omega
    · simpa only [pendingDone, h2, hs, h3, if_false] using hd

/-- No other event but a `Reset` puts the `todo`-th `Done` further off (R262). -/
theorem ticksFor_other {cfg : Cfg} {b b' : Bte} {o : List Output} {e : Event} {todo : Nat}
    (hd : todo ≤ pendingDone b) (hr : e ≠ .reset) (ht : e ≠ .tick) (he : engine cfg b e = .ok (b', o)) :
    ticksFor cfg b' todo ≤ ticksFor cfg b todo ∧ todo ≤ pendingDone b' := by
  cases e with
  | reset => exact absurd rfl hr
  | tick => exact absurd rfl ht
  | rxByte x =>
    obtain ⟨h1, h2, h3⟩ := currentTicks_rx he
    constructor
    · simp only [ticksFor, queuedAmong, h2, h3]; omega
    · simpa only [pendingDone, h2, h3] using hd
  | submit c q =>
    simp only [engine, Except.ok.injEq] at he
    obtain ⟨h1, h2, l, h3⟩ := currentTicks_submit cfg b c q
    rw [he] at h1 h2 h3
    simp only at h1 h2 h3
    constructor
    · have htake : (b.queue ++ l).take (queuedAmong b todo) = b.queue.take (queuedAmong b todo) := by
        apply List.take_append_of_le_length
        simp only [pendingDone] at hd
        simp only [queuedAmong]
        omega
      have hq : queuedAmong b' todo = queuedAmong b todo := by simp only [queuedAmong, h2]
      simp only [ticksFor, h1, hq, h3, htake]; omega
    · simp only [pendingDone, h2, h3, List.length_append] at hd ⊢; omega

/-- The wait for the `todo`-th `Done` ends (R262): it ends within the ticks the pending transactions can take and the
inputs given. -/
theorem awaitDone_settles :
    ∀ k todo s, Inv s → 1 ≤ todo → todo ≤ pendingDone s.bte → s.inbox.length + ticksFor s.cfg s.bte todo ≤ k →
      Settles s (awaitDone k todo s) := by
  intro k
  induction k with
  | zero =>
    intro todo s h h1 hd hk
    exfalso
    have : 0 < ticksFor s.cfg s.bte todo := by
      cases hs : s.bte.st with
      | idle =>
        simp only [pendingDone, hs, if_true, Nat.add_zero] at hd
        cases hq : s.bte.queue with
        | nil => rw [hq] at hd; simp at hd; omega
        | cons e rest =>
          obtain ⟨m, rfl⟩ : ∃ m, todo = m + 1 := ⟨todo - 1, by omega⟩
          simp only [ticksFor, queuedAmong, hs, hq, if_true, Nat.sub_zero, List.take_succ_cons, List.map_cons,
            List.sum_cons, longestTransaction]
          split <;> omega
      | sending => simp only [ticksFor, currentTicks, hs]; omega
      | awaitingTurnaround => simp only [ticksFor, currentTicks, hs]; omega
      | receiving => simp only [ticksFor, currentTicks, hs]; omega
      | completed => simp only [ticksFor, currentTicks, hs]; omega
    omega
  | succ k ih =>
    intro todo s h h1 hd hk
    rw [awaitDone]
    rcases advance_cases h with ⟨t, ht, hti, htc, htb, b, o, he, hte⟩ | ⟨c, hr, hm, hst⟩
    · rw [ht]
      simp only [andThen_next]
      have hb : t.bte = b := by rw [hte]; rfl
      have hlen : nextEvent s ≠ .tick → t.inbox.length + 1 = s.inbox.length := by
        intro hn
        rcases next_cases s with ⟨h2, -⟩ | ⟨l, h2, h3⟩
        · exact absurd h2 hn
        · rw [htb, h3, h2]; rfl
      have hlen' : t.inbox.length ≤ s.inbox.length := by rw [htb]; exact restInbox_length s
      by_cases hre : nextEvent s = .reset
      · rw [if_pos hre]; exact Or.inl ⟨_, rfl, hti.giveBack _, htc⟩
      · rw [if_neg hre]
        by_cases htk : nextEvent s = .tick
        · rw [htk] at he
          by_cases hc : s.bte.st = .completed
          · rw [if_pos ⟨htk, hc⟩]
            rw [engine_tick_completed hc] at he
            obtain ⟨c, r, -, hres, rfl, -⟩ := tickCompleted_cases he
            obtain ⟨m, rfl⟩ : ∃ m, todo = m + 1 := ⟨todo - 1, by omega⟩
            cases m with
            | zero => simp only [hres]; exact Or.inl ⟨_, rfl, hti.giveBack _, htc⟩
            | succ m =>
              refine (ih (m + 1) t hti (by omega) ?_ ?_).of_rest htc htb
              · rw [hb]
                simp only [pendingDone, hc, reduceCtorEq, if_false] at hd
                simp [pendingDone]; omega
              · rw [hb, htc]
                have : ticksFor s.cfg (releaseLock s.bte) (m + 1) + 1 = ticksFor s.cfg s.bte (m + 1 + 1) := by
                  simp only [ticksFor, queuedAmong, hc, currentTicks, releaseLock_st, releaseLock_queue, if_true,
                    reduceCtorEq, if_false, Nat.add_sub_cancel, Nat.sub_zero]
                  omega
                omega
          · rw [if_neg (by simp [hc])]
            obtain ⟨h2, h3⟩ := ticksFor_tick h.legal h.inv h1 hd hc he
            refine (ih todo t hti h1 (by rw [hb]; exact h3) ?_).of_rest htc htb
            rw [hb, htc]; omega
        · rw [if_neg (by simp [htk])]
          obtain ⟨h2, h3⟩ := ticksFor_other hd hre htk he
          refine (ih todo t hti h1 (by rw [hb]; exact h3) ?_).of_rest htc htb
          have := hlen htk
          rw [hb, htc]; omega
    · rw [hr]
      exact Or.inr ⟨c, _, rfl, hm, hst⟩

/-- All that is pending. -/
theorem ticksFor_pendingDone (cfg : Cfg) (b : Bte) : ticksFor cfg b (pendingDone b) = pendingTicks cfg b := by
  have : queuedAmong b (pendingDone b) = b.queue.length := by simp only [queuedAmong, pendingDone]; omega
  simp only [ticksFor, this, List.take_length, pendingTicks]

end Sys2Proof.Machine
end

