-- ==== Sys2Proof/Laws/Exact.lean ====
section
/-! SUPPORT. Exact runs: where a given stretch of events leads, phase by phase (R145, R146, R148, R149), and how the
multi-tick operations follow it. -/

namespace Sys2Proof.Machine

/-- `j` events lead from `s` to `t`; none of them is a `Reset`, and each finds a state where `P` holds. -/
inductive Lead (P : State → Prop) : Nat → State → State → Prop where
  | here (s : State) : Lead P 0 s s
  | there {j : Nat} {s s1 t : State} (hp : P s) (hr : nextEvent s ≠ .reset) (ha : advance s = .next s1)
      (hl : Lead P j s1 t) : Lead P (j + 1) s t

theorem Lead.mono {P Q : State → Prop} (hpq : ∀ s, P s → Q s) {j : Nat} {s t : State} (h : Lead P j s t) :
    Lead Q j s t := by
  induction h with
  | here s => exact .here s
  | there hp hr ha _ ih => exact .there (hpq _ hp) hr ha ih

theorem Lead.trans {P : State → Prop} {i j : Nat} {s t u : State} (h : Lead P i s t) (h' : Lead P j t u) :
    Lead P (i + j) s u := by
  induction h with
  | here s => simpa using h'
  | @there i s s1 t hp hr ha hl ih =>
    have := Lead.there hp hr ha (ih h')
    rwa [show i + 1 + j = i + j + 1 by omega]

theorem Lead.one {P : State → Prop} {s t : State} (hp : P s) (hr : nextEvent s ≠ .reset) (ha : advance s = .next t) :
    Lead P 1 s t := .there hp hr ha (.here t)

/-- A phase follows a stretch of events that stays in it. -/
theorem runPhase_lead {inPhase : Bte → Bool} {value : Bte → Event → Return} {j : Nat} {s t : State}
    (h : Lead (fun s => inPhase s.bte = true) j s t) (ht : inPhase t.bte = true) (k : Nat) :
    runPhase inPhase value (k + j) s = runPhase inPhase value k t := by
  induction h with
  | here s => rfl
  | @there j s s1 t hp hr ha hl ih =>
    have h1 : inPhase s1.bte = true := by
      cases hl with
      | here => exact ht
      | there hp => exact hp
    rw [← Nat.add_assoc, runPhase, ha]
    simp only [andThen_next, hr, if_false, h1, if_true]
    exact ih ht

/-- A phase ends with the first event that leaves it. -/
theorem runPhase_exit {inPhase : Bte → Bool} {value : Bte → Event → Return} {j : Nat} {s t u : State}
    (h : Lead (fun s => inPhase s.bte = true) j s t) (ht : inPhase t.bte = true) (hr : nextEvent t ≠ .reset)
    (ha : advance t = .next u) (hu : inPhase u.bte = false) {k : Nat} (hk : j + 1 ≤ k) :
    runPhase inPhase value k s = .next (giveBack (value t.bte (nextEvent t)) u) := by
  obtain ⟨m, rfl⟩ : ∃ m, k = m + 1 + j := ⟨k - 1 - j, by omega⟩
  rw [runPhase_lead h ht, runPhase, ha]
  simp [hr, hu]

/-- The wait for a `Done` follows a stretch of events that retires nothing. -/
theorem awaitDone_lead {todo j : Nat} {s t : State}
    (h : Lead (fun s => ¬(nextEvent s = .tick ∧ s.bte.st = .completed)) j s t) (k : Nat) :
    awaitDone (k + j) todo s = awaitDone k todo t := by
  induction h with
  | here s => rfl
  | @there j s s1 t hp hr ha hl ih =>
    rw [← Nat.add_assoc, awaitDone, ha]
    simp only [andThen_next, hr, if_false, hp]
    exact ih

/-- The wait for the next `Done` ends with the tick that retires the transaction. -/
theorem awaitDone_exit {j : Nat} {s t u : State} {r : Result}
    (h : Lead (fun s => ¬(nextEvent s = .tick ∧ s.bte.st = .completed)) j s t) (he : nextEvent t = .tick)
    (hc : t.bte.st = .completed) (hres : t.bte.result = some r) (ha : advance t = .next u) {k : Nat}
    (hk : j + 1 ≤ k) : awaitDone k 1 s = .next (giveBack (.result r) u) := by
  obtain ⟨m, rfl⟩ : ∃ m, k = m + 1 + j := ⟨k - 1 - j, by omega⟩
  rw [awaitDone_lead h, awaitDone, ha]
  simp [he, hc, hres]

/-- The machine meets the event presented next. -/
theorem advance_event {s : State} {e : Event} {l : List Input} {b : Bte} {o : List Output} (hs : s.inbox = .event e :: l)
    (hl : legalCfg s.cfg = true) (hc : stranger s.cfg e = none) (he : engine s.cfg s.bte e = .ok (b, o)) :
    nextEvent s = e ∧ advance s = .next (commit b o (setInbox l s)) := by
  refine ⟨nextEvent_event s e l hs, ?_⟩
  rw [advance, nextEvent_event s e l hs, restInbox_event s e l hs]
  exact applyEvent_of_engine (s := setInbox l s) hl hc he

@[simp] theorem events_nil : events [] = [] := rfl
@[simp] theorem events_cons (e : Event) (w : List Event) : events (e :: w) = .event e :: events w := rfl
@[simp] theorem events_append (w v : List Event) : events (w ++ v) = events w ++ events v := by simp [events]
@[simp] theorem events_length (w : List Event) : (events w).length = w.length := by simp [events]

@[simp] theorem tickCount_append (w v : List Event) : tickCount (w ++ v) = tickCount w + tickCount v := by
  induction w with
  | nil => simp [tickCount]
  | cons e w ih => cases e <;> (simp [tickCount, ih]; try omega)

theorem tickCount_le_length (w : List Event) : tickCount w ≤ w.length := by
  induction w with
  | nil => simp [tickCount]
  | cons e w ih => cases e <;> simp [tickCount] <;> omega

@[simp] theorem arrivals_append (w v : List Event) : arrivals (w ++ v) = arrivals w ++ arrivals v := by
  induction w with
  | nil => simp [arrivals]
  | cons e w ih => cases e <;> simp [arrivals, ih]

theorem lineOnly_cons {e : Event} {w : List Event} (h : lineOnly (e :: w)) :
    (e = .tick ∨ ∃ x, e = .rxByte x) ∧ lineOnly w :=
  ⟨h e (List.mem_cons_self ..), fun f hf => h f (List.mem_cons_of_mem _ hf)⟩

/-- A stretch of time is cut at its `a + 1`-th tick. -/
theorem split_at_tick {w : List Event} (hw : lineOnly w) {a b : Nat} (h : tickCount w = a + 1 + b) :
    ∃ u v, w = u ++ .tick :: v ∧ lineOnly u ∧ lineOnly v ∧ tickCount u = a ∧ tickCount v = b := by
  induction w generalizing a with
  | nil => simp [tickCount] at h; omega
  | cons e w ih =>
    obtain ⟨he, hw'⟩ := lineOnly_cons hw
    rcases he with rfl | ⟨x, rfl⟩
    · simp only [tickCount] at h
      cases a with
      | zero => exact ⟨[], w, rfl, by simp [lineOnly], hw', rfl, by omega⟩
      | succ a =>
        obtain ⟨u, v, rfl, hu, hv, h1, h2⟩ := ih hw' (a := a) (by omega)
        refine ⟨.tick :: u, v, rfl, ?_, hv, by simp [tickCount, h1], h2⟩
        intro f hf
        rcases List.mem_cons.1 hf with rfl | hf
        · exact Or.inl rfl
        · exact hu f hf
    · simp only [tickCount] at h
      obtain ⟨u, v, rfl, hu, hv, h1, h2⟩ := ih hw' (a := a) h
      refine ⟨.rxByte x :: u, v, rfl, ?_, hv, by simp [tickCount, h1], h2⟩
      intro f hf
      rcases List.mem_cons.1 hf with rfl | hf
      · exact Or.inr ⟨x, rfl⟩
      · exact hu f hf

/-- In `Idle` or `Completed` with the line driven, or in `Sending` or `AwaitingTurnaround` as every good state is, a byte
from the line changes nothing (R125, R153). -/
theorem advance_gated {s : State} {x : Byte} {l : List Input} (hs : s.inbox = .event (.rxByte x) :: l)
    (hl : legalCfg s.cfg = true) (hr : s.bte.st ≠ .receiving) (hd : s.bte.dir = .tx) :
    nextEvent s = .rxByte x ∧ advance s = .next (setInbox l s) := by
  have he : engine s.cfg s.bte (.rxByte x) = .ok (s.bte, []) := by
    rw [engine_rx_elsewhere hr]; simp [rxByteElsewhere, hd]
  have := advance_event hs hl rfl he
  refine ⟨this.1, this.2.trans ?_⟩
  simp [commit, setInbox]

/-- The state `k` ticks into the frame `f` (R129, R145), of which `i` bytes were out already in `s`. -/
def sendAt (s : State) (f : List Byte) (i k : Nat) (l : List Input) : State :=
  { s with
    bte := { s.bte with
      txIdx   := some (k / s.cfg.tByte)
      byteCnt := some (s.cfg.tByte - k % s.cfg.tByte) }
    out   := s.out ++ ((f.take (k / s.cfg.tByte)).drop i).map .txByte
    inbox := l }

/-- One tick of the frame before its last. -/
theorem send_tick {s : State} {f : List Byte} (hl : legalCfg s.cfg = true) (hs : s.bte.st = .sending)
    (hf : s.bte.txbuf = some f) {i k : Nat} (hi : i ≤ k / s.cfg.tByte) (hk : k + 1 < f.length * s.cfg.tByte) (l : List Input) :
    advance (sendAt s f i k (.event .tick :: l)) = .next (sendAt s f i (k + 1) l) := by
  have hb : 1 ≤ s.cfg.tByte := ((legalCfg_iff _).1 hl).2.2.1
  have hmod : k % s.cfg.tByte < s.cfg.tByte := Nat.mod_lt _ (by omega)
  have hdm := Nat.div_add_mod k s.cfg.tByte
  have hlt : k / s.cfg.tByte < f.length := (Nat.div_lt_iff_lt_mul (by omega)).2 (by omega)
  by_cases hc : k % s.cfg.tByte + 1 < s.cfg.tByte
  · have hd1 : (k + 1) / s.cfg.tByte = k / s.cfg.tByte := by
      rw [Nat.div_eq_iff (by omega)]
      rw [Nat.mul_comm] at hdm
      constructor
      · omega
      · have : (k / s.cfg.tByte + 1) * s.cfg.tByte = k / s.cfg.tByte * s.cfg.tByte + s.cfg.tByte := by
          rw [Nat.add_mul, Nat.one_mul]
        omega
    have hm1 : (k + 1) % s.cfg.tByte = k % s.cfg.tByte + 1 := by
      have h2 := Nat.div_add_mod (k + 1) s.cfg.tByte
      rw [hd1] at h2; omega
    have he : engine s.cfg (sendAt s f i k (.event .tick :: l)).bte .tick =
        .ok (setByteCnt (s.cfg.tByte - k % s.cfg.tByte - 1) (sendAt s f i k (.event .tick :: l)).bte, []) := by
      refine (engine_tick_sending (by exact hs)).trans ?_
      have : 1 < s.cfg.tByte - k % s.cfg.tByte := by omega
      simp [tickSending, sendAt, hf, this]
    rw [(advance_event (s := sendAt s f i k (.event .tick :: l)) rfl hl rfl he).2]
    simp [commit, setInbox, sendAt, setByteCnt, hd1, hm1, Nat.sub_sub]
  · have hmm : k % s.cfg.tByte = s.cfg.tByte - 1 := by omega
    have hd1 : (k + 1) / s.cfg.tByte = k / s.cfg.tByte + 1 := by
      have : k + 1 = s.cfg.tByte * (k / s.cfg.tByte + 1) := by rw [Nat.mul_add, Nat.mul_one]; omega
      rw [this, Nat.mul_div_cancel_left _ (by omega)]
    have hm1 : (k + 1) % s.cfg.tByte = 0 := by
      have : k + 1 = s.cfg.tByte * (k / s.cfg.tByte + 1) := by rw [Nat.mul_add, Nat.mul_one]; omega
      rw [this, Nat.mul_mod_right]
    have hlt2 : k / s.cfg.tByte + 1 < f.length := by
      rw [← hd1]; exact (Nat.div_lt_iff_lt_mul (by omega)).2 (by omega)
    have he : engine s.cfg (sendAt s f i k (.event .tick :: l)).bte .tick =
        .ok (nextByte s.cfg (k / s.cfg.tByte + 1) (sendAt s f i k (.event .tick :: l)).bte,
          [.txByte f[k / s.cfg.tByte]]) := by
      refine (engine_tick_sending (by exact hs)).trans ?_
      have : ¬ 1 < s.cfg.tByte - k % s.cfg.tByte := by omega
      simp [tickSending, sendAt, hf, this, List.getElem?_eq_getElem hlt, hlt2]
    rw [(advance_event (s := sendAt s f i k (.event .tick :: l)) rfl hl rfl he).2]
    have htake : (f.take (k / s.cfg.tByte + 1)).drop i =
        (f.take (k / s.cfg.tByte)).drop i ++ [f[k / s.cfg.tByte]] := by
      rw [List.take_succ_eq_append_getElem hlt, List.drop_append_of_le_length (by rw [List.length_take]; omega)]
    simp [commit, setInbox, sendAt, nextByte, hd1, hm1, htake]

/-- A stretch of the frame: bytes from the line are discarded, ticks shift the frame out (R125, R145). -/
theorem send_lead {s : State} {f : List Byte} (hl : legalCfg s.cfg = true) (hs : s.bte.st = .sending)
    (hd : s.bte.dir = .tx) (hf : s.bte.txbuf = some f) {i : Nat} (l : List Input) :
    ∀ w k, lineOnly w → i ≤ k / s.cfg.tByte → k + tickCount w < f.length * s.cfg.tByte →
      Lead (fun t => t.bte.st = .sending ∧ t.bte.txbuf = some f ∧ fetch t = none) w.length (sendAt s f i k (events w ++ l))
        (sendAt s f i (k + tickCount w) l) := by
  intro w
  induction w with
  | nil => intro k _ _ _; exact .here _
  | cons e w ih =>
    intro k hw hi hk
    obtain ⟨he, hw'⟩ := lineOnly_cons hw
    rcases he with rfl | ⟨x, rfl⟩
    · simp only [tickCount] at hk ⊢
      refine .there ⟨hs, hf, rfl⟩ (by simp [nextEvent, sendAt]) (send_tick hl hs hf hi (by omega) _) ?_
      have := ih (k + 1) hw' (hi.trans (Nat.div_le_div_right (by omega))) (by omega)
      rwa [show k + 1 + tickCount w = k + (tickCount w + 1) by omega] at this
    · simp only [tickCount] at hk ⊢
      obtain ⟨h1, h2⟩ := advance_gated (s := sendAt s f i k (events (.rxByte x :: w) ++ l)) (l := events w ++ l) rfl hl
        (by rw [show (sendAt s f i k _).bte.st = .sending from hs]; simp) hd
      exact .there ⟨hs, hf, rfl⟩ (by rw [h1]; simp) h2 (ih k hw' hi hk)

/-- The last tick of the frame (R145): drained. -/
theorem send_last {s : State} {f : List Byte} {i k : Nat} (hl : legalCfg s.cfg = true) (hs : s.bte.st = .sending)
    (hf : s.bte.txbuf = some f) (hi : i ≤ k / s.cfg.tByte) (hk : k + 1 = f.length * s.cfg.tByte) (l : List Input) :
    advance (sendAt s f i k (.event .tick :: l)) =
      .next { s with
        bte := { s.bte with
          txIdx   := some f.length
          byteCnt := some 1
          turnCnt := some s.cfg.tTurn
          st      := .awaitingTurnaround }
        out   := s.out ++ (f.drop i).map .txByte
        inbox := l } := by
  have hb : 1 ≤ s.cfg.tByte := ((legalCfg_iff _).1 hl).2.2.1
  have hpos : 0 < f.length := by
    rcases Nat.eq_zero_or_pos f.length with h | h
    · rw [h] at hk; omega
    · exact h
  have hk' : k = s.cfg.tByte * (f.length - 1) + (s.cfg.tByte - 1) := by
    have : f.length * s.cfg.tByte = s.cfg.tByte * (f.length - 1) + s.cfg.tByte := by
      conv_lhs => rw [show f.length = (f.length - 1) + 1 by omega, Nat.add_mul, Nat.one_mul, Nat.mul_comm]
    omega
  have hkd : k / s.cfg.tByte = f.length - 1 := by
    rw [hk', Nat.mul_add_div (by omega), Nat.div_eq_of_lt (by omega)]; omega
  have hkm : k % s.cfg.tByte = s.cfg.tByte - 1 := by
    rw [hk', Nat.mul_add_mod, Nat.mod_eq_of_lt (by omega)]
  have hlt : f.length - 1 < f.length := by omega
  have he : engine s.cfg (sendAt s f i k (.event .tick :: l)).bte .tick =
      .ok (endSend s.cfg f.length (sendAt s f i k (.event .tick :: l)).bte, [.txByte f[f.length - 1]]) := by
    refine (engine_tick_sending (by exact hs)).trans ?_
    have h1 : ¬ 1 < s.cfg.tByte - (s.cfg.tByte - 1) := by omega
    have h2 : ¬ f.length - 1 + 1 < f.length := by omega
    simp only [tickSending, sendAt, hf, hkd, hkm, h1, if_false, List.getElem?_eq_getElem hlt, h2]
    rw [Nat.sub_add_cancel hpos]
  rw [(advance_event (s := sendAt s f i k (.event .tick :: l)) rfl hl rfl he).2]
  have hdrop : (f.take (f.length - 1)).drop i ++ [f[f.length - 1]] = f.drop i := by
    rw [← List.drop_append_of_le_length (by rw [List.length_take]; omega), ← List.take_succ_eq_append_getElem hlt,
      Nat.sub_add_cancel hpos, List.take_length]
  have hone : s.cfg.tByte - (s.cfg.tByte - 1) = 1 := by omega
  simp only [commit, setInbox, sendAt, endSend, hkd, hkm, hone, List.append_assoc]
  rw [← hdrop]
  simp

/-- The state in the turnaround delay, `n` ticks left. -/
def turningAt (s : State) (n : Nat) (l : List Input) : State :=
  { s with bte := setTurnCnt n s.bte, inbox := l }

/-- A stretch of the turnaround delay (R125, R146). -/
theorem turn_lead {s : State} {e : Nat} (hl : legalCfg s.cfg = true) (hs : s.bte.st = .awaitingTurnaround)
    (hd : s.bte.dir = .tx) (he : s.bte.expLen = some e) (l : List Input) :
    ∀ w n, lineOnly w → tickCount w < n →
      Lead (fun s => s.bte.st = .awaitingTurnaround ∧ fetch s = none) w.length (turningAt s n (events w ++ l))
        (turningAt s (n - tickCount w) l) := by
  intro w
  induction w with
  | nil => intro n _ _; exact .here _
  | cons ev w ih =>
    intro n hw hn
    obtain ⟨hev, hw'⟩ := lineOnly_cons hw
    rcases hev with rfl | ⟨x, rfl⟩
    · simp only [tickCount] at hn ⊢
      have hen : engine s.cfg (turningAt s n (events (.tick :: w) ++ l)).bte .tick =
          .ok (setTurnCnt (n - 1) (turningAt s n (events (.tick :: w) ++ l)).bte, []) := by
        refine (engine_tick_turnaround (by exact hs)).trans ?_
        have : 1 < n := by omega
        simp [tickTurnaround, turningAt, he, this]
      obtain ⟨h1, h2⟩ := advance_event (s := turningAt s n (events (.tick :: w) ++ l)) (l := events w ++ l) rfl hl rfl hen
      refine .there ⟨hs, rfl⟩ (by rw [h1]; simp) h2 ?_
      have hst : commit (setTurnCnt (n - 1) (turningAt s n (events (.tick :: w) ++ l)).bte) []
          (setInbox (events w ++ l) (turningAt s n (events (.tick :: w) ++ l))) = turningAt s (n - 1) (events w ++ l) := by
        simp [commit, setInbox, turningAt, setTurnCnt]
      rw [hst]
      have := ih (n - 1) hw' (by omega)
      rwa [show n - 1 - tickCount w = n - (tickCount w + 1) by omega] at this
    · simp only [tickCount] at hn ⊢
      obtain ⟨h1, h2⟩ := advance_gated (s := turningAt s n (events (.rxByte x :: w) ++ l)) (l := events w ++ l) rfl hl
        (by rw [show (turningAt s n _).bte.st = .awaitingTurnaround from hs]; simp) hd
      exact .there ⟨hs, rfl⟩ (by rw [h1]; simp) h2 (ih n hw' hn)

/-- The state the end of the turnaround delay leads to (R146, R150). -/
def afterTurn (cfg : Cfg) (e : Nat) (b : Bte) : Bte :=
  if e = 0 then complete (.success [] errNone) b else beginReceive cfg b

/-- The last tick of the turnaround delay (R146). -/
theorem turn_last {s : State} {e : Nat} (hl : legalCfg s.cfg = true) (hs : s.bte.st = .awaitingTurnaround)
    (he : s.bte.expLen = some e) (l : List Input) :
    advance (turningAt s 1 (.event .tick :: l)) =
      .next { s with bte := afterTurn s.cfg e (setTurnCnt 1 s.bte), inbox := l } := by
  have hen : engine s.cfg (turningAt s 1 (.event .tick :: l)).bte .tick =
      .ok (afterTurn s.cfg e (turningAt s 1 (.event .tick :: l)).bte, []) := by
    refine (engine_tick_turnaround (by exact hs)).trans ?_
    by_cases h0 : e = 0 <;> simp [tickTurnaround, turningAt, he, afterTurn, h0]
  rw [(advance_event (s := turningAt s 1 (.event .tick :: l)) rfl hl rfl hen).2]
  simp [commit, setInbox, turningAt]

/-- The state in the receive window: bytes `xs` collected, `n` ticks left. -/
def receivingAt (s : State) (xs : List Byte) (n : Nat) (l : List Input) : State :=
  { s with bte := setToCnt n { s.bte with rxbuf := xs }, inbox := l }

/-- A stretch of the receive window that neither fills the count nor uses the time up (R148, R149). -/
theorem receive_lead {s : State} {e : Nat} (hl : legalCfg s.cfg = true) (hs : s.bte.st = .receiving)
    (he : s.bte.expLen = some e) (l : List Input) :
    ∀ w xs n, lineOnly w → xs.length + (arrivals w).length < e → tickCount w < n →
      Lead (fun s => s.bte.st = .receiving ∧ fetch s = none) w.length (receivingAt s xs n (events w ++ l))
        (receivingAt s (xs ++ arrivals w) (n - tickCount w) l) := by
  intro w
  induction w with
  | nil => intro xs n _ _ _; simpa [arrivals, tickCount] using Lead.here _
  | cons ev w ih =>
    intro xs n hw hx hn
    obtain ⟨hev, hw'⟩ := lineOnly_cons hw
    rcases hev with rfl | ⟨x, rfl⟩
    · simp only [arrivals, tickCount] at hx hn ⊢
      have hen : engine s.cfg (receivingAt s xs n (events (.tick :: w) ++ l)).bte .tick =
          .ok (setToCnt (n - 1) (receivingAt s xs n (events (.tick :: w) ++ l)).bte, []) := by
        refine (engine_tick_receiving (by exact hs)).trans ?_
        have : 1 < n := by omega
        simp [tickReceiving, receivingAt, he, this]
      obtain ⟨h1, h2⟩ := advance_event (s := receivingAt s xs n (events (.tick :: w) ++ l)) (l := events w ++ l) rfl hl rfl hen
      have hst : commit (setToCnt (n - 1) (receivingAt s xs n (events (.tick :: w) ++ l)).bte) []
          (setInbox (events w ++ l) (receivingAt s xs n (events (.tick :: w) ++ l))) =
          receivingAt s xs (n - 1) (events w ++ l) := by
        simp [commit, setInbox, receivingAt, setToCnt]
      rw [hst] at h2
      refine .there ⟨hs, rfl⟩ (by rw [h1]; simp) h2 ?_
      have := ih xs (n - 1) hw' hx (by omega)
      rwa [show n - 1 - tickCount w = n - (tickCount w + 1) by omega] at this
    · simp only [arrivals, tickCount, List.length_cons] at hx hn ⊢
      have hen : engine s.cfg (receivingAt s xs n (events (.rxByte x :: w) ++ l)).bte (.rxByte x) =
          .ok (capture x (receivingAt s xs n (events (.rxByte x :: w) ++ l)).bte, []) := by
        refine (engine_rx_receiving (by exact hs)).trans ?_
        have : ¬ xs.length + 1 = e := by omega
        simp [rxByteReceiving, receivingAt, he, this]
      obtain ⟨h1, h2⟩ := advance_event (s := receivingAt s xs n (events (.rxByte x :: w) ++ l)) (l := events w ++ l) rfl hl rfl hen
      have hst : commit (capture x (receivingAt s xs n (events (.rxByte x :: w) ++ l)).bte) []
          (setInbox (events w ++ l) (receivingAt s xs n (events (.rxByte x :: w) ++ l))) =
          receivingAt s (xs ++ [x]) n (events w ++ l) := by
        simp [commit, setInbox, receivingAt, setToCnt, capture]
      rw [hst] at h2
      refine .there ⟨hs, rfl⟩ (by rw [h1]; simp) h2 ?_
      simpa using ih (xs ++ [x]) n hw' (by simp; omega) hn

/-- The byte that satisfies the count (R149). -/
theorem receive_last_byte {s : State} {e : Nat} {xs : List Byte} {x : Byte} {n : Nat} {l : List Input} {r : Result}
    (hl : legalCfg s.cfg = true) (hs : s.bte.st = .receiving) (he : s.bte.expLen = some e)
    (hx : xs.length + 1 = e) (hr : decodeStatus (xs ++ [x]) e = some r) :
    advance (receivingAt s xs n (.event (.rxByte x) :: l)) =
      .next { s with bte := complete r (consumeRx (setToCnt n s.bte)), inbox := l } := by
  have hen : engine s.cfg (receivingAt s xs n (.event (.rxByte x) :: l)).bte (.rxByte x) =
      .ok (complete r (consumeRx (capture x (receivingAt s xs n (.event (.rxByte x) :: l)).bte)), []) := by
    refine (engine_rx_receiving (by exact hs)).trans ?_
    simp [rxByteReceiving, receivingAt, he, hx, endReceive, hr]
  rw [(advance_event (s := receivingAt s xs n _) (l := l) rfl hl rfl hen).2]
  simp [commit, setInbox, receivingAt, setToCnt, capture, consumeRx, complete]

/-- The tick on which the timeout elapses (R148). -/
theorem receive_last_tick {s : State} {e : Nat} {xs : List Byte} {l : List Input} {r : Result}
    (hl : legalCfg s.cfg = true) (hs : s.bte.st = .receiving) (he : s.bte.expLen = some e)
    (hr : decodeStatus xs e = some r) :
    advance (receivingAt s xs 1 (.event .tick :: l)) =
      .next { s with bte := complete r (consumeRx (setToCnt 1 s.bte)), inbox := l } := by
  have hen : engine s.cfg (receivingAt s xs 1 (.event .tick :: l)).bte .tick =
      .ok (complete r (consumeRx (receivingAt s xs 1 (.event .tick :: l)).bte), []) := by
    refine (engine_tick_receiving (by exact hs)).trans ?_
    simp [tickReceiving, receivingAt, he, endReceive, hr]
  rw [(advance_event (s := receivingAt s xs 1 (.event .tick :: l)) rfl hl rfl hen).2]
  simp [commit, setInbox, receivingAt, setToCnt, consumeRx, complete]

/-- The engine's record once the head `(c, q)` of the queue is loaded for sending (R144). -/
def loadedFor (c : Nat) (q : Request) (rest : List (Nat × Request)) (b : Bte) : Bte :=
  { b with
    queue     := rest
    curClient := some c
    curReq    := some q
    txbuf     := some (encodeRequest q)
    expLen    := some (expectedLen q)
    dir       := .tx
    rxbuf     := [] }

/-- The start transition (R144). -/
theorem start_tick {s : State} {c : Nat} {q : Request} {rest : List (Nat × Request)} (hl : legalCfg s.cfg = true)
    (hs : s.bte.st = .idle) (hq : s.bte.queue = (c, q) :: rest) (hv : validate q = true) {l : List Input}
    (hi : s.inbox = .event .tick :: l) :
    nextEvent s = .tick ∧
    advance s = .next (sendAt { s with bte := { loadedFor c q rest s.bte with st := .sending } } (encodeRequest q) 0 0 l) := by
  have he : engine s.cfg s.bte .tick = .ok (beginSend s.cfg q (acquireLock c q rest s.bte), []) := by
    refine (engine_tick_idle hs).trans ?_
    simp [tickIdle, hq, hv]
  obtain ⟨h1, h2⟩ := advance_event hi hl rfl he
  refine ⟨h1, h2.trans ?_⟩
  simp [commit, setInbox, sendAt, loadedFor, beginSend, acquireLock]

/-- Bytes from the line before the start transition: only the receive buffer can change (R126, R153). -/
theorem idle_noise_lead (l : List Input) :
    ∀ (u : List Event) (s : State), legalCfg s.cfg = true → s.bte.st = .idle → s.inbox = events u ++ l →
      lineOnly u → tickCount u = 0 →
      ∃ xs, Lead (fun t => nextEvent t ≠ .tick ∧ t.bte.st = .idle ∧ t.bte.queue = s.bte.queue) u.length s
        { s with bte := { s.bte with rxbuf := xs }, inbox := l } := by
  intro u
  induction u with
  | nil =>
    intro s _ _ hi _ _
    have hs : ({ s with bte := { s.bte with rxbuf := s.bte.rxbuf }, inbox := l } : State) = s := by
      have : s.inbox = l := by simpa using hi
      rw [← this]
    exact ⟨s.bte.rxbuf, by rw [hs]; exact .here s⟩
  | cons e u ih =>
    intro s hl hs hi hw hu
    obtain ⟨he, hw'⟩ := lineOnly_cons hw
    rcases he with rfl | ⟨x, rfl⟩
    · simp [tickCount] at hu
    · have hr : s.bte.st ≠ .receiving := by rw [hs]; simp
      obtain ⟨ys, hy⟩ : ∃ ys, rxByteElsewhere s.cfg x s.bte = ({ s.bte with rxbuf := ys }, []) := by
        rcases rxByteElsewhere_cases s.cfg x s.bte with ⟨-, h⟩ | ⟨-, -, h⟩ | ⟨-, -, h⟩
        · exact ⟨s.bte.rxbuf, h⟩
        · exact ⟨_, h⟩
        · exact ⟨s.bte.rxbuf, h⟩
      have hen : engine s.cfg s.bte (.rxByte x) = .ok ({ s.bte with rxbuf := ys }, []) := by
        rw [engine_rx_elsewhere hr, hy]
      obtain ⟨h1, h2⟩ := advance_event (s := s) (l := events u ++ l) (by simpa using hi) hl rfl hen
      obtain ⟨xs, hx⟩ := ih (commit { s.bte with rxbuf := ys } [] (setInbox (events u ++ l) s)) hl hs rfl hw'
        (by simpa [tickCount] using hu)
      refine ⟨xs, .there ⟨by rw [h1]; simp, hs, rfl⟩ (by rw [h1]; simp) h2 ?_⟩
      simpa [commit, setInbox] using hx

end Sys2Proof.Machine
end

