-- ==== Sys2Proof/Laws/Transact.lean ====
section
/-! SUPPORT. One whole transaction from an idle block (R155, R156, R157): the way to the receive window, and the window. -/

namespace Sys2Proof.Machine

/-- Not the tick that retires a transaction. -/
def NotRetire (s : State) : Prop := ¬(nextEvent s = .tick ∧ s.bte.st = .completed)

theorem notRetire_of_st {s : State} (h : s.bte.st ≠ .completed) : NotRetire s := fun ⟨_, hc⟩ => h hc

theorem inSend_idle {b : Bte} {c : Nat} {q : Request} {rest : List (Nat × Request)} (hs : b.st = .idle)
    (hq : b.queue = (c, q) :: rest) (hv : validate q = true) : inSend b = true := by
  simp [inSend, dueFrame, hs, hq, hv]

theorem inSend_sending {b : Bte} {f : List Byte} (hs : b.st = .sending) (hf : b.txbuf = some f) : inSend b = true := by
  simp [inSend, dueFrame, hs, hf]

/-- From `Idle` with a valid head to the tick that drains its frame (R120, R144, R145), whatever the line does meanwhile. -/
theorem drain_lead {s : State} {c : Nat} {q : Request} {rest : List (Nat × Request)} (hl : legalCfg s.cfg = true)
    (hs : s.bte.st = .idle) (hq : s.bte.queue = (c, q) :: rest) (hv : validate q = true) {w : List Event} {l : List Input}
    (hw : lineOnly w) (hn : tickCount w = (encodeRequest q).length * s.cfg.tByte)
    (hi : s.inbox = events w ++ .event .tick :: l) :
    ∃ t, Lead (fun t => t.bte.st ≠ .completed ∧ inSend t.bte = true) w.length s t ∧ inSend t.bte = true ∧
      t.bte.st ≠ .completed ∧ nextEvent t = .tick ∧ advance t = .next { drainedState s c q rest l with ret := s.ret } := by
  have hb : 1 ≤ s.cfg.tByte := ((legalCfg_iff _).1 hl).2.2.1
  have hpos := encodeRequest_length_pos q
  have hN : 0 < (encodeRequest q).length * s.cfg.tByte := Nat.mul_pos hpos (by omega)
  obtain ⟨u, v, rfl, hu, hv', hut, hvt⟩ := split_at_tick hw (a := 0)
    (b := (encodeRequest q).length * s.cfg.tByte - 1) (by omega)
  obtain ⟨xs, l1⟩ := idle_noise_lead (events (.tick :: v) ++ .event .tick :: l) u s hl hs
    (by rw [hi]; simp) hu hut
  obtain ⟨n1, a1⟩ := start_tick (s := { s with bte := { s.bte with rxbuf := xs }, inbox := events (.tick :: v) ++ .event .tick :: l })
    (c := c) (q := q) (rest := rest) (l := events v ++ .event .tick :: l) hl hs hq hv rfl
  let base : State := { s with bte := { loadedFor c q rest s.bte with st := .sending } }
  have l3 := send_lead (s := base) (f := encodeRequest q) hl rfl rfl rfl (i := 0) (.event .tick :: l) v 0 hv'
    (Nat.zero_le _) (by rw [hvt, show base.cfg = s.cfg from rfl]; omega)
  rw [Nat.zero_add, hvt] at l3
  have a4 := send_last (s := base) (f := encodeRequest q) (i := 0)
    (k := (encodeRequest q).length * s.cfg.tByte - 1) hl rfl rfl (Nat.zero_le _)
    (by rw [show base.cfg = s.cfg from rfl]; omega) l
  have p1 := l1.mono (Q := fun t => t.bte.st ≠ .completed ∧ inSend t.bte = true)
    (fun t ⟨_, h2, h3⟩ => ⟨by rw [h2]; simp, inSend_idle h2 (h3.trans hq) hv⟩)
  have p2 := Lead.one (P := fun t => t.bte.st ≠ .completed ∧ inSend t.bte = true)
    (s := { s with bte := { s.bte with rxbuf := xs }, inbox := events (.tick :: v) ++ .event .tick :: l })
    ⟨by rw [show ({ s with bte := { s.bte with rxbuf := xs }, inbox := _ } : State).bte.st = .idle from hs]; simp,
      inSend_idle hs hq hv⟩ (by rw [n1]; simp) a1
  have p3 := l3.mono (Q := fun t => t.bte.st ≠ .completed ∧ inSend t.bte = true) 
    (fun t ⟨h2, h3, _⟩ => ⟨by rw [h2]; simp, inSend_sending h2 h3⟩)
  have hall := (p1.trans p2).trans p3
  refine ⟨_, ?_, ?_, ?_, ?_, a4.trans ?_⟩
  · simpa only [List.length_append, List.length_cons, Nat.add_assoc, Nat.add_comm 1] using hall
  · exact inSend_sending (b := (sendAt base (encodeRequest q) 0 _ _).bte) rfl rfl
  · rw [show (sendAt base (encodeRequest q) 0 _ _).bte.st = .sending from rfl]; simp
  · rfl
  · simp [base, drainedState, loadedFor, frameOutputs]

theorem ReadyFor.accepts {c : Nat} {s : State} (h : ReadyFor c s) (q : Request) :
    cmdReady s.cfg s.bte = true ∧
      applyEvent (.submit c q) s = .next (commit (enqueue c q s.bte) [.accepted c] s) := by
  have hq := (legalCfg_iff _).1 h.legal
  have hr : cmdReady s.cfg s.bte = true := by simp [cmdReady, h.queue]; omega
  refine ⟨hr, applyEvent_of_engine h.legal (by simp [stranger, h.client]) ?_⟩
  simp [engine, onSubmit, hr]

/-- The machine at the end of the turnaround delay of `q`, served at once for client `c` from `s` (R146, R150). -/
def windowState (s : State) (c : Nat) (q : Request) (l : List Input) : State :=
  { s with
    bte   := afterTurn s.cfg (expectedLen q) { (drainedState s c q [] l).bte with turnCnt := some 1 }
    inbox := l
    out   := s.out ++ (.accepted c :: frameOutputs q) }

/-- From an accepted valid request to the end of its turnaround delay (R144, R145, R146), whatever the line does meanwhile. -/
theorem transact_to_window {c : Nat} {s : State} {q : Request} (h : ReadyFor c s) (hv : validate q = true)
    {w : List Event} {l : List Input} (hw : lineOnly w) (hn : tickCount w + 1 = ticksToWindow s.cfg q)
    (hi : s.inbox = events w ++ .event .tick :: l) :
    Lead NotRetire (w.length + 1) (commit (enqueue c q s.bte) [.accepted c] s) (windowState s c q l) := by
  have hcfg := (legalCfg_iff _).1 h.legal
  obtain ⟨u, v, rfl, hu, hv', hut, hvt⟩ := split_at_tick hw (a := (encodeRequest q).length * s.cfg.tByte)
    (b := s.cfg.tTurn - 1) (by simp only [ticksToWindow] at hn; omega)
  obtain ⟨t, l1, -, hc, n1, a1⟩ := drain_lead (s := commit (enqueue c q s.bte) [.accepted c] s) (c := c) (q := q)
    (rest := []) (l := events v ++ .event .tick :: l) h.legal h.idle (by simp [h.queue]) hv hu hut
    (by simpa using hi)
  let mid : State :=
    { drainedState s c q [] l with
      out := s.out ++ (.accepted c :: frameOutputs q)
      ret := s.ret }
  have st2 : ({ drainedState (commit (enqueue c q s.bte) [.accepted c] s) c q [] (events v ++ .event .tick :: l) with
      ret := s.ret } : State) = turningAt mid s.cfg.tTurn (events v ++ .event .tick :: l) := by
    simp [drainedState, turningAt, mid, setTurnCnt, commit, enqueue]
  rw [show (commit (enqueue c q s.bte) [.accepted c] s).ret = s.ret from rfl, st2] at a1
  have l3 := turn_lead (s := mid) (e := expectedLen q) h.legal rfl rfl rfl (.event .tick :: l) v s.cfg.tTurn hv'
    (by omega)
  rw [hvt, show s.cfg.tTurn - (s.cfg.tTurn - 1) = 1 by omega] at l3
  have a4 := turn_last (s := mid) (e := expectedLen q) h.legal rfl rfl l
  have p1 := l1.mono (Q := NotRetire) (fun t ⟨h2, _⟩ => notRetire_of_st h2)
  have p2 := Lead.one (P := NotRetire) (notRetire_of_st hc) (by rw [n1]; simp) a1
  have p3 := l3.mono (Q := NotRetire) (fun t ⟨h2, _⟩ => notRetire_of_st (by rw [h2]; simp))
  have p4 := Lead.one (P := NotRetire) (s := turningAt mid 1 (.event .tick :: l))
    (notRetire_of_st (by rw [show (turningAt mid 1 _).bte.st = .awaitingTurnaround from rfl]; simp))
    (by simp [nextEvent, turningAt]) a4
  have hall : Lead NotRetire _ _ (windowState s c q l) := ((p1.trans p2).trans p3).trans p4
  simpa only [List.length_append, List.length_cons, Nat.add_assoc, Nat.add_comm 1] using hall

/-- A blocking call on a request that is accepted and served at once: it ends with the retirement of the state its events
lead to (R151). -/
theorem transact_ends {c : Nat} {s t : State} {q : Request} {r : Result} {j : Nat} {l : List Input} (h : ReadyFor c s)
    (hlead : Lead NotRetire j (commit (enqueue c q s.bte) [.accepted c] s) t) (hc : t.bte.st = .completed)
    (hcc : t.bte.curClient = some c) (hr : t.bte.result = some r) (hcfg : t.cfg = s.cfg)
    (hi : t.inbox = .event .tick :: l) (hj : j + 1 ≤ s.inbox.length) :
    transact c q s = .next { t with
      bte   := { t.bte with st := .idle }
      out   := t.out ++ [.done c r]
      inbox := l
      ret   := some (.result r) } := by
  obtain ⟨hr1, hr2⟩ := h.accepts q
  have he : engine t.cfg t.bte .tick = .ok (releaseLock t.bte, [.done c r]) := by
    rw [engine_tick_completed hc]; simp [tickCompleted, hcc, hr]
  obtain ⟨n, a⟩ := advance_event hi (hcfg ▸ h.legal) rfl he
  unfold transact
  rw [hr2]
  simp only [andThen_next, hr1, if_true]
  have hp : pendingDone (commit (enqueue c q s.bte) [.accepted c] s).bte = 1 := by
    simp [pendingDone, h.queue, h.idle]
  rw [hp, awaitDone_exit hlead n hc hr a (by rw [show (commit _ _ s).inbox = s.inbox from rfl]; omega)]
  rfl

/-- A broadcast write, or any valid request that expects nothing (R150, R157). -/
theorem transact_broadcast {c : Nat} {s : State} {q : Request} (h : ReadyFor c s) (hv : validate q = true)
    (he : expectedLen q = 0) {w : List Event} {rest : List Input} (hw : lineOnly w)
    (hn : tickCount w + 1 = ticksToWindow s.cfg q) (hi : s.inbox = events (w ++ [.tick, .tick]) ++ rest) :
    transact c q s = .next (endedState s c q .tx s.bte.toCnt (.success [] errNone) rest) := by
  have hlead := transact_to_window h hv (l := .event .tick :: rest) hw hn (by rw [hi]; simp)
  rw [transact_ends h hlead (by simp [windowState, afterTurn, he]) (by simp [windowState, afterTurn, he, drainedState])
    (r := .success [] errNone) (by simp [windowState, afterTurn, he]) rfl rfl (by rw [hi]; simp)]
  simp [windowState, afterTurn, he, drainedState, endedState, complete]

/-- A request with a receive whose count is satisfied in the window (R155, R156): `v` is what happens in the window before
the last byte `x`. -/
theorem transact_answered {c : Nat} {s : State} {q : Request} (h : ReadyFor c s) (hv : validate q = true)
    (he : expectedLen q ≠ 0) {w v : List Event} {x : Byte} {r : Result} {rest : List Input} (hw : lineOnly w)
    (hn : tickCount w + 1 = ticksToWindow s.cfg q) (hv' : lineOnly v) (hk : tickCount v < s.cfg.tTimeout)
    (hx : (arrivals v).length + 1 = expectedLen q)
    (hr : decodeStatus (arrivals v ++ [x]) (expectedLen q) = some r)
    (hi : s.inbox = events (w ++ .tick :: v ++ [.rxByte x, .tick]) ++ rest) :
    transact c q s = .next (endedState s c q .rx (some (s.cfg.tTimeout - tickCount v)) r rest) := by
  have hlead := transact_to_window h hv (l := events v ++ .event (.rxByte x) :: .event .tick :: rest) hw hn
    (by rw [hi]; simp)
  let win : State := windowState s c q []
  have hwin : Lead (fun s => s.bte.st = .receiving ∧ fetch s = none) v.length
      (receivingAt win [] s.cfg.tTimeout (events v ++ .event (.rxByte x) :: .event .tick :: rest)) _ :=
    receive_lead (s := win) (e := expectedLen q) h.legal (by simp [win, windowState, afterTurn, he])
      (by simp [win, windowState, afterTurn, he, drainedState]) _ v [] s.cfg.tTimeout hv' (by simp; omega) hk
  have hst : windowState s c q (events v ++ .event (.rxByte x) :: .event .tick :: rest) =
      receivingAt win [] s.cfg.tTimeout (events v ++ .event (.rxByte x) :: .event .tick :: rest) := by
    simp [win, windowState, afterTurn, he, drainedState, receivingAt, setToCnt, beginReceive]
  rw [hst] at hlead
  have a2 := receive_last_byte (s := win) (xs := [] ++ arrivals v) (x := x) (n := s.cfg.tTimeout - tickCount v)
    (e := expectedLen q) (l := .event .tick :: rest) h.legal (by simp [win, windowState, afterTurn, he])
    (by simp [win, windowState, afterTurn, he, drainedState]) (by simpa using hx) (by simpa using hr)
  have p2 := hwin.mono (Q := NotRetire) (fun t ⟨h2, _⟩ => notRetire_of_st (by rw [h2]; simp))
  have p3 := Lead.one (P := NotRetire)
    (s := receivingAt win ([] ++ arrivals v) (s.cfg.tTimeout - tickCount v) (.event (.rxByte x) :: .event .tick :: rest))
    (by rintro ⟨hc, -⟩; simp [nextEvent, receivingAt] at hc) (by simp [nextEvent, receivingAt]) a2
  rw [transact_ends h ((hlead.trans p2).trans p3) rfl
    (by simp [win, windowState, afterTurn, he, drainedState]) (r := r) rfl rfl rfl
    (by rw [hi]; simp; omega)]
  simp [win, windowState, afterTurn, he, drainedState, endedState, complete, consumeRx, setToCnt, beginReceive]

/-- A request whose receive window closes before the count is satisfied (R148, R202, R203): `v` is what happens in the
window before its last tick. -/
theorem transact_unanswered {c : Nat} {s : State} {q : Request} (h : ReadyFor c s) (hv : validate q = true)
    {w v : List Event} {rest : List Input} (hw : lineOnly w) (hn : tickCount w + 1 = ticksToWindow s.cfg q)
    (hv' : lineOnly v) (hk : tickCount v + 1 = s.cfg.tTimeout) (hx : (arrivals v).length < expectedLen q)
    (hi : s.inbox = events (w ++ .tick :: v ++ [.tick, .tick]) ++ rest) :
    transact c q s = .next (endedState s c q .rx (some 1) (.failure (lateReason (arrivals v))) rest) := by
  have he : expectedLen q ≠ 0 := by omega
  have h6 := ((expectedLen_range q hv).resolve_left he).1
  have hlead := transact_to_window h hv (l := events v ++ .event .tick :: .event .tick :: rest) hw hn
    (by rw [hi]; simp)
  let win : State := windowState s c q []
  have hwin : Lead (fun s => s.bte.st = .receiving ∧ fetch s = none) v.length
      (receivingAt win [] s.cfg.tTimeout (events v ++ .event .tick :: .event .tick :: rest)) _ :=
    receive_lead (s := win) (e := expectedLen q) h.legal (by simp [win, windowState, afterTurn, he])
      (by simp [win, windowState, afterTurn, he, drainedState]) _ v [] s.cfg.tTimeout hv' (by simpa using hx) (by omega)
  have hst : windowState s c q (events v ++ .event .tick :: .event .tick :: rest) =
      receivingAt win [] s.cfg.tTimeout (events v ++ .event .tick :: .event .tick :: rest) := by
    simp [win, windowState, afterTurn, he, drainedState, receivingAt, setToCnt, beginReceive]
  rw [hst] at hlead
  rw [show s.cfg.tTimeout - tickCount v = 1 by omega] at hwin
  have hdec : decodeStatus ([] ++ arrivals v) (expectedLen q) = some (.failure (lateReason (arrivals v))) := by
    rw [List.nil_append, lateReason]
    by_cases h0 : arrivals v = []
    · rw [h0, if_pos rfl, decodeStatus_empty _ h6]
    · rw [if_neg h0, decodeStatus_short _ _ h6 h0 (by omega)]
  have a2 := receive_last_tick (s := win) (xs := [] ++ arrivals v) (e := expectedLen q) (l := .event .tick :: rest) h.legal
    (by simp [win, windowState, afterTurn, he]) (by simp [win, windowState, afterTurn, he, drainedState]) hdec
  have p2 := hwin.mono (Q := NotRetire) (fun t ⟨h2, _⟩ => notRetire_of_st (by rw [h2]; simp))
  have p3 := Lead.one (P := NotRetire) (s := receivingAt win ([] ++ arrivals v) 1 (.event .tick :: .event .tick :: rest))
    (notRetire_of_st (by rw [show (receivingAt win ([] ++ arrivals v) 1 _).bte.st = win.bte.st from rfl];
                         simp [win, windowState, afterTurn, he])) (by simp [nextEvent, receivingAt]) a2
  rw [transact_ends h ((hlead.trans p2).trans p3) rfl
    (by simp [win, windowState, afterTurn, he, drainedState]) (r := .failure (lateReason (arrivals v))) rfl rfl rfl
    (by rw [hi]; simp; omega)]
  simp [win, windowState, afterTurn, he, drainedState, endedState, complete, consumeRx, setToCnt, beginReceive]

/-- A request that fails `Validate` (R144, R201): two ticks, nothing on the line. -/
theorem transact_invalid {c : Nat} {s : State} {q : Request} (h : ReadyFor c s) (hv : validate q = false)
    {rest : List Input} (hi : s.inbox = events [.tick, .tick] ++ rest) :
    transact c q s = .next (refusedState s c q rest) := by
  have e1 : engine s.cfg (commit (enqueue c q s.bte) [.accepted c] s).bte .tick =
      .ok (raiseFailure .constructionError (acquireLock c q [] (enqueue c q s.bte)), []) := by
    refine (engine_tick_idle (by exact h.idle)).trans ?_
    simp [tickIdle, h.queue, hv]
  obtain ⟨n1, a1⟩ := advance_event (s := commit (enqueue c q s.bte) [.accepted c] s) (l := .event .tick :: rest)
    (by simpa using hi) h.legal rfl e1
  have l1 := Lead.one (P := NotRetire) (s := commit (enqueue c q s.bte) [.accepted c] s)
    (notRetire_of_st (by rw [show (commit (enqueue c q s.bte) [.accepted c] s).bte.st = s.bte.st from rfl, h.idle]; simp))
    (by rw [n1]; simp) a1
  rw [transact_ends h l1 rfl rfl (r := .failure .constructionError) rfl rfl rfl (by rw [hi]; simp)]
  simp [commit, setInbox, raiseFailure, complete, acquireLock, enqueue, h.idle, h.queue, refusedState]

end Sys2Proof.Machine
end

