-- ==== Sys2Proof/Laws/Phases.lean ====
section
/-! SUPPORT. What SEND, TURN, RECV, a frame on the line and a blocking call can answer from a good state, and that they keep
it good. -/

namespace Sys2Proof.Machine

/-- The ticks of one byte and of the bytes after it. -/
theorem sendTicks_eq {cfg : Cfg} {b : Bte} {f : List Byte} {i n : Nat} (hf : b.txbuf = some f) (hi : b.txIdx = some i)
    (hn : b.byteCnt = some n) : sendTicks cfg b = (f.length - 1 - i) * cfg.tByte + max 1 n := by
  simp [sendTicks, hf, hi, hn]

/-- SEND runs out (R262). -/
theorem sendPhase_settles {s : State} (h : Inv s) (hp : inSend s.bte = true) : Settles s (sendPhase s) := by
  refine runPhase_settles inSend _ sendPhaseTicks ?_ ?_ ?_ _ s h hp (Nat.le_refl _)
  · intro cfg b _
    unfold sendPhaseTicks
    split
    · omega
    · simp only [sendTicks]; omega
  · intro cfg b b' o hl hi hp hp' he
    cases hs : b.st with
    | idle =>
      rw [engine_tick_idle hs] at he
      injection he with he
      rcases tickIdle_cases cfg b with ⟨hq, -⟩ | ⟨c, q, rest, hq, ⟨hv, h2⟩ | ⟨hv, h2⟩⟩
      · simp [inSend, dueFrame, hs, hq] at hp
      · rw [h2] at he; injection he with h3 h4; subst h3
        have hlen := encodeRequest_length_pos q
        have hcfg := (legalCfg_iff _).1 hl
        have hsplit : (encodeRequest q).length * cfg.tByte = ((encodeRequest q).length - 1) * cfg.tByte + cfg.tByte := by
          conv_lhs => rw [show (encodeRequest q).length = ((encodeRequest q).length - 1) + 1 by omega, Nat.add_mul,
            Nat.one_mul]
        simp only [sendPhaseTicks, hs, if_true, dueFrame, hq, hv, beginSend_st, reduceCtorEq, if_false,
          Option.map_some, Option.getD_some]
        rw [sendTicks_eq (f := encodeRequest q) (i := 0) (n := cfg.tByte) rfl rfl rfl, hsplit]
        simp only [Nat.sub_zero]
        omega
      · simp [inSend, dueFrame, hs, hq, hv] at hp
    | sending =>
      rw [engine_tick_sending hs] at he
      obtain ⟨f, i, n, hf, hi', hn, hcase⟩ := tickSending_cases he
      have hrn := hi.ranges.byteCnt n hn
      rcases hcase with ⟨h1, rfl, -⟩ | ⟨h1, x, hx, -, ⟨h2, rfl⟩ | ⟨h2, rfl⟩⟩
      · simp only [sendPhaseTicks, hs, setByteCnt_st, reduceCtorEq, if_false]
        rw [sendTicks_eq hf hi' hn, sendTicks_eq (b := setByteCnt (n - 1) b) (f := f) (i := i) (n := n - 1) hf hi' rfl]
        omega
      · simp only [sendPhaseTicks, hs, nextByte_st, reduceCtorEq, if_false]
        rw [sendTicks_eq hf hi' hn,
          sendTicks_eq (b := nextByte cfg (i + 1) b) (f := f) (i := i + 1) (n := cfg.tByte) hf rfl rfl]
        have hsplit : f.length - 1 - i = (f.length - 1 - (i + 1)) + 1 := by omega
        rw [hsplit, Nat.add_mul]
        omega
      · simp [inSend, dueFrame] at hp'
    | awaitingTurnaround => simp [inSend, dueFrame, hs] at hp
    | receiving => simp [inSend, dueFrame, hs] at hp
    | completed => simp [inSend, dueFrame, hs] at hp
  · intro cfg b b' o e _ _ hp hp' hr ht he
    have hst : b.st = .idle ∨ b.st = .sending := by
      cases hs : b.st <;> simp [inSend, dueFrame, hs] at hp ⊢
    cases e with
    | reset => exact absurd rfl hr
    | tick => exact absurd rfl ht
    | rxByte x =>
      have hne : b.st ≠ .receiving := by rcases hst with h | h <;> rw [h] <;> simp
      rw [engine_rx_elsewhere hne] at he
      injection he with he
      rcases rxByteElsewhere_cases cfg x b with ⟨-, h⟩ | ⟨-, -, h⟩ | ⟨-, -, h⟩ <;> rw [h] at he <;>
        injection he with h3 h4 <;> subst h3
      · exact Nat.le_refl _
      · exact Nat.le_refl _
      · exact Nat.le_refl _
    | submit c q =>
      injection he with he
      rcases onSubmit_cases cfg c q b with ⟨-, h⟩ | ⟨-, h⟩ <;> rw [h] at he <;> injection he with h3 h4 <;> subst h3
      · cases hq : b.queue with
        | nil =>
          rcases hst with hs | hs
          · simp [inSend, dueFrame, hs, hq] at hp
          · simp [sendPhaseTicks, sendTicks, hs]
        | cons d rest => simp [sendPhaseTicks, sendTicks, dueFrame, hq]
      · exact Nat.le_refl _

/-- TURN runs out (R262). -/
theorem turn_settles {s : State} (h : Inv s) (hp : inTurnaround s.bte = true) :
    Settles s (runPhase inTurnaround (fun _ _ => .unit) (s.inbox.length + turnTicks s.bte) s) := by
  refine runPhase_settles inTurnaround _ (fun _ b => turnTicks b) ?_ ?_ ?_ _ s h hp (Nat.le_refl _)
  · intro cfg b _; simp only [turnTicks]; omega
  · intro cfg b b' o _ _ hp hp' he
    have hs : b.st = .awaitingTurnaround := by simpa [inTurnaround] using hp
    rw [engine_tick_turnaround hs] at he
    obtain ⟨n, e, hn, -, -, ⟨h1, rfl⟩ | ⟨-, -, rfl⟩ | ⟨-, -, rfl⟩⟩ := tickTurnaround_cases he
    · simp only [turnTicks, hn, setTurnCnt_turnCnt, Option.getD_some]; omega
    · simp [inTurnaround] at hp'
    · simp [inTurnaround] at hp'
  · intro cfg b b' o e _ _ hp _ hr ht he
    have hs : b.st = .awaitingTurnaround := by simpa [inTurnaround] using hp
    cases e with
    | reset => exact absurd rfl hr
    | tick => exact absurd rfl ht
    | rxByte x =>
      rw [engine_rx_elsewhere (by rw [hs]; simp)] at he
      injection he with he
      rcases rxByteElsewhere_cases cfg x b with ⟨-, h⟩ | ⟨-, -, h⟩ | ⟨-, -, h⟩ <;> rw [h] at he <;>
        injection he with h3 h4 <;> subst h3 <;> simp [turnTicks]
    | submit c q =>
      injection he with he
      rcases onSubmit_cases cfg c q b with ⟨-, h⟩ | ⟨-, h⟩ <;> rw [h] at he <;> injection he with h3 h4 <;> subst h3 <;>
        simp [turnTicks]

/-- RECV runs out (R262). -/
theorem recv_settles {s : State} (h : Inv s) (hp : inReceive s.bte = true) :
    Settles s (runPhase inReceive (fun b e => .bytes (collected b e)) (s.inbox.length + recvTicks s.bte) s) := by
  refine runPhase_settles inReceive _ (fun _ b => recvTicks b) ?_ ?_ ?_ _ s h hp (Nat.le_refl _)
  · intro cfg b _; simp only [recvTicks]; omega
  · intro cfg b b' o _ _ hp hp' he
    have hs : b.st = .receiving := by simpa [inReceive] using hp
    rw [engine_tick_receiving hs] at he
    obtain ⟨n, e, hn, -, -, ⟨h1, rfl⟩ | ⟨-, r, -, rfl⟩⟩ := tickReceiving_cases he
    · simp only [recvTicks, hn, setToCnt_toCnt, Option.getD_some]; omega
    · simp [inReceive] at hp'
  · intro cfg b b' o e _ _ hp hp' hr ht he
    have hs : b.st = .receiving := by simpa [inReceive] using hp
    cases e with
    | reset => exact absurd rfl hr
    | tick => exact absurd rfl ht
    | rxByte x =>
      rw [engine_rx_receiving hs] at he
      obtain ⟨e, -, -, ⟨-, rfl⟩ | ⟨-, r, -, rfl⟩⟩ := rxByteReceiving_cases he
      · simp [recvTicks]
      · simp [inReceive] at hp'
    | submit c q =>
      injection he with he
      rcases onSubmit_cases cfg c q b with ⟨-, h⟩ | ⟨-, h⟩ <;> rw [h] at he <;> injection he with h3 h4 <;> subst h3 <;>
        simp [recvTicks]

/-- A frame heard is over: it answers a good state with the inputs untouched. -/
theorem hearFrame_settles :
    ∀ (f : List Byte) {s : State}, Inv s → ∃ t, hearFrame f s = .next t ∧ Inv t ∧ t.cfg = s.cfg ∧ t.inbox = s.inbox := by
  intro f
  induction f with
  | nil => intro s h; exact ⟨_, rfl, h.giveBack _, rfl, rfl⟩
  | cons x f ih =>
    intro s h
    obtain ⟨t, ht, hi, hc, hb⟩ := applyEvent_inv (e := .rxByte x) h rfl
    obtain ⟨u, hu, hui, huc, hub⟩ := ih hi
    exact ⟨u, by rw [hearFrame, ht]; exact hu, hui, huc.trans hc, hub.trans hb⟩

/-- A blocking call ends (R262): in a good state it answers a good state, or an input that is no event is refused. -/
theorem transact_settles {s : State} (h : Inv s) {c : Nat} {q : Request} (hc : c < s.cfg.nClients) :
    Settles s (transact c q s) := by
  have hst : stranger s.cfg (.submit c q) = none := by simp [stranger, hc]
  obtain ⟨t, ht, hti, htc, htb⟩ := applyEvent_inv h hst
  obtain ⟨-, -, b, o, he, hte⟩ := applyEvent_eq_next ht
  unfold transact
  rw [ht]
  simp only [andThen_next]
  by_cases hr : cmdReady s.cfg s.bte = true
  · rw [if_pos hr]
    injection he with he
    have hb : t.bte = enqueue c q s.bte := by
      rw [hte]; simp only [onSubmit, hr, if_true] at he; injection he with h3 h4; rw [← h3]; rfl
    have hpd : 1 ≤ pendingDone t.bte := by rw [hb]; simp [pendingDone]; omega
    have := awaitDone_settles (t.inbox.length + pendingTicks t.cfg t.bte) (pendingDone t.bte) t hti hpd (Nat.le_refl _)
      (by rw [ticksFor_pendingDone])
    rcases this with ⟨u, hu, hui, huc⟩ | ⟨c', e, hu, hm, hs'⟩
    · exact Or.inl ⟨u, hu, hui, huc.trans htc⟩
    · exact Or.inr ⟨c', e, hu, htb ▸ hm, htc ▸ hs'⟩
  · rw [if_neg hr]
    exact Or.inl ⟨_, rfl, hti.giveBack _, htc⟩

/-- An operation of the engine that keeps good states good and never faults in one. -/
def Keeps (f : State → Host.Outcome State Fault Refusal) : Prop :=
  ∀ s, Inv s → NoFault (f s) ∧ ∀ t, f s = .next t → Inv t ∧ t.cfg = s.cfg

theorem Settles.keeps {s : State} {o : Host.Outcome State Fault Refusal} (h : Settles s o) :
    NoFault o ∧ ∀ t, o = .next t → Inv t ∧ t.cfg = s.cfg := by
  refine ⟨h.noFault, fun t ht => ?_⟩
  rcases h with ⟨u, hu, hi, hc⟩ | ⟨c, e, hr, -⟩
  · rw [ht] at hu; injection hu with hu; exact ⟨hu ▸ hi, hu ▸ hc⟩
  · rw [ht] at hr; cases hr

theorem keeps_giveBack (v : State → Return) : Keeps fun s => .next (giveBack (v s) s) := by
  refine fun s h => ⟨?_, ?_⟩
  · intro f hf; cases hf
  · intro t ht
    injection ht with ht
    exact ht ▸ ⟨h.giveBack _, rfl⟩

theorem keeps_refused (s : State) (r : Refusal) :
    NoFault (.refused r) ∧ ∀ t, (Host.Outcome.refused r : Host.Outcome State Fault Refusal) = .next t → Inv t ∧ t.cfg = s.cfg :=
  ⟨fun f hf => (by cases hf), fun t ht => (by cases ht)⟩

theorem keeps_hearFrame (f : List Byte) : Keeps (hearFrame f) := by
  intro s h
  obtain ⟨t, ht, hi, hc, hb⟩ := hearFrame_settles f h
  exact Settles.keeps (Or.inl ⟨t, ht, hi, hc⟩)

theorem keeps_carryFrame (f : List Byte) : Keeps (carryFrame f) := by
  intro s h
  unfold carryFrame
  split
  · rename_i hd
    exact (sendPhase_settles h (by simp [inSend, hd])).keeps
  · exact keeps_hearFrame f s h

theorem keeps_transact (c : Nat) (q : Request) : Keeps (transact c q) := by
  intro s h
  by_cases hc : c < s.cfg.nClients
  · exact (transact_settles h hc).keeps
  · have : transact c q s = .refused (.notAClient c) := by
      unfold transact
      rw [applyEvent_stranger h.legal (c := c) (by simp [stranger, hc])]
      rfl
    rw [this]
    exact keeps_refused s _

end Sys2Proof.Machine
end

