-- ==== Sys2Proof/Laws/Answer.lean ====
section
/-! SUPPORT. Whose `Done` a blocking call waits for, and with what result (R141, R159, R160, R165). -/

namespace Sys2Proof.Machine

/-- 1 while a transaction is in progress (R20). -/
def busyOne (b : Bte) : Nat := if b.st = .idle then 0 else 1

/-- The `todo`-th `Done` from here is the one of `q` for client `c`: `q` is in the queue at that place, or it is the
transaction in progress. -/
def Awaits (b : Bte) (todo c : Nat) (q : Request) : Prop :=
  (∃ m, todo = m + 1 + busyOne b ∧ b.queue[m]? = some (c, q)) ∨
  (todo = 1 ∧ b.st ≠ .idle ∧ b.curClient = some c ∧ b.curReq = some q ∧
    (b.st = .completed → ∃ r raw, b.result = some r ∧ execResult q raw = some r))

theorem Awaits.of_same {b b' : Bte} {todo c : Nat} {q : Request} (h : Awaits b todo c q) (h1 : busyOne b' = busyOne b)
    (h2 : b'.queue = b.queue) (h3 : b'.curClient = b.curClient) (h4 : b'.curReq = b.curReq)
    (h5 : b.st ≠ .idle → b.curReq = some q → b'.st = .completed →
      ∃ r raw, b'.result = some r ∧ execResult q raw = some r) : Awaits b' todo c q := by
  rcases h with ⟨m, hm, hq⟩ | ⟨ht, hs, hc, hr, -⟩
  · exact Or.inl ⟨m, by rw [h1]; exact hm, by rw [h2]; exact hq⟩
  · have hs' : b'.st ≠ .idle := by
      intro hx
      simp only [busyOne, hx, hs, if_true, if_false] at h1
      omega
    exact Or.inr ⟨ht, hs', h3.trans hc, h4.trans hr, h5 hs hr⟩

theorem execResult_received {q : Request} {raw : List Byte} {r : Result} (hv : validate q = true) (he : expectedLen q ≠ 0)
    (h : decodeStatus raw (expectedLen q) = some r) : execResult q raw = some r := by
  simp [execResult, hv, he, h]

/-- Every event but a `Reset` keeps a call waiting for its own `Done`; the retire tick brings it one nearer. -/
theorem Awaits.engine {cfg : Cfg} {b b' : Bte} {o : List Output} {e : Event} {todo c : Nat} {q : Request}
    (h : EngineInv cfg b) (ha : Awaits b todo c q) (hr : e ≠ .reset) (he : engine cfg b e = .ok (b', o)) :
    (¬(e = .tick ∧ b.st = .completed) → Awaits b' todo c q) ∧
    (e = .tick ∧ b.st = .completed → ∀ m, todo = m + 2 → Awaits b' (m + 1) c q) := by
  cases e with
  | reset => exact absurd rfl hr
  | submit c' q' =>
    refine ⟨fun _ => ?_, fun ⟨hx, _⟩ => by cases hx⟩
    injection he with he
    rcases onSubmit_cases cfg c' q' b with ⟨-, h2⟩ | ⟨-, h2⟩ <;> rw [h2] at he <;> injection he with h3 h4 <;> subst h3
    · rcases ha with ⟨m, hm, hq⟩ | hB
      · refine Or.inl ⟨m, hm, ?_⟩
        have hlt : m < b.queue.length := (List.getElem?_eq_some_iff.1 hq).1
        rw [enqueue_queue, List.getElem?_append_left hlt, hq]
      · exact Or.inr hB
    · exact ha
  | rxByte x =>
    refine ⟨fun _ => ?_, fun ⟨hx, _⟩ => by cases hx⟩
    by_cases hs : b.st = .receiving
    · rw [engine_rx_receiving hs] at he
      obtain ⟨hd, q0, n, hL, h6, -, -⟩ := h.receiving hs
      obtain ⟨e, hel, -, ⟨-, rfl⟩ | ⟨-, r, hdec, rfl⟩⟩ := rxByteReceiving_cases he
      · exact ha.of_same rfl rfl rfl rfl (fun _ _ hx => by simp [hs] at hx)
      · refine ha.of_same (by simp [busyOne, hs]) rfl rfl rfl (fun _ hq _ => ⟨r, b.rxbuf ++ [x], rfl, ?_⟩)
        have : q0 = q := by have := hL.1.symm.trans hq; injection this
        subst this
        have : e = expectedLen q0 := by have := hel.symm.trans hL.2.2.2; injection this
        subst this
        exact execResult_received hL.2.1 (by omega) hdec
    · rw [engine_rx_elsewhere hs] at he
      injection he with he
      rcases rxByteElsewhere_cases cfg x b with ⟨-, h2⟩ | ⟨-, -, h2⟩ | ⟨-, -, h2⟩ <;> rw [h2] at he <;>
        injection he with h3 h4 <;> subst h3 <;> exact ha
  | tick =>
    cases hs : b.st with
    | idle =>
      refine ⟨fun _ => ?_, fun ⟨_, hx⟩ => by cases hx⟩
      rw [engine_tick_idle hs] at he
      injection he with he
      rcases ha with ⟨m, hm, hq⟩ | ⟨-, hx, -⟩
      · simp only [busyOne, hs, if_true, Nat.add_zero] at hm
        rcases tickIdle_cases cfg b with ⟨h0, -⟩ | ⟨c0, q0, rest, h0, ⟨hv, h2⟩ | ⟨hv, h2⟩⟩
        · rw [h0] at hq; simp at hq
        · rw [h2] at he; injection he with h3 h4; subst h3
          cases m with
          | zero =>
            rw [h0] at hq; simp at hq
            exact Or.inr ⟨by omega, by simp, by simp [hq.1], by simp [hq.2], by simp⟩
          | succ m =>
            rw [h0] at hq
            exact Or.inl ⟨m, by simp [busyOne]; omega, by simpa using hq⟩
        · rw [h2] at he; injection he with h3 h4; subst h3
          cases m with
          | zero =>
            rw [h0] at hq; simp at hq
            refine Or.inr ⟨by omega, by simp, by simp [hq.1], by simp [hq.2], fun _ => ⟨_, [], rfl, ?_⟩⟩
            simp [execResult, ← hq.2, hv]
          | succ m =>
            rw [h0] at hq
            exact Or.inl ⟨m, by simp [busyOne]; omega, by simpa using hq⟩
      · exact absurd hs hx
    | sending =>
      refine ⟨fun _ => ?_, fun ⟨_, hx⟩ => by cases hx⟩
      rw [engine_tick_sending hs] at he
      obtain ⟨f, i, n, -, -, -, hcase⟩ := tickSending_cases he
      rcases hcase with ⟨-, rfl, -⟩ | ⟨-, x, -, -, ⟨-, rfl⟩ | ⟨-, rfl⟩⟩
      · exact ha.of_same rfl rfl rfl rfl (fun _ _ hx => by simp [hs] at hx)
      · exact ha.of_same rfl rfl rfl rfl (fun _ _ hx => by simp [hs] at hx)
      · exact ha.of_same (by simp [busyOne, hs]) rfl rfl rfl (fun _ _ hx => by simp at hx)
    | awaitingTurnaround =>
      refine ⟨fun _ => ?_, fun ⟨_, hx⟩ => by cases hx⟩
      rw [engine_tick_turnaround hs] at he
      obtain ⟨-, -, q0, n0, hL, -, -⟩ := h.turnaround hs
      obtain ⟨n, e, -, hel, -, ⟨-, rfl⟩ | ⟨-, h0, rfl⟩ | ⟨-, -, rfl⟩⟩ := tickTurnaround_cases he
      · exact ha.of_same rfl rfl rfl rfl (fun _ _ hx => by simp [hs] at hx)
      · refine ha.of_same (by simp [busyOne, hs]) rfl rfl rfl (fun _ hq _ => ⟨_, [], rfl, ?_⟩)
        have : q0 = q := by have := hL.1.symm.trans hq; injection this
        subst this
        have : e = expectedLen q0 := by have := hel.symm.trans hL.2.2.2; injection this
        simp [execResult, hL.2.1, ← this, h0]
      · exact ha.of_same (by simp [busyOne, hs]) rfl rfl rfl (fun _ _ hx => by simp at hx)
    | receiving =>
      refine ⟨fun _ => ?_, fun ⟨_, hx⟩ => by cases hx⟩
      rw [engine_tick_receiving hs] at he
      obtain ⟨hd, q0, n0, hL, h6, -, -⟩ := h.receiving hs
      obtain ⟨n, e, -, hel, -, ⟨-, rfl⟩ | ⟨-, r, hdec, rfl⟩⟩ := tickReceiving_cases he
      · exact ha.of_same rfl rfl rfl rfl (fun _ _ hx => by simp [hs] at hx)
      · refine ha.of_same (by simp [busyOne, hs]) rfl rfl rfl (fun _ hq _ => ⟨r, b.rxbuf, rfl, ?_⟩)
        have : q0 = q := by have := hL.1.symm.trans hq; injection this
        subst this
        have : e = expectedLen q0 := by have := hel.symm.trans hL.2.2.2; injection this
        subst this
        exact execResult_received hL.2.1 (by omega) hdec
    | completed =>
      refine ⟨fun hx => absurd ⟨rfl, rfl⟩ hx, fun _ m hm => ?_⟩
      rw [engine_tick_completed hs] at he
      obtain ⟨c0, r, -, -, rfl, -⟩ := tickCompleted_cases he
      rcases ha with ⟨j, hj, hq⟩ | ⟨h1, -⟩
      · simp only [busyOne, hs, reduceCtorEq, if_false] at hj
        exact Or.inl ⟨j, by simp [busyOne]; omega, hq⟩
      · omega

/-- The wait for the `Done` of `q` for client `c` ends with that `Done` (R141). -/
theorem awaitDone_answers :
    ∀ k todo s t c q, Inv s → NoReset s.cfg s.inbox → Awaits s.bte todo c q → awaitDone k todo s = .next t →
      ∃ o r raw, t.out = s.out ++ o ++ [.done c r] ∧ t.ret = some (.result r) ∧ execResult q raw = some r ∧
        t.bte.st = .idle ∧ t.bte.curClient = some c ∧ t.bte.curReq = some q := by
  intro k
  induction k with
  | zero => intro todo s t c q _ _ _ h; simp [awaitDone] at h
  | succ k ih =>
    intro todo s t c q hi hn ha h
    rw [awaitDone] at h
    obtain ⟨s1, h1, h2⟩ := andThen_eq_next _ _ _ h
    obtain ⟨hi1, hc1⟩ := advance_keeps_inv hi h1
    obtain ⟨-, -, hb1, b, o, he, hs1⟩ := advance_eq_next h1
    have hnr : nextEvent s ≠ .reset := by
      rcases next_cases s with ⟨ht, -⟩ | ⟨l, hl, -⟩
      · rw [ht]; simp
      · exact (hn _ (hl ▸ List.mem_cons_self ..)).1
    have hn1 : NoReset s1.cfg s1.inbox := by
      intro e hm
      rw [hc1]
      refine hn e ?_
      rw [hb1] at hm
      rcases next_cases s with ⟨-, h3⟩ | ⟨l, h3, h4⟩
      · rw [← h3]; exact hm
      · rw [h3]; rw [h4] at hm; exact List.mem_cons_of_mem _ hm
    have hbte : s1.bte = b := by rw [hs1]; rfl
    have hout : s1.out = s.out ++ o := by rw [hs1]; rfl
    obtain ⟨hA, hB⟩ := ha.engine hi.inv hnr he
    rw [if_neg hnr] at h2
    by_cases hret : nextEvent s = .tick ∧ s.bte.st = .completed
    · rw [if_pos hret] at h2
      rw [hret.1, engine_tick_completed hret.2] at he
      obtain ⟨c0, r0, hc0, hr0, hb0, ho0⟩ := tickCompleted_cases he
      split at h2
      · simp at h2
      · rename_i r hr
        injection h2 with h2
        subst h2
        rcases ha with ⟨m, hm, -⟩ | ⟨-, -, hcl, hq, hx⟩
        · simp only [busyOne, hret.2, reduceCtorEq, if_false] at hm; omega
        · obtain ⟨r', raw, hr', hx'⟩ := hx hret.2
          have e1 : r' = r := by have := hr'.symm.trans hr; injection this
          have e2 : r0 = r := by have := hr0.symm.trans hr; injection this
          have e3 : c0 = c := by have := hc0.symm.trans hcl; injection this
          subst e1 e3
          refine ⟨[], r', raw, ?_, rfl, hx', ?_, ?_, ?_⟩
          · rw [giveBack_out, hout, ho0, e2]; simp
          · rw [giveBack_bte, hbte, hb0]; rfl
          · rw [giveBack_bte, hbte, hb0]; exact hcl
          · rw [giveBack_bte, hbte, hb0]; exact hq
      · simp at h2
      · rename_i m
        obtain ⟨o', r', raw, h3, h4⟩ := ih _ s1 t c q hi1 hn1 (hbte ▸ hB hret m rfl) h2
        exact ⟨o ++ o', r', raw, by rw [h3, hout]; simp, h4⟩
    · rw [if_neg hret] at h2
      obtain ⟨o', r', raw, h3, h4⟩ := ih _ s1 t c q hi1 hn1 (hbte ▸ hA hret) h2
      exact ⟨o ++ o', r', raw, by rw [h3, hout]; simp, h4⟩

end Sys2Proof.Machine
end

