-- ==== Sys2Proof/Laws/Moves.lean ====
section
/-! SUPPORT. What one event can do to a good state, all of it in one list (R142 to R154), so that a claim about every transition
is one case analysis. -/

namespace Sys2Proof.Machine

/-- What an event of a good state can do. -/
inductive Moves (cfg : Cfg) (b : Bte) : Event → Bte → List Output → Prop where
  | reset : Moves cfg b .reset Bte.reset []
  | accept (c q) (h : b.queue.length < cfg.qDepth) : Moves cfg b (.submit c q) (enqueue c q b) [.accepted c]
  | reject (c q) (h : ¬ b.queue.length < cfg.qDepth) : Moves cfg b (.submit c q) b [.rejected c]
  | rxMore (x e) (hs : b.st = .receiving) (he : b.expLen = some e) (h : b.rxbuf.length + 1 ≠ e) :
      Moves cfg b (.rxByte x) (capture x b) []
  | rxLast (x e r) (hs : b.st = .receiving) (he : b.expLen = some e) (h : b.rxbuf.length + 1 = e)
      (hr : decodeStatus (b.rxbuf ++ [x]) e = some r) :
      Moves cfg b (.rxByte x) (complete r (consumeRx (capture x b))) []
  | rxGated (x) (hs : b.st ≠ .receiving) : Moves cfg b (.rxByte x) b []
  | rxStale (x) (hs : b.st ≠ .receiving) (hd : b.dir = .rx) : Moves cfg b (.rxByte x) (capture x b) []
  | idle (hs : b.st = .idle) (hq : b.queue = []) : Moves cfg b .tick b []
  | start (c q rest) (hs : b.st = .idle) (hq : b.queue = (c, q) :: rest) (hv : validate q = true) :
      Moves cfg b .tick (beginSend cfg q (acquireLock c q rest b)) []
  | constructionError (c q rest) (hs : b.st = .idle) (hq : b.queue = (c, q) :: rest) (hv : validate q = false) :
      Moves cfg b .tick (raiseFailure .constructionError (acquireLock c q rest b)) []
  | shift (n) (hs : b.st = .sending) (hn : b.byteCnt = some n) (h : 1 < n) : Moves cfg b .tick (setByteCnt (n - 1) b) []
  | byteOut (f i x) (hs : b.st = .sending) (hn : b.byteCnt = some 1) (hf : b.txbuf = some f) (hi : b.txIdx = some i)
      (hx : f[i]? = some x) (h : i + 1 < f.length) : Moves cfg b .tick (nextByte cfg (i + 1) b) [.txByte x]
  | drain (f i x) (hs : b.st = .sending) (hn : b.byteCnt = some 1) (hf : b.txbuf = some f) (hi : b.txIdx = some i)
      (hx : f[i]? = some x) (h : i + 1 = f.length) : Moves cfg b .tick (endSend cfg (i + 1) b) [.txByte x]
  | turn (n) (hs : b.st = .awaitingTurnaround) (hn : b.turnCnt = some n) (h : 1 < n) :
      Moves cfg b .tick (setTurnCnt (n - 1) b) []
  | broadcast (hs : b.st = .awaitingTurnaround) (hn : b.turnCnt = some 1) (he : b.expLen = some 0) :
      Moves cfg b .tick (complete (.success [] errNone) b) []
  | window (e) (hs : b.st = .awaitingTurnaround) (hn : b.turnCnt = some 1) (he : b.expLen = some e) (h : e ≠ 0) :
      Moves cfg b .tick (beginReceive cfg b) []
  | wait (n) (hs : b.st = .receiving) (hn : b.toCnt = some n) (h : 1 < n) : Moves cfg b .tick (setToCnt (n - 1) b) []
  | late (e r) (hs : b.st = .receiving) (hn : b.toCnt = some 1) (he : b.expLen = some e)
      (hr : decodeStatus b.rxbuf e = some r) : Moves cfg b .tick (complete r (consumeRx b)) []
  | retire (c r) (hs : b.st = .completed) (hc : b.curClient = some c) (hr : b.result = some r) :
      Moves cfg b .tick (releaseLock b) [.done c r]

/-- From a good state a transition is one of the moves. -/
theorem engine_moves {cfg : Cfg} {b b' : Bte} {o : List Output} {e : Event} (hi : EngineInv cfg b)
    (he : engine cfg b e = .ok (b', o)) :
    Moves cfg b e b' o := by
  cases e with
  | reset => injection he with he; injection he with h1 h2; subst h1 h2; exact .reset
  | submit c q =>
    injection he with he
    rcases onSubmit_cases cfg c q b with ⟨h, h2⟩ | ⟨h, h2⟩ <;> rw [h2] at he <;> injection he with h3 h4 <;> subst h3 h4
    · exact .accept c q h
    · exact .reject c q h
  | rxByte x =>
    by_cases hs : b.st = .receiving
    · rw [engine_rx_receiving hs] at he
      obtain ⟨e, hel, rfl, ⟨h1, rfl⟩ | ⟨h1, r, hdec, rfl⟩⟩ := rxByteReceiving_cases he
      · exact .rxMore x e hs hel h1
      · exact .rxLast x e r hs hel h1 hdec
    · rw [engine_rx_elsewhere hs] at he
      injection he with he
      rcases rxByteElsewhere_cases cfg x b with ⟨-, h2⟩ | ⟨hd, -, h2⟩ | ⟨-, -, h2⟩ <;> rw [h2] at he <;>
        injection he with h3 h4 <;> subst h3 h4
      · exact .rxGated x hs
      · exact .rxStale x hs hd
      · exact .rxGated x hs
  | tick =>
    cases hs : b.st with
    | idle =>
      rw [engine_tick_idle hs] at he
      injection he with he
      rcases tickIdle_cases cfg b with ⟨hq, h2⟩ | ⟨c, q, rest, hq, ⟨hv, h2⟩ | ⟨hv, h2⟩⟩ <;> rw [h2] at he <;>
        injection he with h3 h4 <;> subst h3 h4
      · exact .idle hs hq
      · exact .start c q rest hs hq hv
      · exact .constructionError c q rest hs hq hv
    | sending =>
      rw [engine_tick_sending hs] at he
      obtain ⟨f, i, n, hf, hi', hn, hcase⟩ := tickSending_cases he
      have hrn := hi.ranges.byteCnt n hn
      rcases hcase with ⟨h1, rfl, rfl⟩ | ⟨h1, x, hx, rfl, ⟨h2, rfl⟩ | ⟨h2, rfl⟩⟩
      · exact .shift n hs hn h1
      · exact .byteOut f i x hs (by rw [hn]; congr 1; omega) hf hi' hx h2
      · have hlt := (List.getElem?_eq_some_iff.1 hx).1
        exact .drain f i x hs (by rw [hn]; congr 1; omega) hf hi' hx (by omega)
    | awaitingTurnaround =>
      rw [engine_tick_turnaround hs] at he
      obtain ⟨n, e, hn, hel, rfl, ⟨h1, rfl⟩ | ⟨h1, rfl, rfl⟩ | ⟨h1, h0, rfl⟩⟩ := tickTurnaround_cases he
      all_goals have hrn := hi.ranges.turnCnt n hn
      · exact .turn n hs hn h1
      · exact .broadcast hs (by rw [hn]; congr 1; omega) hel
      · exact .window e hs (by rw [hn]; congr 1; omega) hel h0
    | receiving =>
      rw [engine_tick_receiving hs] at he
      obtain ⟨n, e, hn, hel, rfl, ⟨h1, rfl⟩ | ⟨h1, r, hdec, rfl⟩⟩ := tickReceiving_cases he
      all_goals have hrn := hi.ranges.toCnt n hn
      · exact .wait n hs hn h1
      · exact .late e r hs (by rw [hn]; congr 1; omega) hel hdec
    | completed =>
      rw [engine_tick_completed hs] at he
      obtain ⟨c, r, hc, hr, rfl, rfl⟩ := tickCompleted_cases he
      exact .retire c r hs hc hr

/-- A step that runs no operation, taken apart. -/
theorem step_event {s t : State} (hf : fetch s = none) (ht : step s = .next t) :
    legalCfg s.cfg = true ∧ stranger s.cfg (nextEvent s) = none ∧ t.cfg = s.cfg ∧ t.inbox = restInbox s ∧
      ∃ o, engine s.cfg s.bte (nextEvent s) = .ok (t.bte, o) ∧ t.out = s.out ++ o := by
  rw [show step s = advance s by simp [step, hf]] at ht
  obtain ⟨hl, hc, b, o, he, rfl⟩ := applyEvent_eq_next ht
  exact ⟨hl, hc, rfl, rfl, o, he, rfl⟩

/-- A step that runs no operation is one of the moves. -/
theorem step_moves {s t : State} (h : Inv s) (hf : fetch s = none) (ht : step s = .next t) :
    ∃ o, Moves s.cfg s.bte (nextEvent s) t.bte o ∧ t.out = s.out ++ o := by
  obtain ⟨-, -, -, -, o, he, ho⟩ := step_event hf ht
  exact ⟨o, engine_moves h.inv he, ho⟩

end Sys2Proof.Machine
end

