-- ==== Sys2Proof/Laws/PerInstr.lean ====
section
/-! SUPPORT. Facts stated for every instruction, one lemma a constructor. `Presented`: exactly the operations that
spec/opcode_table.json gives no binary encoding of their own are presented by name. -/

namespace Sys2Proof.Laws.Presented

def Statement (i : Instr) : Prop := i.hasNoEncoding = true ↔ encode i = .call i

theorem read (t a n k : Byte) : Statement (.read t a n k) := by simp [Statement, Instr.hasNoEncoding, encode]
theorem write (t l a : Byte) (d : List Byte) (k : Byte) : Statement (.write t l a d k) := by
  simp [Statement, Instr.hasNoEncoding, encode]
theorem status (id l e : Byte) (p : List Byte) (k : Byte) : Statement (.status id l e p k) := by
  simp [Statement, Instr.hasNoEncoding, encode]
theorem rd (c t a n : Nat) : Statement (.rd c t a n) := by simp [Statement, Instr.hasNoEncoding, encode]
theorem wr (c t a : Nat) (d : List Byte) : Statement (.wr c t a d) := by simp [Statement, Instr.hasNoEncoding, encode]
theorem wrBcast (c a : Nat) (d : List Byte) : Statement (.wrBcast c a d) := by
  simp [Statement, Instr.hasNoEncoding, encode]
theorem chk (bs : List Byte) : Statement (.chk bs) := by simp [Statement, Instr.hasNoEncoding, encode]
theorem encRd (t a n : Nat) : Statement (.encRd t a n) := by simp [Statement, Instr.hasNoEncoding, encode]
theorem encWr (t a : Nat) (d : List Byte) : Statement (.encWr t a d) := by simp [Statement, Instr.hasNoEncoding, encode]
theorem decSt (raw : List Byte) (e : Nat) : Statement (.decSt raw e) := by simp [Statement, Instr.hasNoEncoding, encode]
theorem send : Statement .send := by simp [Statement, Instr.hasNoEncoding, encode]
theorem turn : Statement .turn := by simp [Statement, Instr.hasNoEncoding, encode]
theorem recv : Statement .recv := by simp [Statement, Instr.hasNoEncoding, encode]
theorem exec (c : Nat) (q : Request) : Statement (.exec c q) := by simp [Statement, Instr.hasNoEncoding, encode]

end Sys2Proof.Laws.Presented
end

