-- ==== Sys2Proof/Laws/Registry.lean ====
section
/-! SUPPORT. Laws of the control-table registry: what a lookup can answer, and the widths. -/

namespace Sys2Proof.Machine

/-- Everything a lookup can answer: an entry of the table, under the name asked for. -/
theorem describeRegister_eq_some {name : String} {d : RegisterDescriptor} (h : describeRegister name = some d) :
    d ∈ registry ∧ d.name = name :=
  ⟨List.mem_of_find?_eq_some h, by simpa using List.find?_some h⟩

@[simp] theorem widthBytes_one : widthBytes .one = 1 := rfl
@[simp] theorem widthBytes_two : widthBytes .two = 2 := rfl

/-- What is written to a register is as wide as the register. -/
@[simp] theorem dataOf_length (d : RegisterDescriptor) (raw : Nat) : (dataOf d raw).length = widthBytes d.width := by
  cases hw : d.width <;> simp [dataOf, hw, rawBytes]

end Sys2Proof.Machine
end

