-- ==== Sys2Proof/Tests/Slice0.lean ====
section
/-! SUPPORT. The model's own tests: expected values are the spec's (95_test_vectors.md, cited at each test) or worked by hand from
its rules. Then, for every statement with hypotheses, states and operands that meet them together (`witness_…`). -/

namespace Sys2Proof.Tests

open Sys2Proof Sys2Proof.Machine

/-! ### Small states -/

/-- A small configuration; every duration is more than one tick. -/
def cfg2 : Cfg where
  tTurn         := 2
  tTimeout      := 3
  tByte         := 2
  qDepth        := 2
  rxCap         := 261
  nClients      := 2
  tickPeriodNum := 1
  tickPeriodDen := 100000
  dirTxLevel    := 1

/-- The configuration of program P1 of 95_test_vectors.md. -/
def cfgP1 : Cfg := { cfg2 with tTurn := 2, tTimeout := 10, tByte := 1, qDepth := 4, nClients := 3 }

/-- A state with engine record `b` and inputs `l` to come. -/
def withB (cfg : Cfg) (b : Bte) (l : List Input) : State :=
  { cfg := cfg, bte := b, inbox := l, out := [], ret := none }

/-- The reset state under `cfg`, inputs `l` to come. -/
def fresh (cfg : Cfg) (l : List Input) : State := withB cfg Bte.reset l

/-- `n` ticks. -/
def ticks (n : Nat) : List Event := List.replicate n .tick

/-- The bytes `bs` arriving one after another. -/
def rx (bs : List Byte) : List Event := bs.map .rxByte

/-- The state an outcome leads to. -/
def nextOf (o : Host.Outcome State Fault Refusal) : Option State :=
  match o with
  | .next s => some s
  | .fault _ => none
  | .refused _ => none

/-- What the operation gave back. -/
def retOf (o : Host.Outcome State Fault Refusal) : Option Return := (nextOf o).bind fun s => s.ret

/-- What the outcome refuses with. -/
def refusalOf (o : Host.Outcome State Fault Refusal) : Option Refusal :=
  match o with
  | .next _ => none
  | .fault _ => none
  | .refused r => some r

/-- The engine record an outcome leads to. -/
def bteOf (o : Host.Outcome State Fault Refusal) : Option Bte := (nextOf o).map fun s => s.bte

/-- What has been emitted in the state an outcome leads to. -/
def outOf (o : Host.Outcome State Fault Refusal) : Option (List Output) := (nextOf o).map fun s => s.out

/-- The read of S2: target 1, address 36, two bytes. -/
def rdReq : Request := .rd 1 36 2

/-- The read frame of S1. -/
def rdFrame : List Byte := [0xFF, 0xFF, 0x01, 0x04, 0x02, 0x24, 0x02, 0xD2]

/-- A queue with one request at its head. -/
def queuedB (q : Request) : Bte := { Bte.reset with queue := [(0, q)] }

/-- Sending the read frame of S1: `i` bytes out, `n` ticks left of the next. -/
def sendingB (i n : Nat) : Bte :=
  { Bte.reset with
    st := .sending, dir := .tx, curClient := some 0, curReq := some rdReq, txbuf := some rdFrame
    txIdx := some i, byteCnt := some n, expLen := some 8 }

/-- The turnaround delay after the read of S1, `n` ticks left. -/
def turningB (n : Nat) : Bte := { sendingB 8 1 with st := .awaitingTurnaround, turnCnt := some n }

/-- The turnaround delay after the broadcast write of S5, `n` ticks left. -/
def turningBcastB (n : Nat) : Bte :=
  { turningB n with
    curReq := some (.wr 254 30 [0, 2]), txbuf := some [0xFF, 0xFF, 0xFE, 0x05, 0x03, 0x1E, 0x00, 0x02, 0xD9]
    txIdx := some 9, expLen := some 0 }

/-- The receive window of the read of S1: bytes `xs` collected, `n` ticks left. -/
def receivingB (xs : List Byte) (n : Nat) : Bte :=
  { turningB 1 with st := .receiving, dir := .rx, toCnt := some n, rxbuf := xs }

/-- The read of S1 completed with result `r`. -/
def completedB (r : Result) : Bte := { receivingB [] 3 with st := .completed, result := some r }

/-! ### Well-formedness: each check refuses an ill-formed term -/

theorem test_wf_read_target : (Instr.read 0xFE 0x24 0x02 0xD5).wf = false := by decide
theorem test_wf_read_checksum : (Instr.read 0x01 0x24 0x02 0xD3).wf = false := by decide
theorem test_wf_write_target : (Instr.write 0xFF 0x05 0x1E [0x00, 0x02] 0xD8).wf = false := by decide
theorem test_wf_write_data : (Instr.write 0x07 0x00 0x00 (List.replicate 253 0) 0xF5).wf = false := by decide +kernel
theorem test_wf_write_len : (Instr.write 0x01 0x04 0x1E [0x00, 0x02] 0xD7).wf = false := by decide
theorem test_wf_write_checksum : (Instr.write 0x01 0x05 0x1E [0x00, 0x02] 0xD7).wf = false := by decide
theorem test_wf_status_data : (Instr.status 0 0 0 (List.replicate 256 0) 0xFF).wf = false := by decide +kernel
theorem test_wf_status_checksum : (Instr.status 0x01 0x02 0x00 [] 0xFD).wf = false := by decide
theorem test_wf_rd_target : (Instr.rd 0 256 36 2).wf = false := by decide
theorem test_wf_rd_address : (Instr.rd 0 1 256 2).wf = false := by decide
theorem test_wf_rd_length : (Instr.rd 0 1 36 256).wf = false := by decide
theorem test_wf_wr_target : (Instr.wr 0 256 30 []).wf = false := by decide
theorem test_wf_wr_broadcast : (Instr.wr 0 254 30 []).wf = false := by decide
theorem test_wf_wr_address : (Instr.wr 0 1 256 []).wf = false := by decide
theorem test_wf_wr_data : (Instr.wr 0 1 30 (List.replicate 512 0)).wf = false := by decide +kernel
theorem test_wf_bcast_address : (Instr.wrBcast 0 256 []).wf = false := by decide
theorem test_wf_bcast_data : (Instr.wrBcast 0 30 (List.replicate 512 0)).wf = false := by decide +kernel
theorem test_wf_decSt_domain : (Instr.decSt [] 5).wf = false := by decide

/-! ### Decoding: words written out bit by bit from the spec's encodings -/

/-- S1, the read frame; row READ of spec/opcode_table.json, R61. -/
theorem test_decode_read :
    decode (.instrFrame [0b11111111, 0b11111111, 0b00000001, 0b00000100, 0b00000010, 0b00100100, 0b00000010, 0b11010010])
      = .ok (.read 0x01 0x24 0x02 0xD2) := by rfl

/-- S1, the write frame; row WRITE, R62. -/
theorem test_decode_write :
    decode (.instrFrame [0b11111111, 0b11111111, 0b00000001, 0b00000101, 0b00000011, 0b00011110, 0b00000000, 0b00000010,
      0b11010110]) = .ok (.write 0x01 0x05 0x1E [0x00, 0x02] 0xD6) := by rfl

/-- S1, the status frame with data `00 02`; row STATUS, R63. -/
theorem test_decode_status :
    decode (.statusFrame [0b11111111, 0b11111111, 0b00000001, 0b00000100, 0b00000000, 0b00000000, 0b00000010, 0b11111000])
      = .ok (.status 0x01 0x04 0x00 [0x00, 0x02] 0xF8) := by rfl

/-- Row RD: kind 0, target 1, address 36, rd_len 2. -/
theorem test_decode_rd : decode (.port 0 0b0000000_0_00000001_00100100_00000010 []) = .ok (.rd 0 1 36 2) := by rfl

/-- Row WR: kind 1, target 1, address 30, wr_len 2, data `00 02`. -/
theorem test_decode_wr :
    decode (.port 0 0b000000_1_00000001_00011110_000000010 [0x00, 0x02]) = .ok (.wr 0 1 30 [0x00, 0x02]) := by rfl

/-- Row WR.BCAST, before the row WR: kind 1, target 254. -/
theorem test_decode_wrBcast :
    decode (.port 0 0b000000_1_11111110_00011110_000000010 [0x00, 0x02]) = .ok (.wrBcast 0 30 [0x00, 0x02]) := by rfl

/-- The eight rows without an encoding are presented by name. -/
theorem test_decode_calls :
    decode (.call (.chk [1])) = .ok (.chk [1]) ∧ decode (.call (.encRd 1 2 3)) = .ok (.encRd 1 2 3) ∧
    decode (.call (.encWr 1 2 [3])) = .ok (.encWr 1 2 [3]) ∧ decode (.call (.decSt [] 6)) = .ok (.decSt [] 6) ∧
    decode (.call .send) = .ok .send ∧ decode (.call .turn) = .ok .turn ∧ decode (.call .recv) = .ok .recv ∧
    decode (.call (.exec 0 rdReq)) = .ok (.exec 0 rdReq) := by decide

/-- Each name a decoder rejects with. -/
theorem test_decode_rejects :
    decode (.instrFrame [0xFF, 0xFF, 0x01, 0x04, 0x02, 0x24, 0x02]) = .error .frameLength ∧
    decode (.instrFrame [0xFF, 0xFE, 0x01, 0x04, 0x02, 0x24, 0x02, 0xD2]) = .error .header ∧
    decode (.instrFrame [0xFF, 0xFF, 0x01, 0x05, 0x02, 0x24, 0x02, 0xD1]) = .error .readLenField ∧
    decode (.instrFrame [0xFF, 0xFF, 0x01, 0x04, 0x04, 0x24, 0x02, 0xD0]) = .error .opcode ∧
    decode (.port 0 0x04000000 []) = .error .portBits ∧
    decode (.port 0 0x02023C02 []) = .error .dataCount ∧
    decode (.call (.rd 0 1 36 2)) = .error .hasEncoding := by decide

/-! ### The codec -/

/-- V1: a permutation of a body, a sum of 256, the empty list. -/
theorem test_chk :
    retOf (exec (.chk [0x01, 0x04, 0x02, 0x24, 0x02]) (fresh cfg2 [])) = some (.byte 0xD2) ∧
    retOf (exec (.chk [0x80, 0x80]) (fresh cfg2 [])) = some (.byte 0xFF) ∧
    retOf (exec (.chk []) (fresh cfg2 [])) = some (.byte 0xFF) := by decide +kernel

/-- V1, the longest body: 43105 mod 256 is 61, complemented 9E. -/
theorem test_chk_longest : chk ([0x07, 0xFF, 0x03, 0x00] ++ List.replicate 252 0xAA) = 0x9E := by decide +kernel

/-- V3: the upper bounds, and V2: a read of the broadcast target. -/
theorem test_encRd :
    retOf (exec (.encRd 253 255 255) (fresh cfg2 [])) =
      some (.frame [0xFF, 0xFF, 0xFD, 0x04, 0x02, 0xFF, 0xFF, 0xFE]) ∧
    retOf (exec (.encRd 254 36 2) (fresh cfg2 [])) = some (.result (.failure .constructionError)) := by decide +kernel

/-- V4: the broadcast target, no data, and V2: 253 data bytes. -/
theorem test_encWr :
    retOf (exec (.encWr 254 30 [0x00, 0x02]) (fresh cfg2 [])) =
      some (.frame [0xFF, 0xFF, 0xFE, 0x05, 0x03, 0x1E, 0x00, 0x02, 0xD9]) ∧
    retOf (exec (.encWr 5 25 []) (fresh cfg2 [])) = some (.frame [0xFF, 0xFF, 0x05, 0x03, 0x03, 0x19, 0xDB]) ∧
    retOf (exec (.encWr 1 30 (List.replicate 253 0)) (fresh cfg2 [])) = some (.result (.failure .constructionError)) := by
  decide +kernel

/-- V6: the four failures, each where the test before it passes. -/
theorem test_decSt_failures :
    retOf (exec (.decSt [] 6) (fresh cfg2 [])) = some (.result (.failure .timeout)) ∧
    retOf (exec (.decSt [0, 0, 0, 0, 0] 6) (fresh cfg2 [])) = some (.result (.failure .shortFrame)) ∧
    retOf (exec (.decSt [0xFE, 0xFF, 0x01, 0x04, 0, 0, 0x02, 0x00] 8) (fresh cfg2 [])) =
      some (.result (.failure .badHeader)) ∧
    retOf (exec (.decSt [0xFF, 0xFF, 0xFF, 0xFF, 0xFF, 0x03] 6) (fresh cfg2 [])) =
      some (.result (.failure .checksumMismatch)) := by decide +kernel

/-- V6: a wrong ID and a wrong LEN are not tested; bytes equal to FF are data. -/
theorem test_decSt_successes :
    retOf (exec (.decSt [0xFF, 0xFF, 0x02, 0x09, 0x00, 0x00, 0x02, 0xF2] 8) (fresh cfg2 [])) =
      some (.result (.success [0x00, 0x02] 0x00)) ∧
    retOf (exec (.decSt [0xFF, 0xFF, 0xFF, 0xFF, 0xFF, 0x02] 6) (fresh cfg2 [])) =
      some (.result (.success [] 0xFF)) := by decide +kernel

/-- V5: no wrap at 261. -/
theorem test_expectedLen :
    expectedLen (.rd 1 0 255) = 261 ∧ expectedLen (.wr 253 30 (List.replicate 252 0)) = 6 ∧
    expectedLen (.wr 254 30 []) = 0 := by decide +kernel

/-! ### The transceiver's phases -/

/-- P1 rows 2 to 10: drained after `1 + 8` ticks, the frame on the line. -/
theorem test_send :
    outOf (exec .send (withB cfgP1 (queuedB rdReq) [])) =
      some (([0xFF, 0xFF, 0x01, 0x04, 0x02, 0x24, 0x02, 0xD2] : List Byte).map .txByte) ∧
    bteOf (exec .send (withB cfgP1 (queuedB rdReq) [])) = some (turningB 2) := by decide +kernel

/-- SEND with nothing to send is refused. -/
theorem test_send_nothing : refusalOf (exec .send (fresh cfg2 [])) = some .phaseOrder := by decide +kernel

/-- P1 rows 11 and 12; P2 rows 13 to 15, a byte discarded in between. -/
theorem test_turn :
    bteOf (exec .turn (withB cfgP1 (turningB 2) [])) = some (receivingB [] 10) ∧
    bteOf (exec .turn (withB cfgP1 (turningBcastB 2) [.event .tick, .event (.rxByte 0x55)])) =
      some { turningBcastB 1 with st := .completed, result := some (.success [] 0) } := by decide +kernel

/-- P1 rows 13 to 20: the eighth byte ends the receive, with no tick. -/
theorem test_recv :
    retOf (exec .recv (withB cfgP1 (receivingB [] 10)
      (events (rx [0xFF, 0xFF, 0x01, 0x04, 0x00, 0x00, 0x02, 0xF8])))) =
      some (.bytes [0xFF, 0xFF, 0x01, 0x04, 0x00, 0x00, 0x02, 0xF8]) := by decide +kernel

/-- V7, the tie: the last tick before the last byte. -/
theorem test_recv_tie :
    bteOf (exec .recv (withB cfgP1 (receivingB [0xFF, 0xFF, 0x01, 0x04, 0x00, 0x00, 0x02] 1)
      [.event .tick, .event (.rxByte 0xF8)])) =
      some { receivingB [] 1 with st := .completed, result := some (.failure .shortFrame) } := by decide +kernel

/-! ### The frames on the line -/

/-- READ, due: sent (P1 rows 2 to 10). Not due, in the reset state: heard, as stale input (R153). -/
theorem test_read :
    bteOf (exec (.read 0x01 0x24 0x02 0xD2) (withB cfgP1 (queuedB rdReq) [])) = some (turningB 2) ∧
    bteOf (exec (.read 0x02 0x24 0x02 0xD1) (fresh cfgP1 [])) =
      some { Bte.reset with rxbuf := [0xFF, 0xFF, 0x02, 0x04, 0x02, 0x24, 0x02, 0xD1] } := by decide +kernel

/-- WRITE, due: the whole frame of S1 is on the line. Not due, while BTE drives the line: discarded (R125). -/
theorem test_write :
    outOf (exec (.write 0x01 0x05 0x1E [0x00, 0x02] 0xD6) (withB cfgP1 (queuedB (.wr 1 30 [0x00, 0x02])) [])) =
      some (([0xFF, 0xFF, 0x01, 0x05, 0x03, 0x1E, 0x00, 0x02, 0xD6] : List Byte).map .txByte) ∧
    bteOf (exec (.write 0x05 0x03 0x19 [] 0xDB) (withB cfgP1 (turningB 2) [])) = some (turningB 2) := by decide +kernel

/-- STATUS, the answer of S2, and V6's wrong checksum byte. -/
theorem test_status :
    bteOf (exec (.status 0x01 0x04 0x00 [0x00, 0x02] 0xF8) (withB cfgP1 (receivingB [] 7) [])) =
      some { receivingB [] 7 with st := .completed, result := some (.success [0x00, 0x02] 0x00) } ∧
    bteOf (exec (.status 0x01 0x04 0x00 [0x00, 0x02] 0xF9) (withB cfgP1 (receivingB [] 7) [])) =
      some { receivingB [] 7 with st := .completed, result := some (.failure .checksumMismatch) } := by decide +kernel

/-! ### Transactions -/

/-- P1 as one operation, on what it emits. -/
theorem test_rd :
    outOf (exec (.rd 0 1 36 2) (fresh cfgP1
      (events (ticks 11 ++ rx [0xFF, 0xFF, 0x01, 0x04, 0x00, 0x00, 0x02, 0xF8])))) =
      some (.accepted 0 :: rdFrame.map .txByte ++ [.done 0 (.success [0x00, 0x02] 0x00)]) := by decide +kernel

/-- V7: a read of the broadcast target. -/
theorem test_rd_invalid :
    outOf (exec (.rd 0 254 36 2) (fresh cfgP1 [])) = some [.accepted 0, .done 0 (.failure .constructionError)] := by
  decide +kernel

/-- S3: error code 04 is a success with that code. -/
theorem test_wr :
    retOf (exec (.wr 0 1 30 [0x00, 0x02]) (fresh cfgP1
      (events (ticks 12 ++ rx [0xFF, 0xFF, 0x01, 0x02, 0x04, 0xF8])))) = some (.result (.success [] 0x04)) := by decide +kernel

/-- V7: nothing answers. -/
theorem test_wr_timeout :
    retOf (exec (.wr 0 5 25 []) (fresh cfgP1 [])) = some (.result (.failure .timeout)) := by decide +kernel

/-- S5, P2 rows 1 to 16: `dir` stays `TX` and the result is the placeholder success. -/
theorem test_wrBcast :
    (bteOf (exec (.wrBcast 0 30 [0x00, 0x02]) (fresh cfgP1 []))).map (fun b => (b.st, b.dir, b.toCnt, b.result)) =
      some (.idle, .tx, none, some (.success [] 0x00)) := by decide +kernel

/-- S4: a wrong header. -/
theorem test_exec :
    retOf (exec (.exec 0 rdReq) (fresh cfgP1
      (events (ticks 11 ++ rx [0xFE, 0xFF, 0x01, 0x04, 0x00, 0x00, 0x02, 0xF8])))) =
      some (.result (.failure .badHeader)) := by decide +kernel

/-- P4 row 3: a full queue. -/
theorem test_exec_full :
    retOf (exec (.exec 1 rdReq) (withB cfg2 { Bte.reset with queue := [(0, rdReq), (1, rdReq)] } [])) = some .rejected := by
  decide +kernel

/-! ### The machine -/

/-- After reset the machine runs an operation presented first: the read row of the table, all its free bits 0. -/
theorem test_step_first : (nextOf (step (State.reset.withFetchWord 64 0xFFFF000402000000))).isSome = true := by decide +kernel

/-- R182: the two entries, by name; an unknown name has none. S2: the bytes `00 02` of a position are 512 × 300 / 1023 degrees. -/
theorem test_describeRegister :
    (describeRegister "position").map (fun d => (d.address, d.width)) = some (36, .two) ∧
    (describeRegister "goal position").map (fun d => (d.address, d.width)) = some (30, .two) ∧
    describeRegister "speed" = none ∧
    (describeRegister "position").bind (fun d => physicalOf d [0x00, 0x02]) = some (.degrees (512 * 300 / 1023)) :=
  ⟨by decide +kernel, by decide +kernel, by decide +kernel, rfl⟩

/-- S3: writing raw 512 to the goal position of target 1 is the request `WR 1, 30, [00 02]`; S2: the read is `RD 1, 36, 2`. -/
theorem test_register_requests :
    (describeRegister "goal position").map (fun d => writeRequestOf d 1 512) = some (.wr 1 30 [0x00, 0x02]) ∧
    (describeRegister "position").map (fun d => readRequestOf d 1) = some rdReq := by decide +kernel

/-- S2 and V8: raw 512 is 512 × 300 / 1023 degrees; 1023 is 300 degrees exactly. -/
theorem test_convert :
    rawValue [0x00, 0x02] = some 512 ∧ convert .position 512 = .degrees (512 * 300 / 1023) ∧
    convert .position 1023 = .degrees 300 := by
  refine ⟨by decide, rfl, ?_⟩
  simp only [convert]; norm_num

/-- V8: the load's sign bit and magnitude. -/
theorem test_convert_load : convert .load 0x05FF = .load true (511 / 1023) ∧ convert .load 0x0200 = .load false (512 / 1023) := by
  constructor <;> simp only [convert] <;> norm_num

/-! ### Witnesses: for every statement with hypotheses, operands and a state that meet them together, clause by clause, at
boundary values -/

/-- A stretch of time with `n` ticks, a byte arriving before each. -/
def noisy : Nat → List Event
  | 0 => []
  | n + 1 => .rxByte 0x55 :: Event.tick :: noisy n

theorem lineOnly_noisy (n : Nat) : lineOnly (noisy n) := by
  induction n with
  | zero => simp [lineOnly, noisy]
  | succ n ih =>
    intro e he
    rcases List.mem_cons.1 he with rfl | he
    · exact Or.inr ⟨_, rfl⟩
    rcases List.mem_cons.1 he with rfl | he
    · exact Or.inl rfl
    · exact ih e he

theorem lineOnly_rx (bs : List Byte) : lineOnly (rx bs) := by
  intro e he
  obtain ⟨x, -, rfl⟩ := List.mem_map.1 he
  exact Or.inr ⟨x, rfl⟩

theorem legal2 : legalCfg cfg2 = true := by decide

theorem witness_inv_fresh (l : List Input) : Inv (fresh cfg2 l) := ⟨legal2, EngineInv.reset cfg2⟩

/-- The ranges of R11 for the records above: each field is given by a literal. -/
theorem witness_inv_queued (q : Request) (l : List Input) : Inv (withB cfg2 (queuedB q) l) := by
  refine ⟨legal2, ⟨⟨?_, ?_, ?_, ?_, ?_, ?_, ?_, ?_, ?_, ?_⟩, ?_, ?_, ?_, ?_, ?_, ?_⟩⟩ <;>
    simp [withB, queuedB, Bte.reset, cfg2]

theorem witness_inv_sending (i n : Nat) (hi : i < 8) (hn : 1 ≤ n) (hn2 : n ≤ 2) (l : List Input) :
    Inv (withB cfg2 (sendingB i n) l) := by
  refine ⟨legal2, ⟨⟨?_, ?_, ?_, ?_, ?_, ?_, ?_, ?_, ?_, ?_⟩, ?_, ?_, ?_, ?_, ?_, ?_⟩⟩ <;>
    simp [withB, sendingB, rdFrame, Bte.reset, cfg2, hn, hn2]
  · omega
  · exact ⟨rdReq, ⟨rfl, rfl, rfl, rfl⟩, hi⟩

theorem witness_inv_turning (n : Nat) (hn : 1 ≤ n) (hn2 : n ≤ 2) (l : List Input) :
    Inv (withB cfg2 (turningB n) l) := by
  refine ⟨legal2, ⟨⟨?_, ?_, ?_, ?_, ?_, ?_, ?_, ?_, ?_, ?_⟩, ?_, ?_, ?_, ?_, ?_, ?_⟩⟩ <;>
    simp [withB, turningB, sendingB, rdFrame, Bte.reset, cfg2, hn, hn2]
  exact ⟨rdReq, ⟨rfl, rfl, rfl, rfl⟩, rfl⟩

theorem witness_inv_turning_bcast (n : Nat) (hn : 1 ≤ n) (hn2 : n ≤ 2) (l : List Input) :
    Inv (withB cfg2 (turningBcastB n) l) := by
  refine ⟨legal2, ⟨⟨?_, ?_, ?_, ?_, ?_, ?_, ?_, ?_, ?_, ?_⟩, ?_, ?_, ?_, ?_, ?_, ?_⟩⟩ <;>
    simp [withB, turningBcastB, turningB, sendingB, rdFrame, Bte.reset, cfg2, hn, hn2]
  exact ⟨.wr 254 30 [0, 2], ⟨rfl, rfl, rfl, rfl⟩, rfl⟩

theorem witness_inv_receiving (xs : List Byte) (n : Nat) (hx : xs.length < 8) (hn : 1 ≤ n) (hn2 : n ≤ 3) (l : List Input) :
    Inv (withB cfg2 (receivingB xs n) l) := by
  refine ⟨legal2, ⟨⟨?_, ?_, ?_, ?_, ?_, ?_, ?_, ?_, ?_, ?_⟩, ?_, ?_, ?_, ?_, ?_, ?_⟩⟩ <;>
    simp [withB, receivingB, turningB, sendingB, rdFrame, Bte.reset, cfg2, hn, hn2]
  · omega
  · exact ⟨rdReq, ⟨rfl, rfl, rfl, rfl⟩, by decide, hx⟩

theorem witness_inv_completed (l : List Input) : Inv (withB cfg2 (completedB (.failure .timeout)) l) := by
  refine ⟨legal2, ⟨⟨?_, ?_, ?_, ?_, ?_, ?_, ?_, ?_, ?_, ?_⟩, ?_, ?_, ?_, ?_, ?_, ?_⟩⟩ <;>
    simp [withB, completedB, receivingB, turningB, sendingB, rdFrame, Bte.reset, cfg2]

/-- DecodeReadsBackEveryEncoding: every constructor, operands at the ends of their ranges. -/
theorem witness_wf :
    (Instr.read 0xFD 0xFF 0xFF 0xFE).wf = true ∧ (Instr.write 0xFE 0x05 0x1E [0x00, 0x02] 0xD9).wf = true ∧
    (Instr.write 0x07 0xFF 0x00 (List.replicate 252 0xAA) 0x9E).wf = true ∧
    (Instr.status 0xFF 0xFF 0xFF [] 0x02).wf = true ∧ (Instr.rd 0 255 255 255).wf = true ∧
    (Instr.wr 0 255 255 (List.replicate 511 0)).wf = true ∧ (Instr.wrBcast 0 255 (List.replicate 511 0)).wf = true ∧
    (Instr.chk []).wf = true ∧ (Instr.encRd 256 256 256).wf = true ∧ (Instr.encWr 256 256 []).wf = true ∧
    (Instr.decSt [] 6).wf = true ∧ Instr.send.wf = true ∧ Instr.turn.wf = true ∧ Instr.recv.wf = true ∧
    (Instr.exec 0 rdReq).wf = true := by decide +kernel

/-- DecodedFramesAreTheirOwnEncoding and the first clause of InstructionFramesHaveTwoOpcodes: test_decode_read,
test_decode_write and test_decode_status. Its second clause. -/
theorem witness_InstructionFramesHaveTwoOpcodes :
    Inv (withB cfg2 (sendingB 7 1) []) ∧ (withB cfg2 (sendingB 7 1) []).bte.st = .sending :=
  ⟨witness_inv_sending 7 1 (by decide) (by decide) (by decide) [], rfl⟩

/-- StepRunsTheDecodedOperation. -/
theorem witness_StepRunsTheDecodedOperation :
    (fresh cfg2 [.packet (.call .send)]).inbox = .packet (.call .send) :: [] ∧ decode (.call .send) = .ok .send ∧
    (fresh cfg2 [.packet (.statusFrame [])]).inbox = .packet (.statusFrame []) :: [] ∧
    decode (.statusFrame []) = .error .frameLength ∧ fetch (fresh cfg2 []) = none ∧
    decodeTableWord 16 0xFFFF = some (.status 0 0 0 [] 0) := by decide

/-- ChkComplementsTheByteSum and ChkLaws: V1, rows 7 and 13; two different bytes; pairs with equal sums. -/
theorem witness_ChkLaws :
    List.Perm [0x01, 0x04, 0x02, 0x24, 0x02] ([0x02, 0x24, 0x04, 0x01, 0x02] : List Byte) ∧
    (0x00 : Byte) ≠ 0xFF ∧
    ((0x80 : Byte).toNat + (0x80 : Byte).toNat) % 256 = ((0x00 : Byte).toNat + (0x00 : Byte).toNat) % 256 := by decide

/-- EncRdBuildsTheReadFrame and EncWrBuildsTheWriteFrame: the last values in range and the first out of it. -/
theorem witness_encoder_ranges :
    (253 ≤ 253 ∧ 255 ≤ 255 ∧ 255 ≤ 255) ∧ ¬(254 ≤ 253 ∧ 0 ≤ 255 ∧ 0 ≤ 255) ∧ ¬(0 ≤ 253 ∧ 256 ≤ 255 ∧ 0 ≤ 255) ∧
    ¬(0 ≤ 253 ∧ 0 ≤ 255 ∧ 256 ≤ 255) ∧
    (254 ≤ 254 ∧ 255 ≤ 255 ∧ (List.replicate 252 (0 : Byte)).length ≤ 252) ∧
    ¬(255 ≤ 254 ∧ 0 ≤ 255 ∧ ([] : List Byte).length ≤ 252) ∧
    ¬(0 ≤ 254 ∧ 0 ≤ 255 ∧ (List.replicate 253 (0 : Byte)).length ≤ 252) := by
  decide +kernel

/-- EncodedFramesAreValid, ExpectedLengthByKind, EncodeDecodeRoundTrip: V2. -/
theorem witness_validate :
    validate (.rd 253 255 255) = true ∧ validate (.rd 0 0 0) = true ∧
    validate (.wr 254 255 (List.replicate 252 0)) = true ∧ validate (.wr 253 0 []) = true ∧ 253 ≠ 254 ∧
    (List.replicate 253 (0 : Byte)).length ≤ 253 := by decide +kernel

/-- DecStTestsInOrder: one input for each of the five tests, the expected length at its least. -/
theorem witness_DecStTestsInOrder :
    6 ≤ 6 ∧ ([] : List Byte).length = 0 ∧ (([0xFF] : List Byte).length ≠ 0 ∧ ([0xFF] : List Byte).length ≠ 6) ∧
    (([0xFE, 0xFF, 1, 2, 0, 0xFC] : List Byte).length = 6 ∧ ([0xFE, 0xFF, 1, 2, 0, 0xFC] : List Byte)[0]? ≠ some 0xFF) ∧
    (([0xFF, 0xFF, 1, 2, 0, 0xFD] : List Byte).length = 6 ∧
      ([0xFF, 0xFF, 1, 2, 0, 0xFD] : List Byte)[6 - 1]? ≠ some (chk (slice [0xFF, 0xFF, 1, 2, 0, 0xFD] 2 (6 - 1)))) ∧
    (([0xFF, 0xFF, 1, 2, 0, 0xFC] : List Byte).length = 6 ∧ ([0xFF, 0xFF, 1, 2, 0, 0xFC] : List Byte)[4]? = some 0 ∧
      ([0xFF, 0xFF, 1, 2, 0, 0xFC] : List Byte)[6 - 1]? = some (chk (slice [0xFF, 0xFF, 1, 2, 0, 0xFC] 2 (6 - 1)))) := by
  decide

/-- DecStIsRefusedBelowSix. -/
theorem witness_DecStIsRefusedBelowSix :
    5 < 6 ∧ (6 ≤ 6 ∧ ([0xFF] : List Byte).length ≠ 6) ∧
    Inv (withB cfg2 (receivingB [] 1) []) ∧ (withB cfg2 (receivingB [] 1) []).bte.st = .receiving ∧
    (withB cfg2 (receivingB [] 1) []).bte.expLen = some 8 :=
  ⟨by decide, by decide, witness_inv_receiving [] 1 (by decide) (by decide) (by decide) [], rfl, rfl⟩

/-- DecStLeavesIdLenErrUntested: S3's answer, another value at its bytes 2 and 4. -/
theorem witness_DecStLeavesIdLenErrUntested :
    decodeStatus [0xFF, 0xFF, 1, 2, 0, 0xFC] 6 = some (.success [] 0) ∧
    (2 ≤ 2 ∧ 2 ≤ 4 ∧ ([0xFF, 0xFF, 1, 2, 0, 0xFC] : List Byte)[2]? ≠ some 2) ∧
    (2 ≤ 4 ∧ 4 ≤ 4 ∧ ([0xFF, 0xFF, 1, 2, 0, 0xFC] : List Byte)[4]? ≠ some 1) := by decide

/-- SingleBitFlipIsDetected: the write frame of S1; its first byte, the first after the header and the last. -/
theorem witness_SingleBitFlipIsDetected :
    frameValid [0xFF, 0xFF, 0x01, 0x05, 0x03, 0x1E, 0x00, 0x02, 0xD6] = true ∧
    ([0xFF, 0xFF, 0x01, 0x05, 0x03, 0x1E, 0x00, 0x02, 0xD6] : List Byte)[0]? = some 0xFF ∧
    ([0xFF, 0xFF, 0x01, 0x05, 0x03, 0x1E, 0x00, 0x02, 0xD6] : List Byte)[2]? = some 0x01 ∧
    ([0xFF, 0xFF, 0x01, 0x05, 0x03, 0x1E, 0x00, 0x02, 0xD6] : List Byte)[8]? = some 0xD6 ∧ 0 < 8 ∧ 7 < 8 := by decide

/-- SubmitQueuesOrRejects: one place left, and none. -/
theorem witness_SubmitQueuesOrRejects :
    (Meets (.submit 1 rdReq) (withB cfg2 (queuedB rdReq) [.event (.submit 1 rdReq)]) ∧ 1 < cfg2.nClients ∧
      (queuedB rdReq).queue.length < cfg2.qDepth) ∧
    (Meets (.submit 1 rdReq) (withB cfg2 { Bte.reset with queue := [(0, rdReq), (1, rdReq)] } [.event (.submit 1 rdReq)]) ∧
      ¬ ([(0, rdReq), (1, rdReq)] : List (Nat × Request)).length < cfg2.qDepth) :=
  ⟨⟨⟨by decide, by decide, by decide⟩, by decide, by decide⟩, ⟨⟨by decide, by decide, by decide⟩, by decide⟩⟩

/-- TickInIdleStartsTheHead: nothing queued; a request that can be encoded; one that cannot. -/
theorem witness_TickInIdleStartsTheHead :
    (Meets .tick (fresh cfg2 []) ∧ (fresh cfg2 []).bte.st = .idle ∧ (fresh cfg2 []).bte.queue = []) ∧
    (Meets .tick (withB cfg2 (queuedB (.rd 253 36 2)) []) ∧ (queuedB (.rd 253 36 2)).queue = (0, .rd 253 36 2) :: [] ∧
      validate (.rd 253 36 2) = true) ∧
    (Meets .tick (withB cfg2 (queuedB (.rd 254 36 2)) []) ∧ (queuedB (.rd 254 36 2)).queue = (0, .rd 254 36 2) :: [] ∧
      validate (.rd 254 36 2) = false) :=
  ⟨⟨⟨by decide, by decide, by decide⟩, rfl, rfl⟩, ⟨⟨by decide, by decide, by decide⟩, rfl, by decide⟩,
    ⟨⟨by decide, by decide, by decide⟩, rfl, by decide⟩⟩

/-- SendingShiftsTheFrameOutOnSchedule: within a byte; the end of a byte; the end of the last byte; the last state of the schedule
before the frame is drained; the tick that drains it. -/
theorem witness_SendingShiftsTheFrameOutOnSchedule :
    (Meets .tick (withB cfg2 (sendingB 0 2) []) ∧ rdFrame[0]? = some 0xFF ∧ 1 < 2) ∧
    (Meets .tick (withB cfg2 (sendingB 6 1) []) ∧ rdFrame[6]? = some 0x02 ∧ 6 + 1 < rdFrame.length) ∧
    (Meets .tick (withB cfg2 (sendingB 7 1) []) ∧ rdFrame[7]? = some 0xD2 ∧ ¬ 7 + 1 < rdFrame.length) ∧
    (legalCfg cfg2 = true ∧ (sendingB 0 2).st = .sending ∧ (sendingB 0 2).dir = .tx ∧ (sendingB 0 2).txbuf = some rdFrame ∧
      (sendingB 0 2).txIdx = some 0 ∧ (sendingB 0 2).byteCnt = some cfg2.tByte ∧ lineOnly (noisy 15) ∧
      (withB cfg2 (sendingB 0 2) (events (noisy 15))).inbox = events (noisy 15) ++ [] ∧
      tickCount (noisy 15) < rdFrame.length * cfg2.tByte ∧
      (withB cfg2 (sendingB 0 2) (events (noisy 15 ++ [Event.tick]))).inbox = events (noisy 15 ++ [Event.tick]) ++ [] ∧
      tickCount (noisy 15) + 1 = rdFrame.length * cfg2.tByte) :=
  ⟨⟨⟨by decide, by decide, by decide⟩, by decide, by decide⟩, ⟨⟨by decide, by decide, by decide⟩, by decide, by decide⟩,
    ⟨⟨by decide, by decide, by decide⟩, by decide, by decide⟩,
    by decide, rfl, rfl, rfl, rfl, rfl, lineOnly_noisy 15, by decide, by decide, by decide, by decide⟩

/-- TurnaroundLastsItsTicks: a tick that does not end the delay; the last tick, of a broadcast and of a read; the last state of the
delay. -/
theorem witness_TurnaroundLastsItsTicks :
    (Meets .tick (withB cfg2 (turningB 2) []) ∧ (turningB 2).turnCnt = some 2 ∧ (turningB 2).expLen = some 8) ∧
    (Meets .tick (withB cfg2 (turningBcastB 1) []) ∧ (turningBcastB 1).turnCnt = some 1 ∧
      (turningBcastB 1).expLen = some 0) ∧
    (Meets .tick (withB cfg2 (turningB 1) []) ∧ (turningB 1).turnCnt = some 1 ∧ (turningB 1).expLen = some 8) ∧
    (legalCfg cfg2 = true ∧ (turningB 2).st = .awaitingTurnaround ∧ (turningB 2).dir = .tx ∧
      (withB cfg2 (turningB 2) (events (noisy 1))).inbox = events (noisy 1) ++ [] ∧ lineOnly (noisy 1) ∧
      tickCount (noisy 1) < 2) :=
  ⟨⟨⟨by decide, by decide, by decide⟩, rfl, rfl⟩, ⟨⟨by decide, by decide, by decide⟩, rfl, rfl⟩,
    ⟨⟨by decide, by decide, by decide⟩, rfl, rfl⟩, by decide, rfl, rfl, by decide, lineOnly_noisy 1, by decide⟩

/-- TickInReceivingCountsDownAndTimesOut: time left; none left with nothing collected, and with one byte missing. -/
theorem witness_TickInReceivingCountsDownAndTimesOut :
    (Meets .tick (withB cfg2 (receivingB [] 2) []) ∧ (receivingB [] 2).toCnt = some 2 ∧ (receivingB [] 2).expLen = some 8) ∧
    (Meets .tick (withB cfg2 (receivingB [] 1) []) ∧ (receivingB [] 1).rxbuf = [] ∧ 6 ≤ 8) ∧
    (Meets .tick (withB cfg2 (receivingB [1, 2, 3, 4, 5, 6, 7] 1) []) ∧
      (receivingB [1, 2, 3, 4, 5, 6, 7] 1).rxbuf.length < 8 ∧ (receivingB [1, 2, 3, 4, 5, 6, 7] 1).rxbuf ≠ []) :=
  ⟨⟨⟨by decide, by decide, by decide⟩, rfl, rfl⟩, ⟨⟨by decide, by decide, by decide⟩, rfl, by decide⟩,
    ⟨⟨by decide, by decide, by decide⟩, by decide, by decide⟩⟩

/-- ByteInReceivingIsTaken: the seventh byte and the eighth. -/
theorem witness_ByteInReceivingIsTaken :
    (Meets (.rxByte 6) (withB cfg2 (receivingB [1, 2, 3, 4, 5, 6] 1) [.event (.rxByte 6)]) ∧
      (receivingB [1, 2, 3, 4, 5, 6] 1).expLen = some 8 ∧ (receivingB [1, 2, 3, 4, 5, 6] 1).rxbuf.length + 1 ≠ 8) ∧
    (Meets (.rxByte 6) (withB cfg2 (receivingB [1, 2, 3, 4, 5, 6, 7] 1) [.event (.rxByte 6)]) ∧
      (receivingB [1, 2, 3, 4, 5, 6, 7] 1).rxbuf.length + 1 = 8) :=
  ⟨⟨⟨by decide, by decide, by decide⟩, rfl, by decide⟩, ⟨⟨by decide, by decide, by decide⟩, by decide⟩⟩

/-- ByteElsewhereIsGatedOrStale: the line driven; room for one byte; room for none; a good state with the line released. -/
theorem witness_ByteElsewhereIsGatedOrStale :
    (Meets (.rxByte 6) (withB cfg2 (turningB 1) [.event (.rxByte 6)]) ∧ (turningB 1).st ≠ .receiving ∧
      (turningB 1).dir = .tx) ∧
    (Meets (.rxByte 6) (withB cfg2 { Bte.reset with rxbuf := List.replicate 260 0 } [.event (.rxByte 6)]) ∧
      Bte.reset.dir = .rx ∧ (List.replicate 260 (0 : Byte)).length < cfg2.rxCap) ∧
    (Meets (.rxByte 6) (withB cfg2 { Bte.reset with rxbuf := List.replicate 261 0 } [.event (.rxByte 6)]) ∧
      ¬ (List.replicate 261 (0 : Byte)).length < cfg2.rxCap) ∧
    (Inv (fresh cfg2 []) ∧ (fresh cfg2 []).bte.dir = .rx) :=
  ⟨⟨⟨by decide, by decide, by decide⟩, by decide, rfl⟩, ⟨⟨legal2, rfl, rfl⟩, rfl, by decide +kernel⟩,
    ⟨⟨legal2, rfl, rfl⟩, by decide +kernel⟩, witness_inv_fresh [], rfl⟩

/-- RetireReportsAndReleasesTheLock, with a request queued behind. -/
theorem witness_RetireReportsAndReleasesTheLock :
    ∃ s t : State, Meets .tick s ∧ s.bte.st = .completed ∧ s.bte.curClient = some 0 ∧
      s.bte.result = some (.failure .timeout) ∧ step s = .next t ∧ Meets .tick t ∧ s.bte.queue = (1, rdReq) :: [] :=
  ⟨withB cfg2 { completedB (.failure .timeout) with queue := [(1, rdReq)] } [],
    { withB cfg2 { completedB (.failure .timeout) with queue := [(1, rdReq)], st := .idle } [] with
      out := [.done 0 (.failure .timeout)] },
    ⟨by decide, by decide, by decide⟩, rfl, rfl, rfl, rfl, ⟨by decide, by decide, by decide⟩, rfl⟩

/-- ResetPutsEveryFieldBack: in the middle of a frame. -/
theorem witness_ResetPutsEveryFieldBack : Meets .reset (withB cfg2 (sendingB 3 1) [.event .reset]) :=
  ⟨by decide, by decide, by decide⟩

/-- IllegalConfigurationAndStrangersAreRefused: `RX_CAP` one too small; the first number that is no client. -/
theorem witness_IllegalConfigurationAndStrangersAreRefused :
    legalCfg { cfg2 with rxCap := 260 } = false ∧ fetch (fresh { cfg2 with rxCap := 260 } []) = none ∧
    requestOf (.rd 0 1 36 2) = some (0, rdReq) ∧
    Meets (.submit 2 rdReq) (fresh cfg2 [.event (.submit 2 rdReq)]) ∧ ¬ 2 < cfg2.nClients :=
  ⟨by decide, by decide, rfl, ⟨by decide, by decide, by decide⟩, by decide⟩

/-- ResetMeetsTheInvariants, StepKeepsTheInvariants, GoodStatesNeverFault and ConfigurationNeverChanges: the least configuration;
a good state and a step of it. -/
theorem witness_StepKeepsTheInvariants :
    legalCfg Cfg.least = true ∧ Inv (fresh cfg2 []) ∧ step (fresh cfg2 []) = .next (fresh cfg2 []) :=
  ⟨by decide, witness_inv_fresh [], rfl⟩

/-- ReachableStatesMeetI1ToI7: reached from reset, a state of each kind but `Idle` (the start itself). -/
theorem witness_ReachableStatesMeetI1ToI7 :
    ∀ st : St, ∃ s : State, Reachable Cfg.least s ∧ s.bte.st = st := by
  let o : Request := .wr 5 25 []
  let l : List Input := [.event (.submit 0 o), .packet (.call .send), .packet (.call .turn), .packet (.call .recv)]
  have h0 := Reachable.start (cfg := Cfg.least) l
  have h1 := h0.after (t := _) rfl
  have hs := (Reachable.start (cfg := Cfg.least) [.event (.submit 0 o),
    .event Event.tick]).after (t := _) rfl |>.after (t := _) rfl
  have h2 := h1.after (t := _) rfl
  have h3 := h2.after (t := _) rfl
  have h4 := h3.after (t := _) rfl
  intro st
  cases st with
  | idle => exact ⟨_, h0, rfl⟩
  | sending => exact ⟨_, hs, rfl⟩
  | awaitingTurnaround => exact ⟨_, h2, rfl⟩
  | receiving => exact ⟨_, h3, rfl⟩
  | completed => exact ⟨_, h4, rfl⟩

/-- The states and events of SequencerMovesAsTabled, DirectionLineMovesInThreePlaces, OnlyCompleteEntersCompleted,
QueueIsFirstInFirstOut, TransactionRegistersAreWrittenAtTheStart and OutputsOfEachEvent: good, no operation presented, and a
step answers; one for each way an event can be met. -/
theorem witness_moves :
    ∀ s ∈ [fresh cfg2 [.event .reset], fresh cfg2 [.event (.submit 1 rdReq)], fresh cfg2 [.event (.rxByte 7)], fresh cfg2 [],
        withB cfg2 (queuedB rdReq) [], withB cfg2 (queuedB (.rd 254 36 2)) [], withB cfg2 (sendingB 0 2) [],
        withB cfg2 (sendingB 6 1) [], withB cfg2 (sendingB 7 1) [], withB cfg2 (turningB 2) [], withB cfg2 (turningB 1) [],
        withB cfg2 (turningBcastB 1) [], withB cfg2 (receivingB [] 2) [], withB cfg2 (receivingB [] 1) [],
        withB cfg2 (receivingB [1, 2, 3, 4, 5, 6, 7] 1) [], withB cfg2 (receivingB [1] 1) [.event (.rxByte 7)],
        withB cfg2 (receivingB [1, 2, 3, 4, 5, 6, 7] 1) [.event (.rxByte 7)],
        withB cfg2 (completedB (.failure .timeout)) []],
      Inv s ∧ fetch s = none ∧ ∃ t, step s = .next t := by
  simp only [List.forall_mem_cons, List.not_mem_nil, false_implies, implies_true, and_true]
  exact ⟨⟨witness_inv_fresh _, rfl, _, rfl⟩, ⟨witness_inv_fresh _, rfl, _, rfl⟩, ⟨witness_inv_fresh _, rfl, _, rfl⟩,
    ⟨witness_inv_fresh _, rfl, _, rfl⟩, ⟨witness_inv_queued _ _, rfl, _, rfl⟩, ⟨witness_inv_queued _ _, rfl, _, rfl⟩,
    ⟨witness_inv_sending 0 2 (by decide) (by decide) (by decide) _, rfl, _, rfl⟩,
    ⟨witness_inv_sending 6 1 (by decide) (by decide) (by decide) _, rfl, _, rfl⟩,
    ⟨witness_inv_sending 7 1 (by decide) (by decide) (by decide) _, rfl, _, rfl⟩,
    ⟨witness_inv_turning 2 (by decide) (by decide) _, rfl, _, rfl⟩,
    ⟨witness_inv_turning 1 (by decide) (by decide) _, rfl, _, rfl⟩,
    ⟨witness_inv_turning_bcast 1 (by decide) (by decide) _, rfl, _, rfl⟩,
    ⟨witness_inv_receiving _ 2 (by decide) (by decide) (by decide) _, rfl, _, rfl⟩,
    ⟨witness_inv_receiving _ 1 (by decide) (by decide) (by decide) _, rfl, _, rfl⟩,
    ⟨witness_inv_receiving _ 1 (by decide) (by decide) (by decide) _, rfl, _, rfl⟩,
    ⟨witness_inv_receiving _ 1 (by decide) (by decide) (by decide) _, rfl, _, rfl⟩,
    ⟨witness_inv_receiving _ 1 (by decide) (by decide) (by decide) _, rfl, _, rfl⟩,
    ⟨witness_inv_completed _, rfl, _, rfl⟩⟩

/-- ServiceFollowsAcceptance: one request submitted and started. -/
theorem witness_ServiceFollowsAcceptance :
    ∃ s t : State, Inv s ∧ s.bte.st = .idle ∧ (∀ p, Input.packet p ∉ s.inbox) ∧ Input.event .reset ∉ s.inbox ∧
      steps 2 s = .next t ∧ t.bte.st = .sending :=
  ⟨fresh cfg2 [.event (.submit 1 rdReq)], _, witness_inv_fresh _, rfl, by simp [fresh, withB], by decide, rfl, rfl⟩

/-- SendPutsTheWholeFrameOut: from the queue, and from the middle of the last byte but one. -/
theorem witness_SendPutsTheWholeFrameOut :
    (legalCfg cfg2 = true ∧ (queuedB rdReq).st = .idle ∧ (queuedB rdReq).queue = (0, rdReq) :: [] ∧ validate rdReq = true ∧
      lineOnly (noisy 16) ∧ tickCount (noisy 16) = (encodeRequest rdReq).length * cfg2.tByte ∧
      (withB cfg2 (queuedB rdReq) (events (noisy 16 ++ [Event.tick]))).inbox = events (noisy 16 ++ [Event.tick]) ++ []) ∧
    ((sendingB 6 1).st = .sending ∧ (sendingB 6 1).dir = .tx ∧ (sendingB 6 1).txbuf = some rdFrame ∧
      (sendingB 6 1).txIdx = some 6 ∧ 6 < rdFrame.length ∧ (sendingB 6 1).byteCnt = some 1 ∧ lineOnly (noisy 2) ∧
      tickCount (noisy 2) + 1 = (rdFrame.length - 1 - 6) * cfg2.tByte + 1 ∧
      (withB cfg2 (sendingB 6 1) (events (noisy 2 ++ [Event.tick]))).inbox = events (noisy 2 ++ [Event.tick]) ++ []) :=
  ⟨⟨by decide +kernel, rfl, rfl, by decide +kernel, lineOnly_noisy 16, by decide +kernel, by decide +kernel⟩,
    ⟨rfl, rfl, rfl, rfl, by decide +kernel, rfl, lineOnly_noisy 2, by decide +kernel, by decide +kernel⟩⟩

/-- TurnWaitsOutTheDelay: a read and a broadcast write, with the whole delay and with one tick left. -/
theorem witness_TurnWaitsOutTheDelay :
    (legalCfg cfg2 = true ∧ (turningB 2).st = .awaitingTurnaround ∧ (turningB 2).dir = .tx ∧ (turningB 2).turnCnt = some 2 ∧
      (turningB 2).expLen = some 8 ∧ lineOnly (noisy 1) ∧ tickCount (noisy 1) + 1 = 2 ∧
      (withB cfg2 (turningB 2) (events (noisy 1 ++ [Event.tick]))).inbox = events (noisy 1 ++ [Event.tick]) ++ []) ∧
    ((turningBcastB 1).st = .awaitingTurnaround ∧ (turningBcastB 1).dir = .tx ∧ (turningBcastB 1).turnCnt = some 1 ∧
      (turningBcastB 1).expLen = some 0 ∧ lineOnly [] ∧ tickCount [] + 1 = 1 ∧
      (withB cfg2 (turningBcastB 1) (events ([] ++ [Event.tick]))).inbox = events ([] ++ [Event.tick]) ++ []) :=
  ⟨⟨by decide +kernel, rfl, rfl, rfl, rfl, lineOnly_noisy 1, by decide +kernel, by decide +kernel⟩,
    ⟨rfl, rfl, rfl, rfl, lineOnly_noisy 0, by decide +kernel, by decide +kernel⟩⟩

/-- RecvReturnsWhenTheCountIsSatisfied (S2's answer, its last byte in the last tick of the window) and
RecvReturnsWhatItHasAtTheTimeout (nothing at all). -/
theorem witness_Recv :
    (legalCfg cfg2 = true ∧ (receivingB [] 1).st = .receiving ∧ (receivingB [] 1).expLen = some 8 ∧
      (receivingB [] 1).toCnt = some 1 ∧ lineOnly (rx [0xFF, 0xFF, 1, 4, 0, 0, 2]) ∧
      tickCount (rx [0xFF, 0xFF, 1, 4, 0, 0, 2]) < 1 ∧
      (receivingB [] 1).rxbuf.length + (arrivals (rx [0xFF, 0xFF, 1, 4, 0, 0, 2])).length + 1 = 8 ∧
      decodeStatus ([] ++ arrivals (rx [0xFF, 0xFF, 1, 4, 0, 0, 2]) ++ [0xF8]) 8 = some (.success [0, 2] 0)) ∧
    (6 ≤ 8 ∧ (receivingB [] 3).toCnt = some 3 ∧ lineOnly (ticks 2) ∧ tickCount (ticks 2) + 1 = 3 ∧
      (receivingB [] 3).rxbuf.length + (arrivals (ticks 2)).length < 8 ∧
      (withB cfg2 (receivingB [] 3) (events (ticks 2 ++ [Event.tick]))).inbox = events (ticks 2 ++ [Event.tick]) ++ []) :=
  ⟨⟨by decide +kernel, rfl, rfl, rfl, lineOnly_rx _, by decide +kernel, by decide +kernel, by decide +kernel⟩,
    ⟨by decide +kernel, rfl, by simp [lineOnly, ticks], by decide +kernel, by decide +kernel, by decide +kernel⟩⟩

/-- PhasesOutOfOrderAreRefused: right after reset. -/
theorem witness_PhasesOutOfOrderAreRefused :
    dueFrame Bte.reset = none ∧ Bte.reset.st ≠ .awaitingTurnaround ∧ Bte.reset.st ≠ .receiving := by decide +kernel

/-- ReadFrameDueIsSent and WriteFrameDueIsSent: the last addressed target, the broadcast target; a frame under way. -/
theorem witness_FramesDue :
    ((queuedB (.rd 253 255 255)).queue = (0, .rd 253 255 255) :: [] ∧ 253 ≤ 253 ∧ 255 ≤ 255 ∧ lineOnly (noisy 16) ∧
      tickCount (noisy 16) = 8 * cfg2.tByte ∧
      (withB cfg2 (queuedB (.rd 253 255 255)) (events (noisy 16 ++ [Event.tick]))).inbox = events (noisy 16 ++ [Event.tick]) ++ []) ∧
    ((queuedB (.wr 254 255 [])).queue = (0, .wr 254 255 []) :: [] ∧ 254 ≤ 254 ∧ ([] : List Byte).length ≤ 252 ∧
      lineOnly (noisy 14) ∧ tickCount (noisy 14) = (7 + ([] : List Byte).length) * cfg2.tByte ∧
      (withB cfg2 (queuedB (.wr 254 255 [])) (events (noisy 14 ++ [Event.tick]))).inbox = events (noisy 14 ++ [Event.tick]) ++ []) ∧
    dueFrame (sendingB 3 1) = some [0xFF, 0xFF, 0x01, 0x04, 0x02, 0x24, 0x02, 0xD2] ∧
    dueFrame (queuedB (.wr 5 25 [])) = some ([0xFF, 0xFF, 0x05, 0x03, 0x03, 0x19] ++ [] ++ [0xDB]) :=
  ⟨⟨rfl, by decide +kernel, by decide +kernel, lineOnly_noisy 16, by decide +kernel, by decide +kernel⟩,
    ⟨rfl, by decide +kernel, by decide +kernel, lineOnly_noisy 14, by decide +kernel, by decide +kernel⟩, by decide +kernel,
      by decide +kernel⟩

/-- FramesHeardOutsideAReceive: the line driven, and the line released with the buffer empty and full. -/
theorem witness_FramesHeardOutsideAReceive :
    (heardFrame (turningB 1) (.read 1 36 2 0xD2) = some rdFrame ∧ (turningB 1).st ≠ .receiving ∧ (turningB 1).dir = .tx) ∧
    (heardFrame Bte.reset (.write 5 3 25 [] 0xDB) = some [0xFF, 0xFF, 5, 3, 3, 25, 0xDB] ∧ Bte.reset.dir = .rx ∧
      Bte.reset.rxbuf.length ≤ cfg2.rxCap) ∧
    (heardFrame Bte.reset (.status 1 2 0 [] 0xFC) = some [0xFF, 0xFF, 1, 2, 0, 0xFC] ∧
      (List.replicate 261 (0 : Byte)).length ≤ cfg2.rxCap) := by
  refine ⟨by decide +kernel, by decide +kernel, by decide +kernel, ?_⟩
  decide +kernel

/-- FramesHeardDuringAReceive: one byte short, and one byte over. -/
theorem witness_FramesHeardDuringAReceive :
    (heardFrame (receivingB [1] 2) (.status 1 2 0 [] 0xFC) = some [0xFF, 0xFF, 1, 2, 0, 0xFC] ∧
      (receivingB [1] 2).dir = .rx ∧ (receivingB [1] 2).expLen = some 8 ∧ (receivingB [1] 2).rxbuf.length < 8 ∧
      (receivingB [1] 2).rxbuf.length + 6 < 8) ∧
    ((receivingB [1, 2, 3] 2).rxbuf.length < 8 ∧ 8 ≤ (receivingB [1, 2, 3] 2).rxbuf.length + 6 ∧
      decodeStatus (([1, 2, 3] ++ [0xFF, 0xFF, 1, 2, 0, 0xFC] : List Byte).take 8) 8 = some (.failure .badHeader)) := by
  decide +kernel

/-- StatusFrameAnswersTheRequest: two data bytes, the right checksum and another. -/
theorem witness_StatusFrameAnswersTheRequest :
    legalCfg cfg2 = true ∧ (receivingB [] 1).st = .receiving ∧ (receivingB [] 1).rxbuf = [] ∧
    (receivingB [] 1).expLen = some (6 + ([0, 2] : List Byte).length) ∧
    (0xF8 : Byte) = chk ([1, 4, 0] ++ [0, 2]) ∧ (0xF9 : Byte) ≠ chk ([1, 4, 0] ++ [0, 2]) := by decide +kernel

theorem witness_ready (l : List Input) : ReadyFor 1 (fresh cfg2 l) := ⟨legal2, Nat.lt_succ_self 1, rfl, rfl⟩

/-- RdTransaction and ExecTransaction: the answer comes in the last tick of the window, with noise before the window; nothing
comes; the request cannot be encoded. -/
theorem witness_RdTransaction :
    (∃ s : State, ReadyFor 1 s ∧ (1 ≤ 253 ∧ 36 ≤ 255 ∧ 0 ≤ 255) ∧ lineOnly (noisy 18) ∧
      lineOnly (ticks 2 ++ rx [0xFF, 0xFF, 1, 2, 0]) ∧ tickCount (noisy 18) = 8 * s.cfg.tByte + s.cfg.tTurn ∧
      tickCount (noisy 18) + 1 = ticksToWindow s.cfg (.rd 1 36 0) ∧ expectedLen (.rd 1 36 0) ≠ 0 ∧
      tickCount (ticks 2 ++ rx [0xFF, 0xFF, 1, 2, 0]) < s.cfg.tTimeout ∧
      (arrivals (ticks 2 ++ rx [0xFF, 0xFF, 1, 2, 0])).length + 1 = 6 + 0 ∧
      decodeStatus (arrivals (ticks 2 ++ rx [0xFF, 0xFF, 1, 2, 0]) ++ [0xFC]) (6 + 0) = some (.success [] 0) ∧
      execResult (.rd 1 36 0) (arrivals (ticks 2 ++ rx [0xFF, 0xFF, 1, 2, 0]) ++ [0xFC]) = some (.success [] 0) ∧
      s.inbox = events (noisy 18 ++ Event.tick :: (ticks 2 ++ rx [0xFF, 0xFF, 1, 2, 0]) ++ [.rxByte 0xFC, Event.tick]) ++ []) ∧
    (∃ s : State, ReadyFor 1 s ∧ lineOnly (ticks 2) ∧ tickCount (ticks 2) + 1 = s.cfg.tTimeout ∧
      (arrivals (ticks 2)).length < 6 + 0 ∧ execResult (.rd 1 36 0) (arrivals (ticks 2)) = some (.failure .timeout) ∧
      s.inbox = events (noisy 18 ++ Event.tick :: ticks 2 ++ [Event.tick, .tick]) ++ []) ∧
    (∃ s : State, ReadyFor 1 s ∧ ¬(254 ≤ 253 ∧ 36 ≤ 255 ∧ 0 ≤ 255) ∧ validate (.rd 254 36 0) = false ∧
      s.inbox = events [Event.tick, .tick] ++ []) :=
  ⟨⟨fresh cfg2 (events (noisy 18 ++ Event.tick :: (ticks 2 ++ rx [0xFF, 0xFF, 1, 2, 0]) ++ [.rxByte 0xFC, Event.tick])),
    witness_ready _,
      by decide +kernel, lineOnly_noisy 18, by simp [lineOnly, ticks, rx], by decide +kernel, by decide +kernel,
        by decide +kernel, by decide +kernel, by decide +kernel,
      by decide +kernel, by decide +kernel, by decide +kernel⟩,
    ⟨fresh cfg2 (events (noisy 18 ++ Event.tick :: ticks 2 ++ [Event.tick, .tick])), witness_ready _, by simp [lineOnly, ticks],
      by decide +kernel, by decide +kernel, by decide +kernel, by decide +kernel⟩,
    ⟨fresh cfg2 (events [Event.tick, .tick]), witness_ready _, by decide +kernel, by decide +kernel, by decide +kernel⟩⟩

/-- WrTransaction, as for RD; the last addressed target, and the first that is none. -/
theorem witness_WrTransaction :
    (∃ s : State, ReadyFor 1 s ∧ (253 ≤ 253 ∧ 25 ≤ 255 ∧ ([] : List Byte).length ≤ 252) ∧ lineOnly (noisy 16) ∧
      tickCount (noisy 16) = (7 + ([] : List Byte).length) * s.cfg.tByte + s.cfg.tTurn ∧
      lineOnly (rx [0xFF, 0xFF, 253, 2, 0]) ∧ tickCount (rx [0xFF, 0xFF, 253, 2, 0]) < s.cfg.tTimeout ∧
      (arrivals (rx [0xFF, 0xFF, 253, 2, 0])).length + 1 = 6 ∧
      decodeStatus (arrivals (rx [0xFF, 0xFF, 253, 2, 0]) ++ [0x00]) 6 = some (.success [] 0) ∧
      s.inbox = events (noisy 16 ++ Event.tick :: rx [0xFF, 0xFF, 253, 2, 0] ++ [.rxByte 0x00, Event.tick]) ++ []) ∧
    (∃ s : State, ReadyFor 1 s ∧ tickCount (noisy 2) + 1 = s.cfg.tTimeout ∧ (arrivals (noisy 2)).length < 6 ∧
      s.inbox = events (noisy 16 ++ Event.tick :: noisy 2 ++ [Event.tick, .tick]) ++ []) ∧
    (∃ s : State, ReadyFor 1 s ∧ 255 ≠ 254 ∧ ¬(255 ≤ 253 ∧ 25 ≤ 255 ∧ ([] : List Byte).length ≤ 252) ∧
      s.inbox = events [Event.tick, .tick] ++ []) :=
  ⟨⟨fresh cfg2 (events (noisy 16 ++ Event.tick :: rx [0xFF, 0xFF, 253, 2, 0] ++ [.rxByte 0x00, Event.tick])), witness_ready _,
      by decide +kernel, lineOnly_noisy 16, by decide +kernel, lineOnly_rx _, by decide +kernel, by decide +kernel,
        by decide +kernel, by decide +kernel⟩,
    ⟨fresh cfg2 (events (noisy 16 ++ Event.tick :: noisy 2 ++ [Event.tick, .tick])), witness_ready _, by decide +kernel,
      by decide +kernel, by decide +kernel⟩,
    ⟨fresh cfg2 (events [Event.tick, .tick]), witness_ready _, by decide +kernel, by decide +kernel, by decide +kernel⟩⟩

/-- WrBcastTransaction and the broadcast clause of ExecTransaction; and an address that is none. -/
theorem witness_WrBcastTransaction :
    (∃ s : State, ReadyFor 1 s ∧ (255 ≤ 255 ∧ ([] : List Byte).length ≤ 252) ∧ lineOnly (noisy 16) ∧
      tickCount (noisy 16) = (7 + ([] : List Byte).length) * s.cfg.tByte + s.cfg.tTurn ∧
      expectedLen (.wr 254 255 []) = 0 ∧ tickCount (noisy 16) + 1 = ticksToWindow s.cfg (.wr 254 255 []) ∧
      s.inbox = events (noisy 16 ++ [Event.tick, .tick]) ++ []) ∧
    (∃ s : State, ReadyFor 1 s ∧ ¬(256 ≤ 255 ∧ ([] : List Byte).length ≤ 252) ∧ s.inbox = events [Event.tick, .tick] ++ []) :=
  ⟨⟨fresh cfg2 (events (noisy 16 ++ [Event.tick, .tick])), witness_ready _, by decide +kernel, lineOnly_noisy 16,
    by decide +kernel, by decide +kernel,
      by decide +kernel, by decide +kernel⟩,
    ⟨fresh cfg2 (events [Event.tick, .tick]), witness_ready _, by decide +kernel, by decide +kernel⟩⟩

/-- ConstructionErrorSendsNothing and FullQueueTurnsACallAway, for each of the four calls. -/
theorem witness_calls :
    requestOf (.rd 1 254 36 2) = some (1, .rd 254 36 2) ∧ requestOf (.wr 1 255 30 []) = some (1, .wr 255 30 []) ∧
    requestOf (.wrBcast 1 256 []) = some (1, .wr 254 256 []) ∧ requestOf (.exec 1 rdReq) = some (1, rdReq) ∧
    ReadyFor 1 (fresh cfg2 (events [Event.tick, .tick])) ∧ validate (.rd 254 36 2) = false ∧ validate (.wr 255 30 []) = false ∧
    validate (.wr 254 256 []) = false ∧ (fresh cfg2 (events [Event.tick, .tick])).inbox = events [Event.tick, .tick] ++ [] ∧
    1 < cfg2.nClients ∧ ¬ ([(0, rdReq), (1, rdReq)] : List (Nat × Request)).length < cfg2.qDepth :=
  ⟨rfl, rfl, rfl, rfl, witness_ready _, by decide +kernel, by decide +kernel, by decide +kernel, by decide +kernel,
    by decide +kernel, by decide +kernel⟩

/-- EveryAcceptedCallIsAnswered: another transaction under way and bytes and a submission still to come. -/
theorem witness_EveryAcceptedCallIsAnswered :
    ∃ s : State, requestOf (.exec 1 rdReq) = some (1, rdReq) ∧ Inv s ∧ 1 < s.cfg.nClients ∧
      s.bte.queue.length < s.cfg.qDepth ∧ NoReset s.cfg s.inbox := by
  refine ⟨withB cfg2 (receivingB [1] 2) [.event (.rxByte 2), .event (.submit 0 rdReq)], rfl,
    witness_inv_receiving [1] 2 (by decide +kernel) (by decide +kernel) (by decide +kernel) _, by decide +kernel,
      by decide +kernel, ?_⟩
  intro e he
  simp only [withB, List.mem_cons, Input.event.injEq, List.not_mem_nil, or_false] at he
  rcases he with rfl | rfl <;> exact ⟨by decide +kernel, by decide +kernel⟩

/-- ResetAbandonsACallUnderWay: before the start, in the last byte, on the last tick before the window. -/
theorem witness_ResetAbandonsACallUnderWay :
    (∀ n ∈ [0, 16, 18], ReadyFor 1 (fresh cfg2 (events (noisy n ++ [Event.reset]))) ∧ lineOnly (noisy n) ∧
      tickCount (noisy n) < ticksToWindow cfg2 rdReq) ∧ validate rdReq = true := by
  refine ⟨fun n hn => ⟨witness_ready _, lineOnly_noisy n, ?_⟩, by decide +kernel⟩
  simp only [List.mem_cons, List.not_mem_nil, or_false] at hn
  rcases hn with rfl | rfl | rfl <;> decide +kernel

/-- ResultPortCarriesTheResult and RawBytesRoundTrip. -/
theorem witness_host :
    (List.replicate 255 (0 : Byte)).length ≤ 255 ∧ 65535 < 65536 ∧
    Inv (withB cfg2 { completedB (.failure .timeout) with result := some (.success [1] 0) } []) ∧
    (withB cfg2 { completedB (.failure .timeout) with result := some (.success [1] 0) } []).bte.result =
      some (.success [1] 0) := by
  refine ⟨by decide +kernel, by decide +kernel, ?_, rfl⟩
  refine ⟨legal2, ⟨⟨?_, ?_, ?_, ?_, ?_, ?_, ?_, ?_, ?_, ?_⟩, ?_, ?_, ?_, ?_, ?_, ?_⟩⟩ <;>
    simp [withB, completedB, receivingB, turningB, sendingB, rdFrame, Bte.reset, cfg2]

/-- RegistryDescribesItsRegisters: an entry; the last addressed target; the largest raw value of each width. -/
theorem witness_RegistryDescribesItsRegisters :
    (∃ d, describeRegister "position" = some d ∧ d.width = .two ∧ 65535 < 256 ^ widthBytes d.width) ∧
    (∃ d : RegisterDescriptor, d.width = .one ∧ 255 < 256 ^ widthBytes d.width) ∧ 253 ≤ 253 :=
  ⟨⟨{ name := "position", address := 36, width := .two, quantity := .position }, by decide +kernel, rfl, by decide⟩,
    ⟨{ name := "", address := 0, width := .one, quantity := .voltage }, rfl, by decide⟩, by decide⟩

end Sys2Proof.Tests
end

section
/-! SUPPORT. What an operation and a step leave of a good state, and so what every reachable state is (R26). -/

namespace Sys2Proof.Machine

/-- DEC_ST gives a value back, or is refused outside its domain (R99, R103). -/
theorem keeps_execDecSt (raw : List Byte) (e : Nat) : Keeps (execDecSt raw e) := by
  intro s h
  unfold execDecSt
  split
  · exact keeps_giveBack (fun _ => _) s h
  · exact keeps_refused s _

/-- An operation that runs out where it has its place, and is refused elsewhere (R124), keeps a good state good. -/
theorem keeps_ite_refused {s : State} {o : Host.Outcome State Fault Refusal} {p : Prop} [Decidable p] (r : Refusal)
    (h : p → Settles s o) :
    NoFault (if p then o else .refused r) ∧
      ∀ t, (if p then o else .refused r) = .next t → Inv t ∧ t.cfg = s.cfg := by
  by_cases hp : p
  · rw [if_pos hp]; exact (h hp).keeps
  · rw [if_neg hp]; exact keeps_refused s r

/-- Every operation keeps a good state good, and faults in none. -/
theorem keeps_exec (i : Instr) : Keeps (exec i) := by
  cases i with
  | read t a n k => exact keeps_carryFrame _
  | write t l a d k => exact keeps_carryFrame _
  | status id l e p k => exact keeps_hearFrame _
  | rd c t a n => exact keeps_transact c _
  | wr c t a d => exact keeps_transact c _
  | wrBcast c a d => exact keeps_transact c _
  | chk bs => exact keeps_giveBack fun _ => .byte (chk bs)
  | encRd t a n => exact keeps_giveBack fun _ => encoderAnswer (.rd t a n)
  | encWr t a d => exact keeps_giveBack fun _ => encoderAnswer (.wr t a d)
  | decSt raw e => exact keeps_execDecSt raw e
  | send => exact fun _ h => keeps_ite_refused _ (sendPhase_settles h)
  | turn => exact fun _ h => keeps_ite_refused _ (turn_settles h)
  | recv => exact fun _ h => keeps_ite_refused _ (recv_settles h)
  | exec c q => exact keeps_transact c q

/-- What a step is: the operation presented next, run with it taken from the inputs; its refusal; or the next event. -/
theorem step_cases (s : State) :
    (∃ i l, step s = exec i (setInbox l s)) ∨ (∃ e, step s = .refused (.undecodable e)) ∨ step s = advance s := by
  unfold step
  cases hf : fetch s with
  | none => exact .inr (.inr rfl)
  | some r =>
    obtain ⟨p, s1⟩ := r
    obtain ⟨l, rfl⟩ : ∃ l, s1 = setInbox l s := by
      unfold fetch at hf
      split at hf
      · injection hf with hf; injection hf with _ hs; exact ⟨_, hs.symm⟩
      · cases hf
      · cases hf
    cases hd : decode p with
    | ok i => exact .inl ⟨i, l, by simp [hd]⟩
    | error e => exact .inr (.inl ⟨e, by simp [hd]⟩)

theorem keeps_step : Keeps step := by
  intro s h
  rcases step_cases s with ⟨i, l, hs⟩ | ⟨e, hs⟩ | hs
  · rw [hs]; exact keeps_exec i (setInbox l s) ⟨h.legal, h.inv⟩
  · rw [hs]; exact keeps_refused s _
  · rw [hs]; exact (advance_settles h).keeps

/-- Every reachable state is good, under the configuration it started with. -/
theorem Reachable.inv {cfg : Cfg} {s : State} (hl : legalCfg cfg = true) (h : Reachable cfg s) :
    Inv s ∧ s.cfg = cfg := by
  induction h with
  | start l => exact ⟨⟨hl, EngineInv.reset cfg⟩, rfl⟩
  | after _ ht ih =>
    obtain ⟨hi, hc⟩ := ih
    obtain ⟨hti, htc⟩ := (keeps_step _ hi).2 _ ht
    exact ⟨hti, htc.trans hc⟩

end Sys2Proof.Machine
end

section
/-! SUPPORT. The queue over every transition (R15, R160), and the one place where a receive starts (R146). -/

namespace Sys2Proof.Machine

/-- The queue after event `e`: first in, first out (R15, R142, R144, R154). -/
def queueAfter (cfg : Cfg) (b : Bte) : Event → List (Nat × Request)
  | .reset => []
  | .submit c q => if b.queue.length < cfg.qDepth then b.queue ++ [(c, q)] else b.queue
  | .tick => if b.st = .idle then b.queue.tail else b.queue
  | .rxByte _ => b.queue

theorem Moves.queue_eq {cfg : Cfg} {b b' : Bte} {e : Event} {o : List Output} (h : Moves cfg b e b' o) :
    b'.queue = queueAfter cfg b e := by
  cases h with
  | reset | rxMore | rxLast | rxGated | rxStale => rfl
  | accept c q hlt => simp [queueAfter, hlt]
  | reject c q hge => simp [queueAfter, hge]
  | idle hs hq | start c q rest hs hq hv | constructionError c q rest hs hq hv => simp [queueAfter, hs, hq]
  | shift n hs | byteOut f i x hs | drain f i x hs | turn n hs | broadcast hs | window e hs | wait n hs | late e r hs
    | retire c r hs => simp [queueAfter, hs]

/-- Only the start transition and `Reset` shorten the queue. -/
theorem start_of_queueAfter_shorter {cfg : Cfg} {b : Bte} {e : Event} (hr : e ≠ .reset)
    (h : (queueAfter cfg b e).length < b.queue.length) : e = .tick ∧ b.st = .idle := by
  cases e with
  | reset => exact absurd rfl hr
  | submit c q => simp only [queueAfter] at h; split at h <;> simp at h
  | rxByte x => simp [queueAfter] at h
  | tick =>
    refine ⟨rfl, ?_⟩
    by_contra hs
    simp [queueAfter, hs] at h

/-- The start transition loads the client and the request at the head of the queue (R144, R16). -/
theorem tickIdle_loads_head (cfg : Cfg) {b : Bte} {e : Nat × Request} {rest : List (Nat × Request)}
    (hq : b.queue = e :: rest) :
    (tickIdle cfg b).1.curClient = some e.1 ∧ (tickIdle cfg b).1.curReq = some e.2 := by
  rcases tickIdle_cases cfg b with ⟨hn, -⟩ | ⟨c, q, l, hc, ht⟩
  · rw [hq] at hn; cases hn
  · rw [hq] at hc
    injection hc with he
    subst he
    rcases ht with ⟨-, ht⟩ | ⟨-, ht⟩ <;> rw [ht] <;> exact ⟨rfl, rfl⟩

/-- The receiver is entered from the turnaround delay only, and keeps the receive buffer as it is (R146, R158). -/
theorem Moves.enters_receiving {cfg : Cfg} {b b' : Bte} {e : Event} {o : List Output} (h : Moves cfg b e b' o)
    (hs : b.st ≠ .receiving) (hs' : b'.st = .receiving) : b.st = .awaitingTurnaround ∧ b'.rxbuf = b.rxbuf := by
  cases h with
  | window e ht => exact ⟨ht, rfl⟩
  | rxMore x e hr | rxLast x e r hr | wait n hr | late e r hr => exact absurd hr hs
  | reset | start | constructionError | drain | broadcast | retire => cases hs'
  | accept | reject | rxGated | rxStale | idle | shift | byteOut | turn => exact absurd hs' hs

end Sys2Proof.Machine
end

section
/-! The invariants I1 to I7 of R26, one lemma each where the rule says more than a field of `EngineInv`, and the statements
settled from them. -/

namespace Sys2Proof.Machine

/-- I1: the direction line is at receive-enable only while nothing is being sent. -/
theorem EngineInv.st_of_dir_rx {cfg : Cfg} {b : Bte} (h : EngineInv cfg b) (hd : b.dir = .rx) :
    b.st = .idle ∨ b.st = .receiving ∨ b.st = .completed := by
  cases hs : b.st with
  | idle => exact .inl rfl
  | receiving => exact .inr (.inl rfl)
  | completed => exact .inr (.inr rfl)
  | sending => exact absurd (hd.symm.trans (h.sending hs).1) (by decide)
  | awaitingTurnaround => exact absurd (hd.symm.trans (h.turnaround hs).1) (by decide)

/-- I2: a receive expects a status frame and has not got all of it. -/
theorem EngineInv.receive_pending {cfg : Cfg} {b : Bte} (h : EngineInv cfg b) (hs : b.st = .receiving) :
    b.dir = .rx ∧ ∃ e, b.expLen = some e ∧ 6 ≤ e ∧ b.rxbuf.length < e := by
  obtain ⟨hd, q, n, ⟨-, -, -, he⟩, h6, hlt, -⟩ := h.receiving hs
  exact ⟨hd, _, he, h6, hlt⟩

/-- I3: a receive starts with an empty buffer. -/
theorem EngineInv.receive_starts_empty {cfg : Cfg} {b b' : Bte} {e : Event} {o : List Output} (h : EngineInv cfg b)
    (he : engine cfg b e = .ok (b', o)) (hs : b.st ≠ .receiving) (hs' : b'.st = .receiving) : b'.rxbuf = [] := by
  obtain ⟨ht, hr⟩ := (engine_moves h he).enters_receiving hs hs'
  obtain ⟨-, hempty, -⟩ := h.turnaround ht
  exact hr.trans hempty

/-- I5 in `Sending`. -/
theorem EngineInv.sending_registers {cfg : Cfg} {b : Bte} (h : EngineInv cfg b) (hs : b.st = .sending) :
    ∃ q i n, b.curReq = some q ∧ validate q = true ∧ b.txbuf = some (encodeRequest q) ∧ b.txIdx = some i ∧
      i < (encodeRequest q).length ∧ b.byteCnt = some n ∧ 1 ≤ n ∧ n ≤ cfg.tByte := by
  obtain ⟨-, -, q, i, n, ⟨hq, hv, hf, -⟩, hi, hlt, hn⟩ := h.sending hs
  exact ⟨q, i, n, hq, hv, hf, hi, hlt, hn, h.ranges.byteCnt n hn⟩

/-- I5 in `AwaitingTurnaround`. -/
theorem EngineInv.turnaround_registers {cfg : Cfg} {b : Bte} (h : EngineInv cfg b) (hs : b.st = .awaitingTurnaround) :
    ∃ f n, b.txbuf = some f ∧ b.txIdx = some f.length ∧ b.turnCnt = some n ∧ 1 ≤ n ∧ n ≤ cfg.tTurn := by
  obtain ⟨-, -, q, n, ⟨-, -, hf, -⟩, hi, hn⟩ := h.turnaround hs
  exact ⟨_, n, hf, hi, hn, h.ranges.turnCnt n hn⟩

/-- I5 in `Receiving`. -/
theorem EngineInv.receiving_registers {cfg : Cfg} {b : Bte} (h : EngineInv cfg b) (hs : b.st = .receiving) :
    ∃ n, b.toCnt = some n ∧ 1 ≤ n ∧ n ≤ cfg.tTimeout := by
  obtain ⟨-, q, n, -, -, -, hn⟩ := h.receiving hs
  exact ⟨n, hn, h.ranges.toCnt n hn⟩

/-- I5 in `Completed`. -/
theorem EngineInv.completed_registers {cfg : Cfg} {b : Bte} (h : EngineInv cfg b) (hs : b.st = .completed) :
    ∃ r c, b.result = some r ∧ b.curClient = some c := by
  obtain ⟨r, hr⟩ := h.completed hs
  obtain ⟨c, hc, -⟩ := h.holder (by rw [hs]; decide)
  exact ⟨r, c, hr, hc⟩

/-- I7: but for `Reset`, a request leaves the queue only by the start transition, so no transaction starts while one is in
progress. -/
theorem EngineInv.dequeues_when_idle {cfg : Cfg} {b b' : Bte} {e : Event} {o : List Output} (h : EngineInv cfg b)
    (he : engine cfg b e = .ok (b', o)) (hr : e ≠ .reset) (hq : b'.queue.length < b.queue.length) :
    e = .tick ∧ b.st = .idle :=
  start_of_queueAfter_shorter hr ((engine_moves h he).queue_eq ▸ hq)

/-- Settles O29: every reachable state is good, by induction on how it is reached, and a good state meets I1 to I7. -/
theorem reachableStatesMeetI1ToI7 : Obligations.ReachableStatesMeetI1ToI7 := by
  intro cfg s hl hreach
  obtain ⟨⟨-, h⟩, rfl⟩ := hreach.inv hl
  exact ⟨h.st_of_dir_rx, h.receive_pending, fun _ _ _ => h.receive_starts_empty, ⟨h.ranges.queue, h.ranges.rxbuf⟩,
    ⟨h.sending_registers, h.turnaround_registers, h.receiving_registers, h.completed_registers⟩, h.driven,
    fun _ _ _ => h.dequeues_when_idle⟩

/-- Settles O35: each event leaves the queue as `queueAfter` says, and the start transition loads its head. -/
theorem queueIsFirstInFirstOut : Obligations.QueueIsFirstInFirstOut := by
  intro s t h hf ht
  obtain ⟨-, -, -, -, o, he, -⟩ := step_event hf ht
  constructor
  · rw [(engine_moves h.inv he).queue_eq]
    cases nextEvent s with
    | reset | submit c q | rxByte x => rfl
    | tick => cases hs : s.bte.st <;> simp [queueAfter, hs]
  · intro e rest hev hs hq
    rw [hev, engine_tick_idle hs] at he
    injection he with he
    have hload := tickIdle_loads_head s.cfg hq
    rwa [he] at hload

end Sys2Proof.Machine
end

section
/-! The instruction frames a decoder accepts and the frames BTE sends have one opcode map (R68). -/

namespace Sys2Proof

open Sys2Proof.Machine

/-- An instruction frame that decodes is the READ frame of R61 or a WRITE frame of R62, and the instruction has its fields. -/
theorem decodeInstrFrame_ok_cases {bytes : List Byte} {i : Instr} (h : decodeInstrFrame bytes = .ok i) :
    (∃ t a n k, bytes = readBytes t a n k ∧ i = .read t a n k) ∨
      (∃ t l a d k, bytes = writeBytes t l a d k ∧ i = .write t l a d k) := by
  unfold decodeInstrFrame at h
  split at h
  next h0 h1 t l op a rest =>
    by_cases hh : h0 ≠ 0xFF ∨ h1 ≠ 0xFF
    · rw [if_pos hh] at h; cases h
    rw [if_neg hh] at h
    obtain ⟨rfl, rfl⟩ : h0 = 0xFF ∧ h1 = 0xFF := by simpa using hh
    by_cases hread : op = 0x02
    · rw [if_pos hread] at h
      by_cases hlen : l ≠ 0x04
      · rw [if_pos hlen] at h; cases h
      rw [if_neg hlen] at h
      split at h
      next n k =>
        cases h
        exact .inl ⟨t, a, n, k, by rw [hread, not_not.mp hlen]; rfl, rfl⟩
      next => cases h
    rw [if_neg hread] at h
    by_cases hwrite : op = 0x03
    · rw [if_pos hwrite] at h
      split at h
      next k hk =>
        cases h
        obtain ⟨d, rfl⟩ := List.getLast?_eq_some_iff.mp hk
        exact .inr ⟨t, l, a, d, k, by rw [hwrite]; rfl, by rw [List.dropLast_concat]⟩
      next => cases h
    · rw [if_neg hwrite] at h; cases h
  next => cases h

@[simp] theorem readBytes_opcode (t a n k : Byte) : (readBytes t a n k)[4]? = some 0x02 := rfl
@[simp] theorem writeBytes_opcode (t l a : Byte) (d : List Byte) (k : Byte) :
    (writeBytes t l a d k)[4]? = some 0x03 := rfl

end Sys2Proof

namespace Sys2Proof.Machine

@[simp] theorem encRead_opcode (t a n : Nat) : (encRead t a n)[4]? = some 0x02 := rfl
@[simp] theorem encWrite_opcode (t a : Nat) (d : List Byte) : (encWrite t a d)[4]? = some 0x03 := rfl

/-- R68 for the encoder: a read request gives the read opcode, a write request the write opcode. -/
theorem encodeRequest_opcode (q : Request) :
    (encodeRequest q)[4]? = some 0x02 ∨ (encodeRequest q)[4]? = some 0x03 := by
  cases q with
  | rd t a n => exact .inl (encRead_opcode t a n)
  | wr t a d => exact .inr (encWrite_opcode t a d)

/-- Settles O4: what decodes is a READ or a WRITE frame, and what a good state sends is the encoding of its request. -/
theorem instructionFramesHaveTwoOpcodes : Obligations.InstructionFramesHaveTwoOpcodes := by
  constructor
  · intro bytes i h
    obtain ⟨t, a, n, k, rfl, rfl⟩ | ⟨t, l, a, d, k, rfl, rfl⟩ := decodeInstrFrame_ok_cases h
    · exact .inl ⟨readBytes_opcode t a n k, t, a, n, k, rfl⟩
    · exact .inr ⟨writeBytes_opcode t l a d k, t, l, a, d, k, rfl⟩
  · intro s h hs
    obtain ⟨q, -, -, -, -, hf, -⟩ := h.inv.sending_registers hs
    exact ⟨encodeRequest q, hf, encodeRequest_opcode q⟩

end Sys2Proof.Machine
end

section
/-! The result port (R67). -/

namespace Sys2Proof.Machine

/-- `data_len` holds the length of the data of every result that R11 admits. -/
theorem resultPort_dataLen_toNat (c : Nat) (d : List Byte) (err : Byte) (h : d.length ≤ 255) :
    (resultPort c (.success d err)).dataLen.toNat = d.length :=
  Nat.mod_eq_of_lt (Nat.lt_succ_of_le h)

/-- R200: of a failure the port carries the reason alone. -/
theorem resultPort_failure (c : Nat) (x : Reason) :
    resultPort c (.failure x) = { status := statusCode (.failure x), err := 0, dataLen := 0, data := [], client := c } := rfl

/-- Settles O57: a length up to 255 fits `data_len`, a failure has one status number for each reason, and R11 bounds the data
of the result stored in a good state. -/
theorem resultPortCarriesTheResult : Obligations.ResultPortCarriesTheResult := by
  refine ⟨fun c d err h => ⟨rfl, rfl, resultPort_dataLen_toNat c d err h, rfl, rfl⟩, fun c x => ?_,
    fun s h => h.inv.ranges.result⟩
  rw [resultPort_failure]
  refine ⟨rfl, rfl, rfl, rfl, ?_⟩
  cases x with
  | constructionError | timeout | shortFrame | badHeader | checksumMismatch => rfl

end Sys2Proof.Machine
end

section
/-! The checksum (R90, R91): a sum modulo 256, so that the order of the bytes does not matter and one changed byte does. -/

namespace Sys2Proof.Machine

/-- CHK gives the checksum back and writes nothing else (R90, R103). -/
theorem exec_chk (bs : List Byte) (s : State) : exec (.chk bs) s = .next { s with ret := some (.byte (chk bs)) } := rfl

theorem byteSum_eq_sum_map_toNat (bs : List Byte) : byteSum bs = (bs.map BitVec.toNat).sum := by
  induction bs with
  | nil => rfl
  | cons x xs ih => simp [ih]

theorem chk_perm {bs bs' : List Byte} (h : bs.Perm bs') : chk bs = chk bs' := by
  rw [chk_eq_iff, byteSum_eq_sum_map_toNat, byteSum_eq_sum_map_toNat, (h.map BitVec.toNat).sum_eq]

/-- R91 (a). -/
theorem byteSum_add_chk_mod (bs : List Byte) : (byteSum bs + (chk bs).toNat) % 256 = 255 := by
  rw [chk_toNat]; omega

/-- R91 (b): one changed byte changes the sum by less than 256. -/
theorem chk_ne_of_byte_ne (xs ys : List Byte) {x y : Byte} (h : x ≠ y) : chk (xs ++ x :: ys) ≠ chk (xs ++ y :: ys) := by
  have hne : x.toNat ≠ y.toNat := mt BitVec.eq_of_toNat_eq h
  have hx := x.isLt
  have hy := y.isLt
  rw [Ne, chk_eq_iff]
  simp only [byteSum_append, byteSum_cons]
  omega

/-- R91 (c): two changes that cancel modulo 256. -/
theorem chk_eq_of_two_bytes (xs ys zs : List Byte) {x y u v : Byte}
    (h : (x.toNat + y.toNat) % 256 = (u.toNat + v.toNat) % 256) :
    chk (xs ++ x :: ys ++ y :: zs) = chk (xs ++ u :: ys ++ v :: zs) := by
  rw [chk_eq_iff]
  simp only [byteSum_append, byteSum_cons]
  omega

/-- Settles O6: the checksum as a number, and its indifference to the order of the bytes. -/
theorem chkComplementsTheByteSum : Obligations.ChkComplementsTheByteSum :=
  ⟨fun bs s => ⟨chk bs, by rw [chk_toNat, byteSum_eq_sum_map_toNat], exec_chk bs s⟩, fun _ _ => chk_perm⟩

/-- Settles O7: the three laws, one lemma each. -/
theorem chkLaws : Obligations.ChkLaws :=
  ⟨fun bs => byteSum_eq_sum_map_toNat bs ▸ byteSum_add_chk_mod bs, fun xs ys _ _ => chk_ne_of_byte_ne xs ys,
    fun xs ys zs _ _ _ _ => chk_eq_of_two_bytes xs ys zs, fun _ _ => chk_perm⟩

end Sys2Proof.Machine
end

section
/-! The encoders' answers (R94, R95). -/

namespace Sys2Proof.Machine

/-- ENC_RD gives its answer back and writes nothing else (R94, R103). -/
theorem exec_encRd (t a n : Nat) (s : State) :
    exec (.encRd t a n) s = .next { s with ret := some (encoderAnswer (.rd t a n)) } := rfl

/-- ENC_WR gives its answer back and writes nothing else (R95, R103). -/
theorem exec_encWr (t a : Nat) (d : List Byte) (s : State) :
    exec (.encWr t a d) s = .next { s with ret := some (encoderAnswer (.wr t a d)) } := rfl

theorem encoderAnswer_valid {q : Request} (h : validate q = true) : encoderAnswer q = .frame (encodeRequest q) := if_pos h

theorem encoderAnswer_invalid {q : Request} (h : ¬validate q = true) :
    encoderAnswer q = .result (.failure .constructionError) := if_neg h

/-- Settles O8: `validate` is the range of the operands, and the answer follows it. -/
theorem encRdBuildsTheReadFrame : Obligations.EncRdBuildsTheReadFrame := by
  intro t a n s
  rw [exec_encRd, ← validate_rd]
  constructor
  · intro h; rw [encoderAnswer_valid h]; rfl
  · intro h; rw [encoderAnswer_invalid h]

/-- Settles O9: `validate` is the range of the operands, and the answer follows it. -/
theorem encWrBuildsTheWriteFrame : Obligations.EncWrBuildsTheWriteFrame := by
  intro t a d s
  rw [exec_encWr, ← validate_wr]
  constructor
  · intro h
    exact ⟨encWrite t a d, writeBody t a d, rfl, rfl, encWrite_length t a d, by rw [encoderAnswer_valid h]; rfl⟩
  · intro h; rw [encoderAnswer_invalid h]

end Sys2Proof.Machine
end

section
/-! The arms of the status decoder, by the positions it looks at (R97, R99). -/

namespace Sys2Proof.Machine

/-- DEC_ST gives the decoder's result back and writes nothing else (R97, R103). -/
theorem exec_decSt_of_decodeStatus {raw : List Byte} {e : Nat} {r : Result} (h : decodeStatus raw e = some r) (s : State) :
    exec (.decSt raw e) s = .next { s with ret := some (.result r) } := by
  change execDecSt raw e s = _
  rw [execDecSt, h]; rfl

theorem exec_decSt_refused (raw : List Byte) {e : Nat} (h : e < 6) (s : State) :
    exec (.decSt raw e) s = .refused .decodeStatusDomain := by
  change execDecSt raw e s = _
  rw [execDecSt, decodeStatus_domain raw e h]

section FullLength

variable {raw : List Byte} {e : Nat} (h6 : 6 ≤ e) (hl : raw.length = e)
include h6 hl

/-- With the expected number of bytes there, the header is tested, then the checksum. -/
theorem decodeStatus_full : decodeStatus raw e =
    if raw[0]? ≠ some hdr ∨ raw[1]? ≠ some hdr then some (.failure .badHeader)
    else if raw[e - 1]? ≠ some (chk (slice raw 2 (e - 1))) then some (.failure .checksumMismatch)
    else raw[4]?.map fun err => .success (slice raw 5 (e - 1)) err := by
  have hdomain : ¬e < statusMin := Nat.not_lt.mpr h6
  have hsome : raw.length ≠ 0 := by omega
  rw [decodeStatus, if_neg hdomain, if_neg hsome, if_neg (not_not.mpr hl)]

theorem decodeStatus_badHeader (hh : raw[0]? ≠ some hdr ∨ raw[1]? ≠ some hdr) :
    decodeStatus raw e = some (.failure .badHeader) := by
  rw [decodeStatus_full h6 hl, if_pos hh]

theorem decodeStatus_checksumMismatch (hh0 : raw[0]? = some hdr) (hh1 : raw[1]? = some hdr)
    (hk : raw[e - 1]? ≠ some (chk (slice raw 2 (e - 1)))) :
    decodeStatus raw e = some (.failure .checksumMismatch) := by
  rw [decodeStatus_full h6 hl, if_neg (by simp [hh0, hh1]), if_pos hk]

theorem decodeStatus_success {err : Byte} (hh0 : raw[0]? = some hdr) (hh1 : raw[1]? = some hdr)
    (herr : raw[4]? = some err) (hk : raw[e - 1]? = some (chk (slice raw 2 (e - 1)))) :
    decodeStatus raw e = some (.success (slice raw 5 (e - 1)) err) := by
  rw [decodeStatus_full h6 hl, if_neg (by simp [hh0, hh1]), if_neg (not_not.mpr hk), herr]; rfl

end FullLength

/-- R99: on a wrong number of bytes only the first two tests of R97 can fire. -/
theorem decodeStatus_of_length_ne {raw : List Byte} {e : Nat} (h6 : 6 ≤ e) (hl : raw.length ≠ e) :
    decodeStatus raw e = some (.failure .timeout) ∨ decodeStatus raw e = some (.failure .shortFrame) := by
  by_cases h0 : raw = []
  · exact .inl (h0 ▸ decodeStatus_empty e h6)
  · exact .inr (decodeStatus_short raw e h6 h0 hl)

/-- Settles O11: one arm of the decoder for each clause. -/
theorem decStTestsInOrder : Obligations.DecStTestsInOrder := by
  intro raw e s h6
  refine ⟨fun h0 => ?_, fun h0 hl => ?_, fun hl hh => ?_, fun hl hh0 hh1 hk => ?_, fun err hl hh0 hh1 herr hk => ?_⟩
  · rw [List.length_eq_zero_iff.mp h0]
    exact exec_decSt_of_decodeStatus (decodeStatus_empty e h6) s
  · exact exec_decSt_of_decodeStatus (decodeStatus_short raw e h6 (mt List.length_eq_zero_iff.mpr h0) hl) s
  · exact exec_decSt_of_decodeStatus (decodeStatus_badHeader h6 hl hh) s
  · exact exec_decSt_of_decodeStatus (decodeStatus_checksumMismatch h6 hl hh0 hh1 hk) s
  · exact exec_decSt_of_decodeStatus (decodeStatus_success h6 hl hh0 hh1 herr hk) s

/-- Settles O12: the domain's arm of DEC_ST, the two arms of a wrong length, and I2 of R26. -/
theorem decStIsRefusedBelowSix : Obligations.DecStIsRefusedBelowSix := by
  refine ⟨fun raw e s h => exec_decSt_refused raw h s, fun raw e => decodeStatus_of_length_ne, fun s e h hs he => ?_⟩
  obtain ⟨-, e', he', h6, -⟩ := h.inv.receive_pending hs
  rw [he] at he'
  injection he' with he'
  exact he' ▸ h6

end Sys2Proof.Machine
end

section
/-! The frames with the right header and checksum: the ones the status decoder accepts (R97), every frame BTE encodes among them
(R96, R101), whatever their ID, LEN and ERR (R98). `FrameValid` asks the declared length beside (R92). -/

namespace Sys2Proof.Machine

/-- What the decoder tests of a frame of the expected length (R97). -/
structure Checked (f : List Byte) : Prop where
  size     : 6 ≤ f.length
  header0  : f[0]? = some hdr
  header1  : f[1]? = some hdr
  checksum : f[f.length - 1]? = some (chk (slice f 2 (f.length - 1)))

theorem checked_of_decodeStatus_success {raw : List Byte} {e : Nat} {d : List Byte} {err : Byte}
    (h : decodeStatus raw e = some (.success d err)) : Checked raw ∧ raw.length = e := by
  obtain ⟨h6, -⟩ := decodeStatus_data_length_eq raw e d err h
  by_cases hl : raw.length = e
  · rw [decodeStatus_full h6 hl] at h
    split_ifs at h with hh hk
    · cases h
    · cases h
    · obtain ⟨hh0, hh1⟩ := not_or.mp hh
      subst hl
      exact ⟨⟨h6, not_not.mp hh0, not_not.mp hh1, not_not.mp hk⟩, rfl⟩
  · obtain ht | hs := decodeStatus_of_length_ne h6 hl
    · rw [ht] at h; cases h
    · rw [hs] at h; cases h

/-- R92 is what the decoder tests and the declared length, which it does not. -/
theorem frameValid_iff_checked (f : List Byte) :
    frameValid f = true ↔ Checked f ∧ f[3]?.map BitVec.toNat = some (f.length - 4) := by
  simp only [frameValid, Bool.and_eq_true, decide_eq_true_eq]
  constructor
  · rintro ⟨⟨⟨⟨h6, hh0⟩, hh1⟩, hlen⟩, hk⟩; exact ⟨⟨h6, hh0, hh1, hk⟩, hlen⟩
  · rintro ⟨⟨h6, hh0, hh1, hk⟩, hlen⟩; exact ⟨⟨⟨⟨h6, hh0⟩, hh1⟩, hlen⟩, hk⟩

/-- The frame of these fields with its checksum, whatever the LEN byte `l` declares (R63, R90). -/
def checkedFrame (i l err : Byte) (p : List Byte) : List Byte := statusBytes i l err p (chk ([i, l, err] ++ p))

@[simp] theorem checkedFrame_length (i l err : Byte) (p : List Byte) : (checkedFrame i l err p).length = 6 + p.length := by
  simp [checkedFrame, statusBytes]; omega

theorem encRead_eq_checkedFrame (t a n : Nat) :
    encRead t a n = checkedFrame (BitVec.ofNat 8 t) lenRead opRead [BitVec.ofNat 8 a, BitVec.ofNat 8 n] := rfl

theorem encWrite_eq_checkedFrame (t a : Nat) (d : List Byte) :
    encWrite t a d =
      checkedFrame (BitVec.ofNat 8 t) (BitVec.ofNat 8 (3 + d.length)) opWrite (BitVec.ofNat 8 a :: d) := rfl

/-- The decoder gives back the fifth byte and the bytes after it. -/
theorem decodeStatus_checkedFrame (i l err : Byte) (p : List Byte) :
    decodeStatus (checkedFrame i l err p) (6 + p.length) = some (.success p err) := by
  rw [checkedFrame, statusBytes, decodeStatus_frame]
  simp [hdr]

/-- A frame is valid when its LEN byte counts the bytes after it (R64, R92). -/
theorem frameValid_checkedFrame {i l err : Byte} {p : List Byte} (h : l.toNat = 2 + p.length) :
    frameValid (checkedFrame i l err p) = true := by
  obtain ⟨hchecked, hl⟩ := checked_of_decodeStatus_success (decodeStatus_checkedFrame i l err p)
  have hlen : (checkedFrame i l err p)[3]? = some l := rfl
  refine (frameValid_iff_checked _).mpr ⟨hchecked, ?_⟩
  rw [hl, hlen, Option.map_some, h]
  congr 1; omega

/-- R96: the LEN byte of a valid write does not wrap. -/
theorem frameValid_encodeRequest {q : Request} (h : validate q = true) : frameValid (encodeRequest q) = true := by
  cases q with
  | rd t a n => exact frameValid_checkedFrame rfl
  | wr t a d =>
    obtain ⟨-, -, hd⟩ := (validate_wr t a d).mp h
    rw [encodeRequest_wr, encWrite_eq_checkedFrame]
    refine frameValid_checkedFrame ?_
    rw [BitVec.toNat_ofNat, List.length_cons]
    omega

/-- Settles O10: a valid frame declares its exact length, and the opcode follows the request's kind. -/
theorem encodedFramesAreValid : Obligations.EncodedFramesAreValid := by
  intro q h
  have hvalid := frameValid_encodeRequest h
  obtain ⟨-, hlen⟩ := (frameValid_iff_checked _).mp hvalid
  refine ⟨hvalid, hlen, encodeRequest_opcode q, ?_, ?_⟩
  · rintro t a n rfl; rfl
  · rintro t a d rfl; rfl

/-- Settles O14: a request's frame and a status frame are each a `checkedFrame`. -/
theorem encodeDecodeRoundTrip : Obligations.EncodeDecodeRoundTrip := by
  refine ⟨fun t a n _ => ⟨?_, rfl⟩, fun t a d _ => ⟨?_, rfl⟩, fun i err p _ => decodeStatus_checkedFrame i _ err p⟩
  · rw [encodeRequest_rd, encRead_eq_checkedFrame, checkedFrame_length]
    exact decodeStatus_checkedFrame ..
  · rw [encodeRequest_wr, encWrite_eq_checkedFrame, checkedFrame_length]
    exact decodeStatus_checkedFrame ..

end Sys2Proof.Machine
end

section
/-! One changed byte of a frame with the right header and checksum: the header test finds it in the header, the checksum test
anywhere else (R98, R102). -/

namespace Sys2Proof.Machine

theorem slice_set {f : List Byte} {a j : Nat} (b : Nat) (y : Byte) (h : a ≤ j) :
    slice (f.set j y) a b = (slice f a b).set (j - a) y := by
  rw [slice, slice, List.take_set, List.drop_set, if_neg (Nat.not_lt.mpr h)]

theorem getElem?_slice {f : List Byte} {a b j : Nat} (ha : a ≤ j) (hb : j < b) : (slice f a b)[j - a]? = f[j]? := by
  rw [slice, List.getElem?_drop, Nat.add_sub_cancel' ha, List.getElem?_take_of_lt hb]

/-- R91 (b), by position. -/
theorem chk_set_ne {bs : List Byte} {m : Nat} {x y : Byte} (hx : bs[m]? = some x) (hne : y ≠ x) :
    chk (bs.set m y) ≠ chk bs := by
  obtain ⟨hm, rfl⟩ := List.getElem?_eq_some_iff.mp hx
  have hsplit : bs = bs.take m ++ bs[m] :: bs.drop (m + 1) := by simp
  rw [List.set_eq_take_append_cons_drop, if_pos hm]
  conv_rhs => rw [hsplit]
  exact chk_ne_of_byte_ne _ _ hne

/-- A changed checksum byte meets the sum of the unchanged bytes before it; a changed byte among these meets the old
checksum byte with another sum. -/
theorem Checked.decodeStatus_set {f : List Byte} (h : Checked f) {j : Nat} {x y : Byte} (hx : f[j]? = some x) (hne : y ≠ x) :
    decodeStatus (f.set j y) f.length = some (.failure (if j < 2 then .badHeader else .checksumMismatch)) := by
  obtain ⟨h6, hh0, hh1, hk⟩ := h
  obtain ⟨hj, -⟩ := List.getElem?_eq_some_iff.mp hx
  have hy : (f.set j y)[j]? = some y := List.getElem?_set_self hj
  have hne' : some y ≠ some x := mt Option.some.inj hne
  by_cases hj2 : j < 2
  · rw [if_pos hj2]
    refine decodeStatus_badHeader h6 List.length_set ?_
    obtain rfl | rfl : j = 0 ∨ j = 1 := by omega
    · left; rw [hy, ← hh0, hx]; exact hne'
    · right; rw [hy, ← hh1, hx]; exact hne'
  · rw [if_neg hj2]
    have hj2 : 2 ≤ j := Nat.not_lt.mp hj2
    refine decodeStatus_checksumMismatch h6 List.length_set ?_ ?_ ?_
    · rw [List.getElem?_set_ne (by omega), hh0]
    · rw [List.getElem?_set_ne (by omega), hh1]
    · rw [slice_set _ y hj2]
      by_cases hlast : j = f.length - 1
      · subst hlast
        have hout : (slice f 2 (f.length - 1)).length ≤ f.length - 1 - 2 := slice_length_le f 2 _
        rw [List.set_eq_of_length_le hout, ← hk, hy, hx]
        exact hne'
      · have hbody : (slice f 2 (f.length - 1))[j - 2]? = some x := by rw [getElem?_slice hj2 (by omega), hx]
        rw [List.getElem?_set_ne hlast, hk]
        exact mt Option.some.inj (chk_set_ne hbody hne).symm

/-- Settles O13: a frame of any ID, LEN and ERR is accepted with its checksum and not with one of the three changed alone; what
is accepted is `Checked`, and need not declare its own length. -/
theorem decStLeavesIdLenErrUntested : Obligations.DecStLeavesIdLenErrUntested := by
  refine ⟨decodeStatus_checkedFrame, fun raw e j d err x h hj2 hj4 hx => ?_, fun raw e d err h => ?_,
    checkedFrame 1 3 0 [], 6, [], 0, decodeStatus_checkedFrame .., by decide⟩
  · obtain ⟨hraw, rfl⟩ := checked_of_decodeStatus_success h
    have hj : j < raw.length := by have := hraw.size; omega
    have hget : raw[j]? = some raw[j] := List.getElem?_eq_getElem hj
    have hne : x ≠ raw[j] := fun hc => hx (hc ▸ hget)
    rw [hraw.decodeStatus_set hget hne, if_neg (Nat.not_lt.mpr hj2)]
  · obtain ⟨⟨h6, hh0, hh1, hk⟩, -⟩ := checked_of_decodeStatus_success h
    exact ⟨h6, hh0, hh1, hk⟩

/-- Inverting a bit changes the byte. -/
theorem xor_twoPow_ne (x : Byte) {k : Nat} (hk : k < 8) : x ^^^ BitVec.twoPow 8 k ≠ x := by
  intro h
  have hbit := congrArg (·.getLsbD k) h
  simp [hk] at hbit

/-- Settles O15: a valid frame is `Checked`, and an inverted bit is a changed byte. -/
theorem singleBitFlipIsDetected : Obligations.SingleBitFlipIsDetected := by
  intro f x j k hf hx hk
  obtain ⟨hchecked, -⟩ := (frameValid_iff_checked f).mp hf
  exact hchecked.decodeStatus_set hx (xor_twoPow_ne x hk)

end Sys2Proof.Machine
end

section
/-! The direction line over every transition (R127). -/

namespace Sys2Proof.Machine

/-- Settles O33: among the moves of a good state, `Reset` and `beginReceive` set receive-enable, `beginSend` sets
transmit-enable, and every other one keeps the level. -/
theorem directionLineMovesInThreePlaces : Obligations.DirectionLineMovesInThreePlaces := by
  intro s t h hf ht
  obtain ⟨o, hm, -⟩ := step_moves h hf ht
  generalize nextEvent s = e, t.bte = b at hm ⊢
  cases hm with
  | reset | accept | reject | rxMore | rxLast | rxGated | rxStale => rfl
  | idle hs hq => simp [hs, hq]
  | start c q rest hs hq hv | constructionError c q rest hs hq hv => simp [hs, hq, hv]
  | turn n hs hn h1 => simp [hs, hn, Nat.ne_of_gt h1]
  | broadcast hs hn he => simp [hs, he]
  | window e hs hn he h0 => simp [hs, hn, he, h0]
  | shift n hs | byteOut f i x hs | drain f i x hs | wait n hs | late e r hs | retire c r hs => simp [hs]

end Sys2Proof.Machine
end

section
/-! One event, one step: what the engine answers to an event is written into the state (R143). -/

namespace Sys2Proof.Machine

/-- A step that meets `e` takes the engine's transition, emits its outputs and leaves the rest of the inputs. -/
theorem Meets.step_eq {e : Event} {s : State} {b : Bte} {o : List Output} (h : Meets e s) (hc : stranger s.cfg e = none)
    (he : engine s.cfg s.bte e = .ok (b, o)) :
    step s = .next { s with bte := b, inbox := restInbox s, out := s.out ++ o } := by
  have hstep : step s = advance s := by rw [step, h.plain]
  rw [hstep, advance, h.event]
  exact applyEvent_of_engine (s := setInbox (restInbox s) s) h.legal hc he

/-- A step whose event emits nothing. -/
theorem Meets.step_silent {e : Event} {s : State} {b : Bte} (h : Meets e s) (hc : stranger s.cfg e = none)
    (he : engine s.cfg s.bte e = .ok (b, [])) : step s = .next { s with bte := b, inbox := restInbox s } := by
  rw [h.step_eq hc he, List.append_nil]

/-- A stretch of events with no operation among them is as many steps. -/
theorem steps_of_lead {P : State → Prop} (hP : ∀ t, P t → fetch t = none) {j : Nat} {s t : State} (h : Lead P j s t) :
    steps j s = .next t := by
  induction h with
  | here s => rfl
  | @there j s s1 t hp hr ha hl ih =>
    have hstep : step s = .next s1 := by rw [← ha, step, hP s hp]
    rw [steps, hstep, andThen_next, ih]

/-- Settles O25: `Reset` is met in every state by the record of R27. -/
theorem resetPutsEveryFieldBack : Obligations.ResetPutsEveryFieldBack := by
  intro s h
  have hstep := h.step_silent (b := Bte.reset) rfl rfl
  refine ⟨hstep, fun t ht => ?_, rfl⟩
  rw [hstep] at ht
  injection ht with ht
  subst ht
  obtain ⟨-, -, -, hdepth, -⟩ := (legalCfg_iff s.cfg).mp h.legal
  exact ⟨rfl, decide_eq_true hdepth, rfl⟩

end Sys2Proof.Machine
end

section
/-! The `Submit`, in any state (R142). -/

namespace Sys2Proof.Machine

theorem onSubmit_of_room {cfg : Cfg} {b : Bte} (c : Nat) (q : Request) (h : b.queue.length < cfg.qDepth) :
    onSubmit cfg c q b = (enqueue c q b, [.accepted c]) := if_pos (decide_eq_true h)

theorem onSubmit_of_full {cfg : Cfg} {b : Bte} (c : Nat) (q : Request) (h : ¬b.queue.length < cfg.qDepth) :
    onSubmit cfg c q b = (b, [.rejected c]) := if_neg (by simpa [cmdReady] using h)

/-- Settles O17: the engine answers a client's `Submit` in every state, by whether there is room. -/
theorem submitQueuesOrRejects : Obligations.SubmitQueuesOrRejects := by
  intro s c q h hc
  have hclient : stranger s.cfg (.submit c q) = none := if_pos hc
  exact ⟨fun hroom => h.step_eq hclient (congrArg Except.ok (onSubmit_of_room c q hroom)),
    fun hfull => h.step_eq hclient (congrArg Except.ok (onSubmit_of_full c q hfull))⟩

end Sys2Proof.Machine
end

section
/-! Validation and the expected response length (R93, R147). -/

namespace Sys2Proof.Machine

/-- Settles O16: one law of the codec for each kind of request. -/
theorem expectedLengthByKind : Obligations.ExpectedLengthByKind :=
  ⟨fun t a n => ⟨validate_rd t a n, rfl⟩, fun t a d => ⟨validate_wr t a d, rfl, expectedLen_addressed t a d⟩,
    expectedLen_range⟩

end Sys2Proof.Machine
end

section
/-! The `Tick` in `Idle` and in `Completed`: a transaction starts and is retired (R144, R151). -/

namespace Sys2Proof.Machine

theorem tickIdle_of_empty {b : Bte} (cfg : Cfg) (hq : b.queue = []) : tickIdle cfg b = (b, []) := by
  rw [tickIdle, hq]

section Head

variable {b : Bte} {c : Nat} {q : Request} {rest : List (Nat × Request)} (hq : b.queue = (c, q) :: rest)
include hq

theorem tickIdle_of_valid (cfg : Cfg) (hv : validate q = true) :
    tickIdle cfg b = (beginSend cfg q (acquireLock c q rest b), []) := by
  simp [tickIdle, hq, hv]

theorem tickIdle_of_invalid (cfg : Cfg) (hv : validate q = false) :
    tickIdle cfg b = (raiseFailure .constructionError (acquireLock c q rest b), []) := by
  simp [tickIdle, hq, hv]

/-- Whatever the head of the queue is, it is taken and the block is busy with it. -/
theorem tickIdle_dequeues (cfg : Cfg) : (tickIdle cfg b).1.queue = rest ∧ (tickIdle cfg b).1.st ≠ .idle := by
  cases hv : validate q with
  | true => rw [tickIdle_of_valid hq cfg hv]; exact ⟨rfl, by simp⟩
  | false => rw [tickIdle_of_invalid hq cfg hv]; exact ⟨rfl, by simp⟩

end Head

/-- Settles O18: one arm of the start transition for each clause. -/
theorem tickInIdleStartsTheHead : Obligations.TickInIdleStartsTheHead := by
  intro s h hs
  have hstep {b : Bte} (hb : tickIdle s.cfg s.bte = (b, [])) :
      step s = .next { s with bte := b, inbox := restInbox s } :=
    h.step_silent rfl ((engine_tick_idle hs).trans (congrArg Except.ok hb))
  exact ⟨fun hq => hstep (tickIdle_of_empty s.cfg hq), fun c q rest hq =>
    ⟨fun hv => hstep (tickIdle_of_invalid hq s.cfg hv), fun hv => hstep (tickIdle_of_valid hq s.cfg hv)⟩⟩

/-- Settles O24: the retire tick is `releaseLock` with `Done`; the state it leaves is idle, so a `Tick` there is the start
transition. -/
theorem retireReportsAndReleasesTheLock : Obligations.RetireReportsAndReleasesTheLock := by
  intro s c r h hs hc hr
  have hretire : engine s.cfg s.bte .tick = .ok (releaseLock s.bte, [.done c r]) := by
    rw [engine_tick_completed hs, tickCompleted, hc, hr]
  have hstep := h.step_eq rfl hretire
  refine ⟨hstep, fun t c' q rest ht hm hq => ?_⟩
  rw [hstep] at ht
  injection ht with ht
  subst ht
  obtain ⟨hcl, hreq⟩ := tickIdle_loads_head s.cfg (b := releaseLock s.bte) hq
  obtain ⟨hrest, hbusy⟩ := tickIdle_dequeues (b := releaseLock s.bte) hq s.cfg
  exact ⟨_, hm.step_eq rfl (engine_tick_idle rfl), hcl, hreq, hrest, hbusy⟩

end Sys2Proof.Machine
end

section
/-! The `Tick` in `Sending` and the schedule of a frame (R129, R145). -/

namespace Sys2Proof.Machine

section Frame

variable {cfg : Cfg} {b : Bte} {f : List Byte} {i n : Nat} (hf : b.txbuf = some f) (hi : b.txIdx = some i)
include hf hi

theorem tickSending_within_byte (hn : b.byteCnt = some n) (h : 1 < n) :
    tickSending cfg b = .ok (setByteCnt (n - 1) b, []) := by
  simp [tickSending, hf, hi, hn, h]

theorem tickSending_ends_byte {x : Byte} (hn : b.byteCnt = some 1) (hx : f[i]? = some x) :
    tickSending cfg b =
      .ok (if i + 1 < f.length then nextByte cfg (i + 1) b else endSend cfg (i + 1) b, [.txByte x]) := by
  simp only [tickSending, hf, hi, hn, hx, Nat.lt_irrefl, if_false]
  split <;> rfl

end Frame

/-- At the start of the frame nothing of it is out yet. -/
theorem sendAt_start {s : State} (f : List Byte) (hi : s.bte.txIdx = some 0) (hn : s.bte.byteCnt = some s.cfg.tByte) :
    sendAt s f 0 0 s.inbox = s := by
  obtain ⟨cfg, b, inbox, out, ret⟩ := s
  cases b
  simp_all [sendAt]

/-- From the start of the frame, whatever bytes arrive meanwhile, the ticks alone decide how far it is. -/
theorem send_lead_from_start {s : State} {f : List Byte} {w : List Event} {rest : List Input} (hl : legalCfg s.cfg = true)
    (hs : s.bte.st = .sending) (hd : s.bte.dir = .tx) (hf : s.bte.txbuf = some f) (hi : s.bte.txIdx = some 0)
    (hn : s.bte.byteCnt = some s.cfg.tByte) (hw : lineOnly w) (hin : s.inbox = events w ++ rest)
    (hk : tickCount w < f.length * s.cfg.tByte) :
    Lead (fun t => fetch t = none) w.length s (sendAt s f 0 (tickCount w) rest) := by
  have hlead := send_lead hl hs hd hf rest w 0 hw (Nat.zero_le _) (by rwa [Nat.zero_add])
  rw [Nat.zero_add, ← hin, sendAt_start f hi hn] at hlead
  exact hlead.mono fun t ⟨_, _, hplain⟩ => hplain

/-- Settles O19: one arm of the transition for each case of a tick; the schedule is `send_lead`, and its last tick
`send_last`. -/
theorem sendingShiftsTheFrameOutOnSchedule : Obligations.SendingShiftsTheFrameOutOnSchedule := by
  constructor
  · intro s f i n x h hs hf hi hn h1 hx
    have htick := engine_tick_sending (cfg := s.cfg) hs
    refine ⟨fun hlt => ?_, ?_, ?_⟩
    · exact h.step_silent rfl (htick.trans (tickSending_within_byte hf hi hn hlt))
    · rintro rfl hmore
      exact h.step_eq rfl (htick.trans ((tickSending_ends_byte hf hi hn hx).trans (by rw [if_pos hmore]; rfl)))
    · rintro rfl hlast
      exact h.step_eq rfl (htick.trans ((tickSending_ends_byte hf hi hn hx).trans (by rw [if_neg hlast]; rfl)))
  · intro s f w rest hl hs hd hf hi hn hw
    constructor
    · intro hin hk
      exact steps_of_lead (fun _ => id) (send_lead_from_start hl hs hd hf hi hn hw hin hk)
    · intro hin hk
      have hlead := send_lead_from_start (rest := .event .tick :: rest) hl hs hd hf hi hn hw (by rw [hin]; simp) (by omega)
      have hlast := send_last (i := 0) hl hs hf (Nat.zero_le _) hk rest
      exact steps_of_lead (fun _ => id) (hlead.trans (.one rfl (by simp [nextEvent, sendAt]) hlast))

end Sys2Proof.Machine
end

section
/-! The `Tick` in `AwaitingTurnaround` and how long the state lasts (R146, R150). -/

namespace Sys2Proof.Machine

section Turnaround

variable {cfg : Cfg} {b : Bte} {n e : Nat} (he : b.expLen = some e)
include he

theorem tickTurnaround_counts (hn : b.turnCnt = some n) (h : 1 < n) :
    tickTurnaround cfg b = .ok (setTurnCnt (n - 1) b, []) := by
  simp [tickTurnaround, hn, he, h]

theorem tickTurnaround_ends (hn : b.turnCnt = some 1) : tickTurnaround cfg b = .ok (afterTurn cfg e b, []) := by
  by_cases h0 : e = 0 <;> simp [tickTurnaround, hn, he, afterTurn, h0]

end Turnaround

/-- A state in the turnaround delay is one with the ticks it has left. -/
theorem turningAt_self {s : State} {n : Nat} (hn : s.bte.turnCnt = some n) : turningAt s n s.inbox = s := by
  obtain ⟨cfg, b, inbox, out, ret⟩ := s
  cases b
  simp_all [turningAt, setTurnCnt]

/-- Settles O20: one arm of the transition for each case of a tick; how long the state lasts is `turn_lead`. -/
theorem turnaroundLastsItsTicks : Obligations.TurnaroundLastsItsTicks := by
  constructor
  · intro s n e h hs hn he h1
    have htick := engine_tick_turnaround (cfg := s.cfg) hs
    refine ⟨fun hlt => ?_, ?_, ?_⟩
    · exact h.step_silent rfl (htick.trans (tickTurnaround_counts he hn hlt))
    · rintro rfl rfl
      exact h.step_silent rfl (htick.trans (tickTurnaround_ends he hn))
    · rintro rfl h0
      have hends := tickTurnaround_ends (cfg := s.cfg) he hn
      rw [afterTurn, if_neg h0] at hends
      exact h.step_silent rfl (htick.trans hends)
  · intro s n e w rest hl hs hd hn he hin hw hk
    have hlead := turn_lead hl hs hd he rest w n hw hk
    rw [← hin, turningAt_self hn] at hlead
    exact steps_of_lead (fun t ⟨_, hplain⟩ => hplain) hlead

end Sys2Proof.Machine
end

section
/-! The events of the receive window, and bytes outside it (R148, R149, R153). -/

namespace Sys2Proof.Machine

/-- Too few bytes are a `Timeout` when there is none and a `ShortFrame` otherwise (R148, R202, R203). -/
theorem decodeStatus_of_length_lt {raw : List Byte} {e : Nat} (h6 : 6 ≤ e) (hl : raw.length < e) :
    decodeStatus raw e = some (.failure (lateReason raw)) := by
  rw [lateReason]
  by_cases h0 : raw = []
  · rw [if_pos h0, h0, decodeStatus_empty e h6]
  · rw [if_neg h0, decodeStatus_short raw e h6 h0 (Nat.ne_of_lt hl)]

/-- The expected number of bytes is never a `Timeout` or a `ShortFrame` (R97, R149). -/
theorem decodeStatus_of_length_eq {raw : List Byte} {e : Nat} {r : Result} (h6 : 6 ≤ e) (hl : raw.length = e)
    (hr : decodeStatus raw e = some r) :
    r = .failure .badHeader ∨ r = .failure .checksumMismatch ∨ ∃ d err, r = .success d err := by
  rw [decodeStatus_full h6 hl] at hr
  split at hr
  · injection hr with hr; exact .inl hr.symm
  · split at hr
    · injection hr with hr; exact .inr (.inl hr.symm)
    · obtain ⟨err, -, hr⟩ := Option.map_eq_some_iff.mp hr
      exact .inr (.inr ⟨_, err, hr.symm⟩)

section Window

variable {b : Bte} {e : Nat} (he : b.expLen = some e)
include he

theorem tickReceiving_counts {n : Nat} (hn : b.toCnt = some n) (h : 1 < n) :
    tickReceiving b = .ok (setToCnt (n - 1) b, []) := by
  simp [tickReceiving, hn, he, h]

theorem tickReceiving_ends {r : Result} (hn : b.toCnt = some 1) (hr : decodeStatus b.rxbuf e = some r) :
    tickReceiving b = .ok (complete r (consumeRx b), []) := by
  simp [tickReceiving, hn, he, endReceive, hr]

theorem rxByteReceiving_collects {x : Byte} (h : b.rxbuf.length + 1 ≠ e) :
    rxByteReceiving x b = .ok (capture x b, []) := by
  simp [rxByteReceiving, he, h]

theorem rxByteReceiving_ends {x : Byte} {r : Result} (h : b.rxbuf.length + 1 = e)
    (hr : decodeStatus (b.rxbuf ++ [x]) e = some r) :
    rxByteReceiving x b = .ok (complete r (consumeRx (capture x b)), []) := by
  simp [rxByteReceiving, he, h, endReceive, hr]

end Window

/-- Settles O21: the counter's two arms; on the last tick the bytes are too few, so the result is `lateReason`. -/
theorem tickInReceivingCountsDownAndTimesOut : Obligations.TickInReceivingCountsDownAndTimesOut := by
  intro s n e h hs hn he h1 h6 hfew
  have htick := engine_tick_receiving (cfg := s.cfg) hs
  refine ⟨fun hlt => ?_, ?_⟩
  · exact h.step_silent rfl (htick.trans (tickReceiving_counts he hn hlt))
  · rintro rfl
    have hlate := decodeStatus_of_length_lt h6 hfew
    exact ⟨hlate, h.step_silent rfl (htick.trans (tickReceiving_ends he hn hlate))⟩

/-- Settles O22: the byte is collected, or it is the last one and all of them are decoded. -/
theorem byteInReceivingIsTaken : Obligations.ByteInReceivingIsTaken := by
  intro s x e h hs he h6
  have hbyte := engine_rx_receiving (cfg := s.cfg) (x := x) hs
  refine ⟨fun hmore => ?_, fun hlast => ?_⟩
  · exact h.step_silent rfl (hbyte.trans (rxByteReceiving_collects he hmore))
  · obtain ⟨r, hr⟩ := decodeStatus_isSome (s.bte.rxbuf ++ [x]) e h6
    have hkind := decodeStatus_of_length_eq h6 (by simpa using hlast) hr
    exact ⟨r, hr, hkind, h.step_silent rfl (hbyte.trans (rxByteReceiving_ends he hlast hr))⟩

theorem rxByteElsewhere_gated {cfg : Cfg} {b : Bte} (x : Byte) (hd : b.dir = .tx) : rxByteElsewhere cfg x b = (b, []) := by
  rw [rxByteElsewhere, hd]

theorem rxByteElsewhere_released {cfg : Cfg} {b : Bte} (x : Byte) (hd : b.dir = .rx) :
    rxByteElsewhere cfg x b = (if b.rxbuf.length < cfg.rxCap then capture x b else b, []) := by
  by_cases h : b.rxbuf.length < cfg.rxCap <;> simp [rxByteElsewhere, hd, h]

/-- Settles O23: the gate, and the buffer's capacity behind it; I1 is `EngineInv.st_of_dir_rx`. -/
theorem byteElsewhereIsGatedOrStale : Obligations.ByteElsewhereIsGatedOrStale := by
  constructor
  · intro s x h hs
    have hstep {b : Bte} (hb : rxByteElsewhere s.cfg x s.bte = (b, [])) :
        step s = .next { s with bte := b, inbox := restInbox s } :=
      h.step_silent rfl ((engine_rx_elsewhere hs).trans (congrArg Except.ok hb))
    refine ⟨fun hd => hstep (rxByteElsewhere_gated x hd), fun hd hroom => ?_, fun hd hfull => ?_⟩
    · exact hstep ((rxByteElsewhere_released x hd).trans (by rw [if_pos hroom]; rfl))
    · exact hstep ((rxByteElsewhere_released x hd).trans (by rw [if_neg hfull]))
  · intro s h hd
    rcases h.inv.st_of_dir_rx hd with hs | hs | hs <;> rw [hs] <;> decide

end Sys2Proof.Machine
end

section
/-! The sequencer over every transition, and the entry into `Completed` (R152, R158). -/

namespace Sys2Proof.Machine

/-- The four entries into `Completed`, each with the results that the table of R158 puts there: `e` happened in `b` and `r` is
the result stored. -/
def CompletedBy (b : Bte) (e : Event) (r : Option Result) : Prop :=
  (e = .tick ∧ b.st = .idle ∧ r = some (.failure .constructionError)) ∨
  (e = .tick ∧ b.st = .awaitingTurnaround ∧ r = some (.success [] 0)) ∨
  (e = .tick ∧ b.st = .receiving ∧ (r = some (.failure .timeout) ∨ r = some (.failure .shortFrame))) ∨
  ((∃ x, e = .rxByte x) ∧ b.st = .receiving ∧
    (r = some (.failure .badHeader) ∨ r = some (.failure .checksumMismatch) ∨ ∃ d err, r = some (.success d err)))

/-- A move into `Completed` emits nothing and is one of the four entries. -/
theorem Moves.enters_completed {cfg : Cfg} {b b' : Bte} {e : Event} {o : List Output} (h : Moves cfg b e b' o)
    (hi : EngineInv cfg b) (hs : b.st ≠ .completed) (hs' : b'.st = .completed) :
    o = [] ∧ CompletedBy b e b'.result := by
  cases h with
  | constructionError c q rest hidle => exact ⟨rfl, .inl ⟨rfl, hidle, rfl⟩⟩
  | broadcast hturn => exact ⟨rfl, .inr (.inl ⟨rfl, hturn, rfl⟩)⟩
  | late e r hrecv hn he hr =>
    obtain ⟨-, e', he', h6, hfew⟩ := hi.receive_pending hrecv
    obtain rfl : e = e' := Option.some.inj (he.symm.trans he')
    have hlate := decodeStatus_of_length_ne h6 (Nat.ne_of_lt hfew)
    rw [hr] at hlate
    exact ⟨rfl, .inr (.inr (.inl ⟨rfl, hrecv, hlate⟩))⟩
  | rxLast x e r hrecv he hlast hr =>
    obtain ⟨-, e', he', h6, -⟩ := hi.receive_pending hrecv
    obtain rfl : e = e' := Option.some.inj (he.symm.trans he')
    have hfull := decodeStatus_of_length_eq h6 (by simpa using hlast) hr
    exact ⟨rfl, .inr (.inr (.inr ⟨⟨x, rfl⟩, hrecv, by simpa using hfull⟩))⟩
  | reset | start | drain | window | retire => cases hs'
  | accept | reject | rxMore | rxGated | rxStale | idle | shift | byteOut | turn | wait => exact absurd hs' hs

/-- A move keeps `result`, but for `Reset` and the moves into `Completed`. -/
theorem Moves.writes_result {cfg : Cfg} {b b' : Bte} {e : Event} {o : List Output} (h : Moves cfg b e b' o)
    (hne : b'.result ≠ b.result) : e = .reset ∨ b.st ≠ .completed ∧ b'.st = .completed := by
  cases h with
  | reset => exact .inl rfl
  | constructionError c q rest hs | broadcast hs | late e r hs | rxLast x e r hs => exact .inr ⟨by rw [hs]; decide, rfl⟩
  | accept | reject | rxMore | rxGated | rxStale | idle | start | shift | byteOut | drain | turn | window | wait | retire =>
    exact absurd rfl hne

/-- What an entry into `Completed` leaves in `result` is a value. -/
theorem CompletedBy.isSome {b : Bte} {e : Event} {r : Option Result} (h : CompletedBy b e r) : ∃ x, r = some x := by
  rcases h with ⟨-, -, h⟩ | ⟨-, -, h⟩ | ⟨-, -, h | h⟩ | ⟨-, -, h | h | ⟨d, err, h⟩⟩ <;> exact ⟨_, h⟩

/-- Where `Completed` is entered from, and on which event. -/
theorem CompletedBy.place {b : Bte} {e : Event} {r : Option Result} (h : CompletedBy b e r) :
    (e = .tick ∧ (b.st = .idle ∨ b.st = .awaitingTurnaround ∨ b.st = .receiving)) ∨
      (∃ x, e = .rxByte x) ∧ b.st = .receiving := by
  rcases h with ⟨he, hs, -⟩ | ⟨he, hs, -⟩ | ⟨he, hs, -⟩ | ⟨he, hs, -⟩
  · exact .inl ⟨he, .inl hs⟩
  · exact .inl ⟨he, .inr (.inl hs)⟩
  · exact .inl ⟨he, .inr (.inr hs)⟩
  · exact .inr ⟨he, hs⟩

/-- Settles O32: the moves of a good state, one row of the table each. -/
theorem sequencerMovesAsTabled : Obligations.SequencerMovesAsTabled := by
  intro s t h hf ht
  obtain ⟨o, hm, -⟩ := step_moves h hf ht
  refine ⟨?_, fun hs hs' => (hm.enters_completed h.inv hs hs').2⟩
  generalize nextEvent s = e, t.bte = b at hm ⊢
  cases hm with
  | reset | accept | reject => rfl
  | rxGated x hs | rxStale x hs =>
    cases hst : s.bte.st with
    | receiving => exact absurd hst hs
    | idle | sending | awaitingTurnaround | completed => simp [hst]
  | rxMore x e hs he hmore => simp [hs, he, Ne.symm hmore]
  | rxLast x e r hs he hlast => simp [hs, he, hlast]
  | idle hs hq => simp [hs, hq]
  | start c q rest hs hq hv | constructionError c q rest hs hq hv => simp [hs, hq, hv]
  | shift n hs hn h1 => simp [hs, hn, Nat.ne_of_gt h1]
  | byteOut f i x hs hn hf hi hx hmore => simp [hs, hf, hi, Nat.ne_of_lt hmore]
  | drain f i x hs hn hf hi hx hlast => simp [hs, hn, hf, hi, hlast]
  | turn n hs hn h1 => simp [hs, hn, Nat.ne_of_gt h1]
  | broadcast hs hn he => simp [hs, hn, he]
  | window e hs hn he h0 => simp [hs, hn, he, h0]
  | wait n hs hn h1 => simp [hs, hn, Nat.ne_of_gt h1]
  | late e r hs hn => simp [hs, hn]
  | retire c r hs => simp [hs]

/-- Settles O34: the moves into `Completed` are the four entries, and they and `Reset` alone write `result`. -/
theorem onlyCompleteEntersCompleted : Obligations.OnlyCompleteEntersCompleted := by
  intro s t h hf ht
  obtain ⟨o, hm, ho⟩ := step_moves h hf ht
  refine ⟨fun hs hs' => ?_, hm.writes_result⟩
  obtain ⟨rfl, hby⟩ := hm.enters_completed h.inv hs hs'
  exact ⟨hby.isSome, by rw [ho, List.append_nil], hby.place⟩

end Sys2Proof.Machine
end

section
/-! The four calls, served at once: each is `transact` on its request (R155, R156, R157, R165). -/

namespace Sys2Proof.Machine

theorem exec_rd (c t a n : Nat) (s : State) : exec (.rd c t a n) s = transact c (.rd t a n) s := rfl
theorem exec_wr (c t a : Nat) (d : List Byte) (s : State) : exec (.wr c t a d) s = transact c (.wr t a d) s := rfl
theorem exec_wrBcast (c a : Nat) (d : List Byte) (s : State) : exec (.wrBcast c a d) s = transact c (.wr 254 a d) s := rfl
theorem exec_exec (c : Nat) (q : Request) (s : State) : exec (.exec c q) s = transact c q s := rfl

theorem ticksToWindow_rd (cfg : Cfg) (t a n : Nat) : ticksToWindow cfg (.rd t a n) = 8 * cfg.tByte + cfg.tTurn + 1 := by
  rw [ticksToWindow, encodeRequest_rd, encRead_length, Nat.add_assoc, Nat.add_comm]

theorem ticksToWindow_wr (cfg : Cfg) (t a : Nat) (d : List Byte) :
    ticksToWindow cfg (.wr t a d) = (7 + d.length) * cfg.tByte + cfg.tTurn + 1 := by
  rw [ticksToWindow, encodeRequest_wr, encWrite_length, Nat.add_assoc, Nat.add_comm]

/-- Settles O49: the call of a read, answered, unanswered and not encodable; the data of a success are what is expected
beyond the six bytes of an empty status frame. -/
theorem rdTransaction : Obligations.RdTransaction := by
  intro s c t a n h
  simp only [exec_rd]
  refine ⟨fun hrange w v left hw hv hwait => ?_, fun hrange left hin => ?_⟩
  · have hvalid := (validate_rd t a n).mpr hrange
    have hwindow : tickCount w + 1 = ticksToWindow s.cfg (.rd t a n) := by rw [ticksToWindow_rd, hwait]
    have hexp : expectedLen (.rd t a n) ≠ 0 := by change 6 + n ≠ 0; omega
    refine ⟨fun x r hintime hcount hr hin => ⟨?_, ?_⟩, fun htimeout hfew hin => ?_⟩
    · rintro d err rfl
      obtain ⟨-, hlen⟩ := decodeStatus_data_length_eq _ _ d err hr
      rw [hlen, Nat.add_sub_cancel_left]
    · exact transact_answered h hvalid hexp hw hwindow hv hintime hcount hr hin
    · exact transact_unanswered h hvalid hw hwindow hv htimeout hfew hin
  · exact transact_invalid h (Bool.eq_false_iff.mpr (mt (validate_rd t a n).mp hrange)) hin

/-- Settles O50: as O49, the expected length being that of a status frame without data. -/
theorem wrTransaction : Obligations.WrTransaction := by
  intro s c t a d h
  simp only [exec_wr]
  refine ⟨fun ⟨ht, ha, hd⟩ w v left hw hv hwait => ?_, fun hne hrange left hin => ?_, ?_⟩
  · have hvalid := (validate_wr t a d).mpr ⟨by omega, ha, hd⟩
    have hexp := expectedLen_addressed t a d (by omega)
    have hwindow : tickCount w + 1 = ticksToWindow s.cfg (.wr t a d) := by rw [ticksToWindow_wr, hwait]
    refine ⟨fun x r hintime hcount hr hin => ⟨?_, ?_⟩, fun htimeout hfew hin => ?_⟩
    · rintro d' err rfl
      obtain ⟨-, hlen⟩ := decodeStatus_data_length_eq _ _ d' err hr
      exact List.length_eq_zero_iff.mp hlen
    · rw [← hexp] at hcount hr
      exact transact_answered h hvalid (by rw [hexp]; decide) hw hwindow hv hintime hcount hr hin
    · rw [← hexp] at hfew
      exact transact_unanswered h hvalid hw hwindow hv htimeout hfew hin
  · have hinvalid : ¬validate (.wr t a d) = true := by rw [validate_wr]; omega
    exact transact_invalid h (Bool.eq_false_iff.mpr hinvalid) hin
  · rintro rfl
    exact (exec_wrBcast c a d s).symm

/-- Settles O51: nothing is expected of a broadcast, so the call ends with the turnaround delay. -/
theorem wrBcastTransaction : Obligations.WrBcastTransaction := by
  intro s c a d h
  simp only [exec_wrBcast]
  refine ⟨fun ⟨ha, hd⟩ w left hw hwait hin => ?_, fun hrange left hin => ?_⟩
  · have hvalid := (validate_wr 254 a d).mpr ⟨Nat.le_refl _, ha, hd⟩
    exact transact_broadcast h hvalid rfl hw (by rw [ticksToWindow_wr, hwait]) hin
  · have hinvalid : ¬validate (.wr 254 a d) = true := by rw [validate_wr]; omega
    exact transact_invalid h (Bool.eq_false_iff.mpr hinvalid) hin

theorem execResult_invalid {q : Request} (hv : validate q = false) (raw : List Byte) :
    execResult q raw = some (.failure .constructionError) := by
  simp [execResult, hv]

theorem execResult_unexpected {q : Request} (hv : validate q = true) (he : expectedLen q = 0) (raw : List Byte) :
    execResult q raw = some (.success [] 0) := by
  simp [execResult, hv, he, errNone]

theorem execResult_expected {q : Request} (hv : validate q = true) (he : expectedLen q ≠ 0) (raw : List Byte) :
    execResult q raw = decodeStatus raw (expectedLen q) := by
  simp [execResult, hv, he]

/-- Settles O52: each arm of `execResult` is one of the ways a call ends. -/
theorem execTransaction : Obligations.ExecTransaction := by
  intro s c q h
  simp only [exec_exec]
  refine ⟨fun hvalid w v left hw hv hwindow => ⟨fun hexp hin => ?_, ?_, ?_⟩, fun hinvalid left hin => ?_⟩
  · exact ⟨execResult_unexpected hvalid hexp, transact_broadcast h hvalid hexp hw hwindow hin⟩
  · intro x r hexp hintime hcount hr hin
    rw [execResult_expected hvalid hexp] at hr
    exact transact_answered h hvalid hexp hw hwindow hv hintime hcount hr hin
  · intro r hexp htimeout hfew hr hin
    obtain ⟨h6, -⟩ := (expectedLen_range q hvalid).resolve_left hexp
    rw [execResult_expected hvalid hexp, decodeStatus_of_length_lt h6 hfew] at hr
    obtain rfl := Option.some.inj hr
    exact transact_unanswered h hvalid hw hwindow hv htimeout hfew hin
  · exact ⟨execResult_invalid hinvalid, transact_invalid h hinvalid hin⟩

end Sys2Proof.Machine
end

section
/-! Raw values of a control-table register as data bytes, low byte first (R43, R183). -/

namespace Sys2Proof.Machine

@[simp] theorem rawValue_one_byte (x : Byte) : rawValue [x] = some x.toNat := rfl

@[simp] theorem rawValue_two_bytes (x y : Byte) : rawValue [x, y] = some (x.toNat + 256 * y.toNat) := rfl

/-- The two bytes are the low and the high half of a 16-bit raw value, so that nothing of it is lost. -/
theorem rawValue_rawBytes {raw : Nat} (h : raw < 65536) : rawValue (rawBytes raw) = some raw := by
  have hlow : raw % 256 < 2 ^ 8 := Nat.mod_lt raw (by decide)
  have hhigh : raw / 256 < 2 ^ 8 := Nat.div_lt_of_lt_mul h
  rw [rawBytes, rawValue_two_bytes, BitVec.toNat_ofNat, BitVec.toNat_ofNat, Nat.mod_eq_of_lt hlow,
    Nat.mod_eq_of_lt hhigh, Nat.mod_add_div]

/-- A low byte is below 256, so remainder and quotient by 256 give back the two bytes of a raw value. -/
theorem rawBytes_of_bytes (x y : Byte) : rawBytes (x.toNat + 256 * y.toNat) = [x, y] := by
  have hlow : (x.toNat + 256 * y.toNat) % 256 = x.toNat := by
    rw [Nat.add_mul_mod_self_left, Nat.mod_eq_of_lt x.isLt]
  have hhigh : (x.toNat + 256 * y.toNat) / 256 = y.toNat := by
    rw [Nat.add_mul_div_left _ _ (by decide), Nat.div_eq_of_lt x.isLt, Nat.zero_add]
  rw [rawBytes, hlow, hhigh, BitVec.ofNat_toNat, BitVec.ofNat_toNat, BitVec.setWidth_eq, BitVec.setWidth_eq]

/-- Settles O59: the values of one and two bytes, and the round trip in both directions. -/
theorem rawBytesRoundTrip : Obligations.RawBytesRoundTrip :=
  ⟨fun _ h => rawValue_rawBytes h,
    fun x y => ⟨rawValue_one_byte x, rawValue_two_bytes x y, rawBytes_of_bytes x y⟩⟩

end Sys2Proof.Machine
end

section
/-! The classes of a finished transaction and the two register calls (R74, R164, R206). -/

namespace Sys2Proof.Machine

theorem isDeviceError_success (d : List Byte) (err : Byte) : isDeviceError (.success d err) = true ↔ err ≠ 0 :=
  decide_eq_true_iff

theorem isDeviceError_failure (x : Reason) : isDeviceError (.failure x) = false := rfl

theorem classify_success (d : List Byte) (err : Byte) :
    classify (.success d err) = if err = 0 then .cleanSuccess else .deviceError err := rfl

/-- Only a request that was never sent is rejected; the other reasons are found on the line. -/
theorem classify_failure (x : Reason) :
    classify (.failure x) = if x = .constructionError then .rejectedRequest else .transportFailure := by
  cases x with
  | constructionError => rfl
  | timeout | shortFrame | badHeader | checksumMismatch => rfl

theorem readRegister_eq_exec (c t a n : Nat) (s : State) : readRegister c t a n s = exec (.exec c (.rd t a n)) s := rfl

theorem writeRegister_eq_exec (c t a : Nat) (d : List Byte) (s : State) :
    writeRegister c t a d s = exec (.exec c (.wr t a d)) s := rfl

theorem writeAnswer_broadcast (d : List Byte) (err : Byte) : writeAnswer 254 (.success d err) = .noErrorCode := rfl

/-- Settles O58: the predicate and the class of a success and of a failure, the calls as EXEC, and the broadcast's answer. -/
theorem outcomesAreClassified : Obligations.OutcomesAreClassified :=
  ⟨fun d err => ⟨isDeviceError_success d err, classify_success d err⟩,
    fun x => ⟨isDeviceError_failure x, classify_failure x⟩,
    fun t a n c s => readRegister_eq_exec c t a n s,
    fun t a c d s => writeRegister_eq_exec c t a d s,
    writeAnswer_broadcast⟩

end Sys2Proof.Machine
end

section
/-! Every operation presented is read back from its packet, and a frame on the line is the encoding of what it decodes to
(R60 to R63, R66). -/

namespace Sys2Proof

open Sys2Proof.Machine

theorem decodeInstrFrame_readBytes (t a n k : Byte) : decodeInstrFrame (readBytes t a n k) = .ok (.read t a n k) := rfl

theorem decodeInstrFrame_writeBytes (t l a : Byte) (d : List Byte) (k : Byte) :
    decodeInstrFrame (writeBytes t l a d k) = .ok (.write t l a d k) := by
  simp [decodeInstrFrame, writeBytes]

theorem decodeStatusFrame_statusBytes (id l e : Byte) (p : List Byte) (k : Byte) :
    decodeStatusFrame (statusBytes id l e p k) = .ok (.status id l e p k) := by
  simp [decodeStatusFrame, statusBytes]

/-- The read layout of the port (R66): kind 0, then target, address and length, a byte each. -/
theorem decodePort_rd (c : Nat) {t a n : Nat} {head : BitVec 32} (data : List Byte)
    (hw : head.toNat = t * 2 ^ 16 + a * 2 ^ 8 + n) (ht : t < 256) (ha : a < 256) (hn : n < 256) :
    decodePort c head data = .ok (.rd c t a n) := by
  have hspare : portField head 26 6 = 0 := by rw [portField, hw]; omega
  have hwrite : portField head 25 1 = 0 := by rw [portField, hw]; omega
  have hkind : portField head 24 1 = 0 := by rw [portField, hw]; omega
  have htarget : portField head 16 8 = t := by rw [portField, hw]; omega
  have haddress : portField head 8 8 = a := by rw [portField, hw]; omega
  have hlength : portField head 0 8 = n := by rw [portField, hw]; omega
  simp [decodePort, hspare, hwrite, hkind, htarget, haddress, hlength]

/-- The write layout of the port (R66): kind 1, then target, address and nine bits of length; target 254 is WR.BCAST. -/
theorem decodePort_wr (c : Nat) {t a : Nat} {d : List Byte} {head : BitVec 32}
    (hw : head.toNat = 2 ^ 25 + t * 2 ^ 17 + a * 2 ^ 9 + d.length) (ht : t < 256) (ha : a < 256) (hd : d.length < 512) :
    decodePort c head d = .ok (if t = 254 then .wrBcast c a d else .wr c t a d) := by
  have hspare : portField head 26 6 = 0 := by rw [portField, hw]; omega
  have hwrite : portField head 25 1 = 1 := by rw [portField, hw]; omega
  have htarget : portField head 17 8 = t := by rw [portField, hw]; omega
  have haddress : portField head 9 8 = a := by rw [portField, hw]; omega
  have hcount : portField head 0 9 = d.length := by rw [portField, hw]; omega
  by_cases h : t = 254 <;> simp [decodePort, hspare, hwrite, htarget, haddress, hcount, h]

/-- Settles O1: one decoder lemma for each binary layout; the eight other rows are presented by name. -/
theorem decodeReadsBackEveryEncoding : Obligations.DecodeReadsBackEveryEncoding := by
  intro i h
  cases i with
  | read t a n k => exact decodeInstrFrame_readBytes t a n k
  | write t l a d k => exact decodeInstrFrame_writeBytes t l a d k
  | status id l e p k => exact decodeStatusFrame_statusBytes id l e p k
  | rd c t a n =>
    obtain ⟨⟨ht, ha⟩, hn⟩ : (t < 256 ∧ a < 256) ∧ n < 256 := by simpa [Instr.wf] using h
    exact decodePort_rd c [] (by rw [BitVec.toNat_ofNat]; omega) ht ha hn
  | wr c t a d =>
    obtain ⟨⟨⟨ht, hne⟩, ha⟩, hd⟩ : ((t < 256 ∧ t ≠ 254) ∧ a < 256) ∧ d.length < 512 := by simpa [Instr.wf] using h
    exact (decodePort_wr c (by rw [BitVec.toNat_ofNat]; omega) ht ha hd).trans (by rw [if_neg hne])
  | wrBcast c a d =>
    obtain ⟨ha, hd⟩ : a < 256 ∧ d.length < 512 := by simpa [Instr.wf] using h
    exact decodePort_wr c (t := 254) (by rw [BitVec.toNat_ofNat]; omega) (by decide) ha hd
  | chk | encRd | encWr | decSt | send | turn | recv | exec => rfl

/-- A status frame that decodes is the STATUS frame of R63, and the instruction has its fields. -/
theorem decodeStatusFrame_ok {bytes : List Byte} {i : Instr} (h : decodeStatusFrame bytes = .ok i) :
    ∃ id l e p k, bytes = statusBytes id l e p k ∧ i = .status id l e p k := by
  unfold decodeStatusFrame at h
  split at h
  next h0 h1 id l e rest =>
    by_cases hh : h0 ≠ 0xFF ∨ h1 ≠ 0xFF
    · rw [if_pos hh] at h; cases h
    rw [if_neg hh] at h
    obtain ⟨rfl, rfl⟩ : h0 = 0xFF ∧ h1 = 0xFF := by simpa using hh
    split at h
    next k hk =>
      cases h
      obtain ⟨p, rfl⟩ := List.getLast?_eq_some_iff.mp hk
      exact ⟨id, l, e, p, k, rfl, by rw [List.dropLast_concat]⟩
    next => cases h
  next => cases h

/-- Settles O2: what decodes is one of the three frames, with the fields of the instruction. -/
theorem decodedFramesAreTheirOwnEncoding : Obligations.DecodedFramesAreTheirOwnEncoding := by
  refine fun bytes i => ⟨fun h => ?_, fun h => ?_⟩
  · obtain ⟨t, a, n, k, rfl, rfl⟩ | ⟨t, l, a, d, k, rfl, rfl⟩ := decodeInstrFrame_ok_cases h
    · rfl
    · rfl
  · obtain ⟨id, l, e, p, k, rfl, rfl⟩ := decodeStatusFrame_ok h
    rfl

/-- Settles O3: the words evaluated, one by one. -/
theorem tableWordsDecode : Obligations.TableWordsDecode := by
  refine ⟨?_, ?_, ?_, ?_, ?_, ?_, ?_, ?_, ?_⟩ <;> decide

end Sys2Proof
end

section
/-! The invariants of R26 over every step, an operation's among them (R27, R263). -/

namespace Sys2Proof.Machine

/-- Settles O28: every step keeps a good state good. -/
theorem stepKeepsTheInvariants : Obligations.StepKeepsTheInvariants :=
  fun s t h ht => ((keeps_step s h).2 t ht).1

/-- Settles O30: every step from a good state answers or refuses, an operation of many ticks within its bound. -/
theorem goodStatesNeverFault : Obligations.GoodStatesNeverFault :=
  fun s h => (keeps_step s h).1

/-- Settles O27: the record of R27 meets the invariants under any configuration, and the one of `State.reset` is legal. -/
theorem resetMeetsTheInvariants : Obligations.ResetMeetsTheInvariants :=
  ⟨⟨by decide, EngineInv.reset Cfg.least⟩, fun cfg _ hl => ⟨hl, EngineInv.reset cfg⟩⟩

end Sys2Proof.Machine
end

section
/-! What a step is, by the input presented next (R54, R143). -/

namespace Sys2Proof.Machine

theorem fetch_packet {s : State} {p : Packet} {rest : List Input} (h : s.inbox = .packet p :: rest) :
    fetch s = some (p, { s with inbox := rest }) := by
  rw [fetch, h]

theorem step_packet_ok {s : State} {p : Packet} {rest : List Input} {i : Instr} (h : s.inbox = .packet p :: rest)
    (hd : decode p = .ok i) : step s = exec i { s with inbox := rest } := by
  simp only [step, fetch_packet h, hd]

theorem step_packet_error {s : State} {p : Packet} {rest : List Input} {e : DecodeError} (h : s.inbox = .packet p :: rest)
    (hd : decode p = .error e) : step s = .refused (.undecodable e) := by
  simp only [step, fetch_packet h, hd]

theorem step_eq_advance {s : State} (h : fetch s = none) : step s = advance s := by
  rw [step, h]

/-- A table word names the instruction that its packet decodes to. -/
theorem decode_tablePacket {nbits w : Nat} {i : Instr} (h : decodeTableWord nbits w = some i) :
    decode (tablePacket nbits w) = .ok i := by
  unfold decodeTableWord at h
  split at h
  next j hj => injection h with h; rw [hj, h]
  next => cases h

/-- Settles O5: the two answers of the decoder, and the next event where no packet is. -/
theorem stepRunsTheDecodedOperation : Obligations.StepRunsTheDecodedOperation :=
  ⟨fun _ _ _ _ => step_packet_ok, fun _ _ _ _ => step_packet_error, fun _ => step_eq_advance,
    fun s _ _ _ h => step_packet_ok (rest := s.inbox) rfl (decode_tablePacket h)⟩

end Sys2Proof.Machine
end

section
/-! The four blocking calls: each is `transact` on its request (R141), turned away, answered, or refused. -/

namespace Sys2Proof.Machine

/-- An operation that is a blocking call is `transact`. -/
theorem exec_of_requestOf {i : Instr} {c : Nat} {q : Request} (h : requestOf i = some (c, q)) (s : State) :
    exec i s = transact c q s := by
  cases i with
  | rd | wr | wrBcast | exec => cases h; rfl
  | read | write | status | chk | encRd | encWr | decSt | send | turn | recv => cases h

theorem stranger_client {cfg : Cfg} {c : Nat} (h : c < cfg.nClients) (q : Request) : stranger cfg (.submit c q) = none :=
  if_pos h

theorem stranger_of_not_client {cfg : Cfg} {c : Nat} (h : ¬c < cfg.nClients) (q : Request) :
    stranger cfg (.submit c q) = some c :=
  if_neg h

theorem applyEvent_illegal (e : Event) {s : State} (h : legalCfg s.cfg = false) :
    applyEvent e s = .refused .illegalCfg := by
  simp [applyEvent, h]

theorem transact_illegal (c : Nat) (q : Request) {s : State} (h : legalCfg s.cfg = false) :
    transact c q s = .refused .illegalCfg := by
  rw [transact, applyEvent_illegal _ h, andThen_refused]

/-- Settles O26: an illegal configuration is refused by every event, the `Submit` of a call among them. -/
theorem illegalConfigurationAndStrangersAreRefused : Obligations.IllegalConfigurationAndStrangersAreRefused := by
  refine ⟨fun s hl hf => ?_, fun s i c q hl hi => ?_, fun s c q hm hc => ?_, legalCfg_iff⟩
  · rw [step_eq_advance hf]
    exact applyEvent_illegal _ hl
  · rw [exec_of_requestOf hi]
    exact transact_illegal c q hl
  · rw [step_eq_advance hm.plain, advance, hm.event]
    exact applyEvent_stranger (s := setInbox (restInbox s) s) hm.legal (stranger_of_not_client hc q)

/-- A call that finds the queue full (R142, R259). -/
theorem transact_full {c : Nat} {s : State} (q : Request) (hl : legalCfg s.cfg = true) (hc : c < s.cfg.nClients)
    (hfull : ¬s.bte.queue.length < s.cfg.qDepth) :
    transact c q s = .next { s with out := s.out ++ [.rejected c], ret := some .rejected } := by
  have hready : cmdReady s.cfg s.bte = false := decide_eq_false hfull
  have he : engine s.cfg s.bte (.submit c q) = .ok (s.bte, [.rejected c]) :=
    congrArg Except.ok (onSubmit_of_full c q hfull)
  rw [transact, applyEvent_of_engine hl (stranger_client hc q) he, andThen_next, hready]
  rfl

/-- Settles O54: each of the calls is `transact`, which a full queue turns away. -/
theorem fullQueueTurnsACallAway : Obligations.FullQueueTurnsACallAway := by
  intro i s c q hi hl hc hfull
  rw [exec_of_requestOf hi]
  exact transact_full q hl hc hfull

@[simp] theorem lineBytes_append (o o' : List Output) : lineBytes (o ++ o') = lineBytes o ++ lineBytes o' := by
  induction o with
  | nil => rfl
  | cons x o ih => cases x <;> simp [lineBytes, ih]

/-- Settles O53: `refusedState` keeps the line's registers, and its two outputs put nothing on the line. -/
theorem constructionErrorSendsNothing : Obligations.ConstructionErrorSendsNothing := by
  intro i s c q left hi hready hv hin
  refine ⟨_, (exec_of_requestOf hi s).trans (transact_invalid hready hv hin), rfl, rfl, rfl, rfl, rfl, ?_, rfl⟩
  simp [refusedState, lineBytes]

/-- A call that finds room is accepted, and waits for the last of the `Done` outputs then due (R141, R142). -/
theorem transact_accepted {c : Nat} {s : State} (q : Request) (hl : legalCfg s.cfg = true) (hc : c < s.cfg.nClients)
    (hroom : s.bte.queue.length < s.cfg.qDepth) :
    transact c q s =
      awaitDone (s.inbox.length + pendingTicks s.cfg (enqueue c q s.bte)) (pendingDone (enqueue c q s.bte))
        (commit (enqueue c q s.bte) [.accepted c] s) := by
  have hready : cmdReady s.cfg s.bte = true := decide_eq_true hroom
  have he : engine s.cfg s.bte (.submit c q) = .ok (enqueue c q s.bte, [.accepted c]) :=
    congrArg Except.ok (onSubmit_of_room c q hroom)
  rw [transact, applyEvent_of_engine hl (stranger_client hc q) he, andThen_next, hready]
  rfl

/-- The request just queued is the one that the last `Done` due answers. -/
theorem awaits_enqueue (b : Bte) (c : Nat) (q : Request) :
    Awaits (enqueue c q b) (pendingDone (enqueue c q b)) c q := by
  refine .inl ⟨b.queue.length, ?_, ?_⟩
  · simp [pendingDone, busyOne]
  · simp

/-- Settles O55: the call ends, since all that is pending runs out (`transact_settles`), and it ends with its own `Done`
(`awaitDone_answers`). -/
theorem everyAcceptedCallIsAnswered : Obligations.EveryAcceptedCallIsAnswered := by
  intro i s c q hi h hc hroom hreset
  rw [exec_of_requestOf hi]
  obtain ⟨t, ht, hti, -⟩ := (transact_settles (q := q) h hc).next hreset rfl
  rw [ht]
  rw [transact_accepted q h.legal hc hroom] at ht
  have haccepted : Inv (commit (enqueue c q s.bte) [.accepted c] s) :=
    (applyEvent_keeps_inv (e := .submit c q) h (applyEvent_of_engine h.legal (stranger_client hc q)
      (congrArg Except.ok (onSubmit_of_room c q hroom)))).1
  obtain ⟨o, r, raw, hout, hret, hres, hst, hcl, hreq⟩ :=
    awaitDone_answers _ _ _ t c q haccepted hreset (awaits_enqueue s.bte c q) ht
  exact ⟨t, r, o, raw, rfl, hti, by simpa using hout, hret, hres, hst, hcl, hreq⟩

end Sys2Proof.Machine
end

section
/-! No operation writes the configuration (R10). -/

namespace Sys2Proof.Machine

/-- What answers does so under the configuration it was given. -/
def KeepsCfg (f : State → Host.Outcome State Fault Refusal) : Prop := ∀ s t, f s = .next t → t.cfg = s.cfg

theorem KeepsCfg.andThen {f : State → Host.Outcome State Fault Refusal}
    {g : State → State → Host.Outcome State Fault Refusal} (hf : KeepsCfg f) (hg : ∀ s, KeepsCfg (g s)) :
    KeepsCfg fun s => andThen (f s) (g s) := by
  intro s t ht
  obtain ⟨s1, h1, h2⟩ := andThen_eq_next _ _ _ ht
  exact (hg s s1 t h2).trans (hf s s1 h1)

theorem KeepsCfg.ite {p : State → Prop} [DecidablePred p] {f g : State → Host.Outcome State Fault Refusal}
    (hf : KeepsCfg f) (hg : KeepsCfg g) : KeepsCfg fun s => if p s then f s else g s := by
  intro s t ht
  by_cases hp : p s
  · exact hf s t ((if_pos hp).symm.trans ht)
  · exact hg s t ((if_neg hp).symm.trans ht)

theorem keepsCfg_refused (r : Refusal) : KeepsCfg fun _ => .refused r := fun _ _ ht => nomatch ht

theorem keepsCfg_fault (r : Fault) : KeepsCfg fun _ => .fault r := fun _ _ ht => nomatch ht

theorem keepsCfg_giveBack (v : State → Return) : KeepsCfg fun s => .next (giveBack (v s) s) := by
  intro s t ht
  injection ht with ht
  rw [← ht, giveBack_cfg]

theorem keepsCfg_applyEvent (e : Event) : KeepsCfg (applyEvent e) := by
  intro s t ht
  obtain ⟨-, -, b, o, -, rfl⟩ := applyEvent_eq_next ht
  rfl

theorem keepsCfg_advance : KeepsCfg advance := fun _ _ ht => (advance_eq_next ht).2.1

theorem keepsCfg_runPhase (inPhase : Bte → Bool) (value : Bte → Event → Return) (k : Nat) :
    KeepsCfg (runPhase inPhase value k) := by
  induction k with
  | zero => exact keepsCfg_fault _
  | succ k ih => exact keepsCfg_advance.andThen fun s => (keepsCfg_giveBack _).ite (ih.ite (keepsCfg_giveBack _))

theorem keepsCfg_awaitDone (k todo : Nat) : KeepsCfg (awaitDone k todo) := by
  induction k generalizing todo with
  | zero => exact keepsCfg_fault _
  | succ k ih =>
    refine keepsCfg_advance.andThen fun s => (keepsCfg_giveBack _).ite (KeepsCfg.ite ?_ (ih todo))
    match todo, s.bte.result with
    | 0, _ => exact keepsCfg_fault _
    | 1, some r => exact keepsCfg_giveBack _
    | 1, none => exact keepsCfg_fault _
    | m + 2, _ => exact ih (m + 1)

theorem keepsCfg_hearFrame (f : List Byte) : KeepsCfg (hearFrame f) := by
  induction f with
  | nil => exact keepsCfg_giveBack _
  | cons x f ih => exact (keepsCfg_applyEvent _).andThen fun _ => ih

/-- The bounds on a phase depend on the state it starts in, so each run is one of `keepsCfg_runPhase`. -/
theorem keepsCfg_runFrom {inPhase : Bte → Bool} {value : Bte → Event → Return} (bound : State → Nat) :
    KeepsCfg fun s => runPhase inPhase value (bound s) s :=
  fun s => keepsCfg_runPhase inPhase value (bound s) s

theorem keepsCfg_transact (c : Nat) (q : Request) : KeepsCfg (transact c q) :=
  (keepsCfg_applyEvent _).andThen fun s s1 t ht =>
    KeepsCfg.ite (p := fun _ => cmdReady s.cfg s.bte = true) (fun u => keepsCfg_awaitDone _ _ u)
      (keepsCfg_giveBack fun _ => .rejected) s1 t ht

theorem keepsCfg_exec (i : Instr) : KeepsCfg (exec i) := by
  cases i with
  | read | write => exact KeepsCfg.ite (keepsCfg_runFrom _) (keepsCfg_hearFrame _)
  | status => exact keepsCfg_hearFrame _
  | rd | wr | wrBcast | exec => exact keepsCfg_transact _ _
  | chk | encRd | encWr => exact keepsCfg_giveBack _
  | decSt raw e =>
    intro s t ht
    rw [exec, execDecSt] at ht
    split at ht
    next r _ => exact keepsCfg_giveBack (fun _ => .result r) s t ht
    next => cases ht
  | send | turn | recv => exact KeepsCfg.ite (keepsCfg_runFrom _) (keepsCfg_refused _)

/-- Settles O31: an operation and an event both keep the configuration. -/
theorem configurationNeverChanges : Obligations.ConfigurationNeverChanges := by
  intro s t ht
  rcases step_cases s with ⟨i, l, hs⟩ | ⟨e, hs⟩ | hs
  · exact keepsCfg_exec i (setInbox l s) t (hs ▸ ht)
  · rw [hs] at ht; cases ht
  · exact keepsCfg_advance s t (hs ▸ ht)

end Sys2Proof.Machine
end

section
/-! The registers of a transaction and the outputs, over every transition (R12, R16, R19, R140). -/

namespace Sys2Proof.Machine

/-- The four registers that describe the transaction in progress (R16, R19). -/
def registers (b : Bte) : Option Nat × Option Request × Option (List Byte) × Option Nat :=
  (b.curClient, b.curReq, b.txbuf, b.expLen)

theorem registers_eq_iff (b b' : Bte) : registers b' = registers b ↔
    b'.curClient = b.curClient ∧ b'.curReq = b.curReq ∧ b'.txbuf = b.txbuf ∧ b'.expLen = b.expLen := by
  simp [registers]

/-- Only `Reset` and the start of a request write the four registers. -/
theorem Moves.registers_eq {cfg : Cfg} {b b' : Bte} {e : Event} {o : List Output} (h : Moves cfg b e b' o)
    (hr : e ≠ .reset) (hs : ¬(e = .tick ∧ b.st = .idle ∧ b.queue ≠ [])) : registers b' = registers b := by
  cases h with
  | reset => exact absurd rfl hr
  | start c q rest hi hq | constructionError c q rest hi hq => exact absurd ⟨rfl, hi, by simp [hq]⟩ hs
  | accept | reject | rxMore | rxLast | rxGated | rxStale | idle | shift | byteOut | drain | turn | broadcast | window | wait
    | late | retire => rfl

/-- Settles O36: of the moves of a good state only `Reset` and the two starts write the registers, and the start that ends in a
ConstructionError loads no frame. -/
theorem transactionRegistersAreWrittenAtTheStart : Obligations.TransactionRegistersAreWrittenAtTheStart := by
  intro s t h hf ht
  obtain ⟨o, hm, -⟩ := step_moves h hf ht
  refine ⟨fun he => ?_, fun hr hs => (registers_eq_iff _ _).mp (hm.registers_eq hr hs), fun c q rest he hs hq hv => ?_⟩
  · rw [he] at hm
    generalize t.bte = b at hm ⊢
    cases hm
    exact ⟨rfl, rfl, rfl, rfl⟩
  · obtain ⟨-, -, -, -, o', hen, -⟩ := step_event hf ht
    rw [he, engine_tick_idle hs, tickIdle_of_invalid hq s.cfg hv] at hen
    injection hen with hen
    injection hen with hb
    rw [← hb]
    exact ⟨rfl, rfl⟩

/-- Settles O37: the outputs of each move of a good state. -/
theorem outputsOfEachEvent : Obligations.OutputsOfEachEvent := by
  intro s t h hf ht
  obtain ⟨o, hm, hout⟩ := step_moves h hf ht
  refine ⟨o, hout, ?_⟩
  generalize nextEvent s = e, t.bte = b at hm ⊢
  cases hm with
  | reset | rxMore | rxLast | rxGated | rxStale => rfl
  | accept c q hroom => exact (if_pos hroom).symm
  | reject c q hfull => exact (if_neg hfull).symm
  | shift n hs hn h1 => simp [hs, hn, Nat.ne_of_gt h1]
  | byteOut f i x hs hn hf hi hx | drain f i x hs hn hf hi hx => simp [hs, hn, hf, hi, hx]
  | retire c r hs hc hr => simp [hs, hc, hr]
  | idle hs | start c q rest hs | constructionError c q rest hs | turn n hs | broadcast hs | window e hs | wait n hs
    | late e r hs => simp [hs]

end Sys2Proof.Machine
end

section
/-! The registry: lookup, requests, and the data of a register (R180 to R184). -/

namespace Sys2Proof.Machine

/-- The table has two entries, found by their names. -/
theorem describeRegister_eq (name : String) : describeRegister name =
    if name = "position" then some { name := "position", address := 36, width := .two, quantity := .position }
    else if name = "goal position" then
      some { name := "goal position", address := 30, width := .two, quantity := .position }
    else none := by
  simp only [describeRegister, registry, List.find?_cons, List.find?_nil, eq_comm (b := name)]
  by_cases hp : name = "position"
  · simp [hp]
  · by_cases hg : name = "goal position" <;> simp [hp, hg]

theorem widthBytes_le_two (w : Width) : widthBytes w ≤ 2 := by cases w <;> decide

theorem validate_readRequestOf (d : RegisterDescriptor) {t : Nat} (ht : t ≤ 253) : validate (readRequestOf d t) = true := by
  have := widthBytes_le_two d.width
  exact (validate_rd _ _ _).mpr ⟨ht, by omega, by omega⟩

theorem validate_writeRequestOf (d : RegisterDescriptor) {t : Nat} (raw : Nat) (ht : t ≤ 253) :
    validate (writeRequestOf d t raw) = true := by
  have := widthBytes_le_two d.width
  exact (validate_wr _ _ _).mpr ⟨by omega, by omega, by rw [dataOf_length]; omega⟩

/-- A raw value of the register's width is read back from the bytes that write it (R183). -/
theorem rawOf_dataOf {d : RegisterDescriptor} {raw : Nat} (h : raw < 256 ^ widthBytes d.width) :
    rawOf d (dataOf d raw) = some raw := by
  rw [rawOf, if_pos (dataOf_length d raw), dataOf]
  cases hw : d.width with
  | one =>
    rw [hw] at h
    exact congrArg some (Nat.mod_eq_of_lt h)
  | two =>
    rw [hw] at h
    exact rawValue_rawBytes h

theorem physicalOf_of_width {d : RegisterDescriptor} {data : List Byte} (h : data.length = widthBytes d.width) :
    physicalOf d data = (rawValue data).map (toPhysical d) := by
  rw [physicalOf, rawOf, if_pos h]

theorem physicalOf_of_other_width {d : RegisterDescriptor} {data : List Byte} (h : data.length ≠ widthBytes d.width) :
    physicalOf d data = none := by
  rw [physicalOf, rawOf, if_neg h, Option.map_none]

/-- Settles O60: the lookup, the requests, the round trip, and what data of the register's width and of the other one mean. -/
theorem registryDescribesItsRegisters : Obligations.RegistryDescribesItsRegisters := by
  refine ⟨describeRegister_eq, fun d t raw ht => ⟨validate_readRequestOf d ht, rfl, validate_writeRequestOf d raw ht⟩,
    fun d raw => rawOf_dataOf, fun d x y => ⟨fun hw => ?_, fun hw => ?_⟩, fun d raw hd => ?_⟩
  · exact ⟨physicalOf_of_width (by rw [hw]; rfl), physicalOf_of_other_width (by simp [hw])⟩
  · exact ⟨physicalOf_of_other_width (by simp [hw]), physicalOf_of_width (by rw [hw]; rfl)⟩
  · rw [describeRegister_eq, if_pos rfl] at hd
    injection hd with hd
    rw [← hd]
    rfl

end Sys2Proof.Machine
end

section
/-! Service follows acceptance (R46, R50, R51, R141, R159): what a run of events from an idle block has done so far, kept by
every move. -/

namespace Sys2Proof.Machine

@[simp] theorem acceptedClients_append (o o' : List Output) :
    acceptedClients (o ++ o') = acceptedClients o ++ acceptedClients o' := by
  induction o with
  | nil => rfl
  | cons x o ih => cases x <;> simp [acceptedClients, ih]

@[simp] theorem doneClients_append (o o' : List Output) : doneClients (o ++ o') = doneClients o ++ doneClients o' := by
  induction o with
  | nil => rfl
  | cons x o ih => cases x <;> simp [doneClients, ih]

@[simp] theorem wholeFrames_append (l l' : List (Nat × Request)) :
    wholeFrames (l ++ l') = wholeFrames l ++ wholeFrames l' := by
  induction l with
  | nil => rfl
  | cons x l ih => simp [wholeFrames, ih]

theorem wholeFrames_valid {c : Nat} {q : Request} (h : validate q = true) : wholeFrames [(c, q)] = encodeRequest q := by
  simp [wholeFrames, h]

theorem wholeFrames_invalid {c : Nat} {q : Request} (h : validate q = false) : wholeFrames [(c, q)] = [] := by
  simp [wholeFrames, h]

/-- The last request taken is in progress until it is retired (R20). -/
theorem getLast?_taken {taken : List (Nat × Request)} {e : Nat × Request} (h : taken.getLast? = some e) :
    taken = taken.dropLast ++ [e] := by
  obtain ⟨l, rfl⟩ := List.getLast?_eq_some_iff.mp h
  rw [List.dropLast_concat]

/-- Of the requests taken, those that are reported (R151). -/
def reported (b : Bte) (taken : List (Nat × Request)) : List (Nat × Request) :=
  if b.st = .idle then taken else taken.dropLast

/-- The bytes that the requests taken have on the line: whole frames, the last one as far as it is sent (R145). -/
def onLine (b : Bte) (taken : List (Nat × Request)) : List Byte :=
  if b.st = .sending then wholeFrames taken.dropLast ++ (b.txbuf.getD []).take (b.txIdx.getD 0) else wholeFrames taken

theorem onLine_of_not_sending {b : Bte} (taken : List (Nat × Request)) (h : b.st ≠ .sending) :
    onLine b taken = wholeFrames taken := if_neg h

theorem onLine_of_sending {b : Bte} (taken : List (Nat × Request)) {f : List Byte} {i : Nat} (h : b.st = .sending)
    (hf : b.txbuf = some f) (hi : b.txIdx = some i) : onLine b taken = wholeFrames taken.dropLast ++ f.take i := by
  simp [onLine, h, hf, hi]

/-- From the queue `queue₀` and the outputs `out₀` of an idle block the requests `taken` have been started and the requests
`joined` accepted, which led to the record `b` and the outputs `out`. -/
structure Served (queue₀ : List (Nat × Request)) (out₀ : List Output) (b : Bte) (out : List Output)
    (taken joined : List (Nat × Request)) : Prop where
  queue : taken ++ b.queue = queue₀ ++ joined
  accepted : acceptedClients out = acceptedClients out₀ ++ joined.map Prod.fst
  done : doneClients out = doneClients out₀ ++ (reported b taken).map Prod.fst
  current : b.st ≠ .idle → ∃ c q, b.curClient = some c ∧ b.curReq = some q ∧ taken.getLast? = some (c, q)
  line : lineBytes out = lineBytes out₀ ++ onLine b taken

theorem Served.start {b : Bte} (out : List Output) (hs : b.st = .idle) : Served b.queue out b out [] [] where
  queue := by simp
  accepted := by simp
  done := by simp [reported]
  current h := absurd hs h
  line := by simp [onLine, hs, wholeFrames]

/-- The requests taken after event `e`: the start transition takes the head of the queue (R144). -/
def takenAfter (b : Bte) (taken : List (Nat × Request)) : Event → List (Nat × Request)
  | .tick => if b.st = .idle then taken ++ b.queue.head?.toList else taken
  | .reset => taken
  | .rxByte _ => taken
  | .submit _ _ => taken

/-- The requests accepted after event `e` (R142). -/
def joinedAfter (cfg : Cfg) (b : Bte) (joined : List (Nat × Request)) : Event → List (Nat × Request)
  | .submit c q => if b.queue.length < cfg.qDepth then joined ++ [(c, q)] else joined
  | .reset => joined
  | .tick => joined
  | .rxByte _ => joined

section Moves

variable {queue₀ : List (Nat × Request)} {out₀ : List Output} {cfg : Cfg} {b : Bte} {out : List Output}
  {taken joined : List (Nat × Request)}

/-- A silent move within a transaction, or one that leaves an idle block idle, changes no part of the account. -/
theorem Served.of_same (h : Served queue₀ out₀ b out taken joined) {b' : Bte} (hq : b'.queue = b.queue)
    (hc : b'.curClient = b.curClient) (hr : b'.curReq = b.curReq) (hs : b'.st = .idle ↔ b.st = .idle)
    (hl : onLine b' taken = onLine b taken) : Served queue₀ out₀ b' out taken joined where
  queue := by rw [hq, h.queue]
  accepted := h.accepted
  done := by rw [h.done]; simp only [reported, hs]
  current hb := by rw [hc, hr]; exact h.current (mt hs.mpr hb)
  line := by rw [hl, h.line]

/-- Bytes from the line, and the end of the waits, change neither the queue nor what is on the line. -/
theorem Served.of_same_st (h : Served queue₀ out₀ b out taken joined) {b' : Bte} (hq : b'.queue = b.queue)
    (hc : b'.curClient = b.curClient) (hr : b'.curReq = b.curReq) (hs : b'.st = b.st) (hf : b'.txbuf = b.txbuf)
    (hi : b'.txIdx = b.txIdx) : Served queue₀ out₀ b' out taken joined :=
  h.of_same hq hc hr (by rw [hs]) (by simp only [onLine, hs, hf, hi])

theorem Served.enqueue (h : Served queue₀ out₀ b out taken joined) (c : Nat) (q : Request) :
    Served queue₀ out₀ (enqueue c q b) (out ++ [.accepted c]) taken (joined ++ [(c, q)]) where
  queue := by rw [enqueue_queue, ← List.append_assoc, h.queue, List.append_assoc]
  accepted := by simp [h.accepted, acceptedClients]
  done := by
    have hsame : reported (Machine.enqueue c q b) taken = reported b taken := rfl
    simp [h.done, doneClients, hsame]
  current := h.current
  line := by
    have hsame : onLine (Machine.enqueue c q b) taken = onLine b taken := rfl
    simp [h.line, lineBytes, hsame]

theorem Served.reject (h : Served queue₀ out₀ b out taken joined) (c : Nat) :
    Served queue₀ out₀ b (out ++ [.rejected c]) taken joined :=
  { h with
    accepted := by simp [h.accepted, acceptedClients]
    done := by simp [h.done, doneClients]
    line := by simp [h.line, lineBytes] }

/-- The start of a transaction, with its frame still to come or with none (R144). -/
theorem Served.take (h : Served queue₀ out₀ b out taken joined) (hs : b.st = .idle) {c : Nat} {q : Request}
    {rest : List (Nat × Request)} (hq : b.queue = (c, q) :: rest) {b' : Bte} (hq' : b'.queue = rest)
    (hc : b'.curClient = some c) (hr : b'.curReq = some q) (hs' : b'.st ≠ .idle)
    (hl : onLine b' (taken ++ [(c, q)]) = wholeFrames taken) :
    Served queue₀ out₀ b' out (taken ++ [(c, q)]) joined where
  queue := by rw [hq', List.append_assoc, List.singleton_append, ← hq, h.queue]
  accepted := h.accepted
  done := by rw [h.done]; simp [reported, hs, hs']
  current _ := ⟨c, q, hc, hr, by simp⟩
  line := by rw [hl, h.line, onLine_of_not_sending taken (by rw [hs]; decide)]

/-- One byte more of the frame is on the line (R145). -/
theorem Served.emit (h : Served queue₀ out₀ b out taken joined) (hs : b.st ≠ .idle) {x : Byte} {b' : Bte}
    (hq : b'.queue = b.queue) (hc : b'.curClient = b.curClient) (hr : b'.curReq = b.curReq) (hs' : b'.st ≠ .idle)
    (hl : onLine b' taken = onLine b taken ++ [x]) : Served queue₀ out₀ b' (out ++ [.txByte x]) taken joined where
  queue := by rw [hq, h.queue]
  accepted := by simp [h.accepted, acceptedClients]
  done := by simp [h.done, doneClients, reported, hs, hs']
  current _ := by rw [hc, hr]; exact h.current hs
  line := by simp [hl, h.line, lineBytes]

/-- The frame of the request in progress is whole once its last byte is out. -/
theorem Served.drained (h : Served queue₀ out₀ b out taken joined) (hi : EngineInv cfg b) (hs : b.st = .sending)
    {f : List Byte} (hf : b.txbuf = some f) : wholeFrames taken = wholeFrames taken.dropLast ++ f := by
  obtain ⟨c, q, -, hq, hlast⟩ := h.current (by rw [hs]; decide)
  obtain ⟨q', -, -, hq', hv, hf', -⟩ := hi.sending_registers hs
  obtain rfl : q' = q := Option.some.inj (hq'.symm.trans hq)
  obtain rfl : encodeRequest q' = f := Option.some.inj (hf'.symm.trans hf)
  conv_lhs => rw [getLast?_taken hlast, wholeFrames_append, wholeFrames_valid hv]

/-- `Done` reports the request in progress (R151). -/
theorem Served.retire (h : Served queue₀ out₀ b out taken joined) (hs : b.st = .completed) {c : Nat} {r : Result}
    (hc : b.curClient = some c) :
    Served queue₀ out₀ (releaseLock b) (out ++ [.done c r]) taken joined where
  queue := h.queue
  accepted := by simp [h.accepted, acceptedClients]
  done := by
    obtain ⟨c', q, hc', -, hlast⟩ := h.current (by rw [hs]; decide)
    obtain rfl : c' = c := Option.some.inj (hc'.symm.trans hc)
    have hall : taken.map Prod.fst = taken.dropLast.map Prod.fst ++ [c'] := by
      conv_lhs => rw [getLast?_taken hlast, List.map_append, List.map_singleton]
    rw [doneClients_append, h.done, reported, if_neg (by rw [hs]; decide), reported, if_pos (releaseLock_st b), hall,
      List.append_assoc]
    rfl
  current hn := absurd rfl hn
  line := by
    rw [lineBytes_append, h.line, onLine_of_not_sending taken (by rw [hs]; decide),
      onLine_of_not_sending taken (by rw [releaseLock_st]; decide)]
    simp [lineBytes]

/-- Every move but a `Reset` keeps the account. -/
theorem Served.move (h : Served queue₀ out₀ b out taken joined) (hi : EngineInv cfg b) {b' : Bte} {e : Event}
    {o : List Output} (hm : Moves cfg b e b' o) (hr : e ≠ .reset) :
    Served queue₀ out₀ b' (out ++ o) (takenAfter b taken e) (joinedAfter cfg b joined e) := by
  cases hm with
  | reset => exact absurd rfl hr
  | accept c q hroom => rw [joinedAfter, if_pos hroom]; exact h.enqueue c q
  | reject c q hfull => rw [joinedAfter, if_neg hfull]; exact h.reject c
  | rxGated | rxMore | rxStale => rw [List.append_nil]; exact h.of_same_st rfl rfl rfl rfl rfl rfl
  | rxLast x e r hs =>
    rw [List.append_nil]
    exact h.of_same rfl rfl rfl (by simp [hs]) (by simp [onLine, hs])
  | idle hs hq => simpa [takenAfter, joinedAfter, hs, hq] using h
  | start c q rest hs hq hv =>
    rw [List.append_nil, takenAfter, if_pos hs, hq]
    exact h.take hs hq rfl rfl rfl (by simp) (by simp [onLine])
  | constructionError c q rest hs hq hv =>
    rw [List.append_nil, takenAfter, if_pos hs, hq]
    exact h.take hs hq rfl rfl rfl (by simp) (by simp [onLine, wholeFrames_invalid hv])
  | shift n hs => simpa [takenAfter, joinedAfter, hs] using h.of_same_st (b' := setByteCnt (n - 1) b) rfl rfl rfl rfl rfl rfl
  | byteOut f i x hs hn hf hidx hx =>
    rw [takenAfter, if_neg (by rw [hs]; decide)]
    refine h.emit (by rw [hs]; decide) rfl rfl rfl (by simp [hs]) ?_
    rw [onLine_of_sending taken hs hf hidx, onLine_of_sending taken (b := nextByte cfg (i + 1) b) hs hf rfl,
      List.take_add_one, hx, Option.toList_some, List.append_assoc]
  | drain f i x hs hn hf hidx hx hlen =>
    rw [takenAfter, if_neg (by rw [hs]; decide)]
    refine h.emit (by rw [hs]; decide) rfl rfl rfl (by simp) ?_
    have hf' : f = f.take i ++ [x] := by
      rw [← Option.toList_some, ← hx, ← List.take_add_one, hlen, List.take_length]
    rw [onLine_of_sending taken hs hf hidx, onLine_of_not_sending taken (by rw [endSend_st]; decide), h.drained hi hs hf,
      List.append_assoc, ← hf']
  | turn n hs | wait n hs =>
    rw [List.append_nil, takenAfter, if_neg (by rw [hs]; decide)]
    exact h.of_same_st rfl rfl rfl rfl rfl rfl
  | broadcast hs | window e hs | late e r hs =>
    rw [List.append_nil, takenAfter, if_neg (by rw [hs]; decide)]
    exact h.of_same rfl rfl rfl (by simp [hs]) (by simp [onLine, hs])
  | retire c r hs hc =>
    rw [takenAfter, if_neg (by rw [hs]; decide)]
    exact h.retire hs hc

end Moves

/-- The inputs still to come hold neither an operation nor a `Reset`. -/
def OnlyService (l : List Input) : Prop := (∀ p, Input.packet p ∉ l) ∧ Input.event .reset ∉ l

theorem OnlyService.fetch {s : State} (h : OnlyService s.inbox) : fetch s = none := by
  unfold Machine.fetch
  split
  next p rest hs => exact absurd (hs ▸ List.mem_cons_self ..) (h.1 p)
  next => rfl
  next => rfl

theorem OnlyService.not_reset {s : State} (h : OnlyService s.inbox) : nextEvent s ≠ .reset := by
  rcases next_cases s with ⟨ht, -⟩ | ⟨l, hl, -⟩
  · rw [ht]; decide
  · exact fun hr => h.2 (by rw [hl, hr]; exact List.mem_cons_self ..)

theorem OnlyService.rest {s : State} (h : OnlyService s.inbox) : OnlyService (restInbox s) := by
  rcases next_cases s with ⟨-, hr⟩ | ⟨l, hl, hr⟩
  · rwa [hr]
  · rw [hr]
    rw [hl] at h
    exact ⟨fun p hp => h.1 p (List.mem_cons_of_mem _ hp), fun hp => h.2 (List.mem_cons_of_mem _ hp)⟩

/-- What is accepted is among what is submitted: an event moves at most its own request from the one list to the other. -/
theorem joinedAfter_sublist (s : State) (joined : List (Nat × Request)) :
    (joinedAfter s.cfg s.bte joined (nextEvent s) ++ submissions (restInbox s)).Sublist (joined ++ submissions s.inbox) := by
  rcases next_cases s with ⟨ht, hr⟩ | ⟨l, hl, hr⟩
  · rw [ht, hr]; exact List.Sublist.refl _
  · rw [hr, hl]
    cases nextEvent s with
    | reset | tick | rxByte x => exact List.Sublist.refl _
    | submit c q =>
      rw [submissions, joinedAfter]
      by_cases hroom : s.bte.queue.length < s.cfg.qDepth
      · rw [if_pos hroom, List.append_assoc]; exact List.Sublist.refl _
      · rw [if_neg hroom]; exact (List.sublist_cons_self _ _).append_left _

/-- From a good state that is part of the way through a run of events, any further run keeps the account. -/
theorem served_steps {queue₀ : List (Nat × Request)} {out₀ : List Output} (k : Nat) :
    ∀ (s t : State) (taken joined : List (Nat × Request)), Inv s → OnlyService s.inbox →
      Served queue₀ out₀ s.bte s.out taken joined → steps k s = .next t →
      ∃ taken' joined', Inv t ∧ Served queue₀ out₀ t.bte t.out taken' joined' ∧
        joined'.Sublist (joined ++ submissions s.inbox) := by
  induction k with
  | zero =>
    intro s t taken joined hi hl hv ht
    cases ht
    exact ⟨taken, joined, hi, hv, List.sublist_append_left _ _⟩
  | succ k ih =>
    intro s t taken joined hi hl hv ht
    obtain ⟨s1, h1, h2⟩ := andThen_eq_next _ _ _ ht
    obtain ⟨o, hm, hout⟩ := step_moves hi hl.fetch h1
    obtain ⟨-, -, -, hin, -⟩ := step_event hl.fetch h1
    have hv1 := hv.move hi.inv hm hl.not_reset
    rw [← hout] at hv1
    obtain ⟨taken', joined', hti, hvt, hsub⟩ := ih s1 t _ _ ((keeps_step s hi).2 s1 h1).1 (hin ▸ hl.rest) hv1 h2
    exact ⟨taken', joined', hti, hvt, hsub.trans (hin ▸ joinedAfter_sublist s joined)⟩

/-- Settles O38: the account `Served` holds at the start of the run, and every move keeps it. -/
theorem serviceFollowsAcceptance : Obligations.ServiceFollowsAcceptance := by
  intro k s t hi hs hp hr ht
  obtain ⟨taken, joined, hti, h, hsub⟩ := served_steps k s t [] [] hi ⟨hp, hr⟩ (.start s.out hs) ht
  refine ⟨taken, joined, h.queue, hsub, h.accepted, h.done, h.current, fun hn => ?_, fun hsend => ?_⟩
  · rw [h.line, onLine_of_not_sending taken hn]
  · obtain ⟨q, i, -, -, -, hf, hidx, -⟩ := hti.inv.sending_registers hsend
    exact ⟨_, i, hf, hidx, by rw [h.line, onLine_of_sending taken hsend hf hidx, List.append_assoc]⟩

end Sys2Proof.Machine
end

section
/-! SEND, TURN and RECV: each is its phase, run until the first event that leaves it (R120, R122, R123, R124). -/

namespace Sys2Proof.Machine

theorem inTurnaround_of_st {b : Bte} (h : b.st = .awaitingTurnaround) : inTurnaround b = true := decide_eq_true h

theorem inReceive_of_st {b : Bte} (h : b.st = .receiving) : inReceive b = true := decide_eq_true h

theorem exec_send_eq_sendPhase {s : State} (h : inSend s.bte = true) : exec .send s = sendPhase s := if_pos h

theorem exec_send_refused {s : State} (h : dueFrame s.bte = none) : exec .send s = .refused .phaseOrder :=
  if_neg (by simp [inSend, h])

theorem exec_turn_refused {s : State} (h : s.bte.st ≠ .awaitingTurnaround) : exec .turn s = .refused .phaseOrder :=
  if_neg (by simpa [inTurnaround] using h)

theorem exec_recv_refused {s : State} (h : s.bte.st ≠ .receiving) : exec .recv s = .refused .phaseOrder :=
  if_neg (by simpa [inReceive] using h)

theorem dueFrame_sending {b : Bte} (h : b.st = .sending) : dueFrame b = b.txbuf := by
  rw [dueFrame, h]

theorem dueFrame_idle_head {b : Bte} {c : Nat} {q : Request} {rest : List (Nat × Request)} (h : b.st = .idle)
    (hq : b.queue = (c, q) :: rest) : dueFrame b = if validate q then some (encodeRequest q) else none := by
  simp [dueFrame, h, hq]

theorem dueFrame_idle_empty {b : Bte} (h : b.st = .idle) (hq : b.queue = []) : dueFrame b = none := by
  simp [dueFrame, h, hq]

/-- In an idle block no frame is due when the head of the queue cannot be encoded, or when there is none. -/
theorem dueFrame_idle_eq_none_iff {b : Bte} (h : b.st = .idle) :
    dueFrame b = none ↔ ∀ c q rest, b.queue = (c, q) :: rest → validate q = false := by
  cases hq : b.queue with
  | nil => simp [dueFrame_idle_empty h hq]
  | cons e rest =>
    obtain ⟨c, q⟩ := e
    rw [dueFrame_idle_head h hq]
    constructor
    · intro hn c' q' rest' he
      cases he
      simpa using hn
    · intro hv
      simp [hv c q rest rfl]

/-- When no frame is due (R120, R144, R145). -/
theorem dueFrame_eq_none_iff (b : Bte) : dueFrame b = none ↔
    (b.st = .sending ∧ b.txbuf = none) ∨ b.st = .awaitingTurnaround ∨ b.st = .receiving ∨ b.st = .completed ∨
      (b.st = .idle ∧ ∀ c q rest, b.queue = (c, q) :: rest → validate q = false) := by
  cases hs : b.st with
  | idle => simp [dueFrame_idle_eq_none_iff hs]
  | sending => simp [dueFrame_sending hs]
  | awaitingTurnaround | receiving | completed => simp [dueFrame, hs]

/-- Settles O43: each operation is refused outside its phase, and for SEND that is when no frame is due. -/
theorem phasesOutOfOrderAreRefused : Obligations.PhasesOutOfOrderAreRefused :=
  fun s => ⟨exec_send_refused, exec_turn_refused, exec_recv_refused, dueFrame_eq_none_iff s.bte⟩

/-- SEND from an idle block (R120, R144, R145): the start tick and the whole frame of the head. -/
theorem exec_send_from_idle {s : State} {c : Nat} {q : Request} {rest : List (Nat × Request)} {w : List Event}
    {left : List Input} (hl : legalCfg s.cfg = true) (hs : s.bte.st = .idle) (hq : s.bte.queue = (c, q) :: rest)
    (hv : validate q = true) (hw : lineOnly w) (hn : tickCount w = (encodeRequest q).length * s.cfg.tByte)
    (hin : s.inbox = events (w ++ [.tick]) ++ left) : exec .send s = .next (drainedState s c q rest left) := by
  obtain ⟨t, hlead, ht, -, htick, hadv⟩ := drain_lead hl hs hq hv (l := left) hw hn (by simpa using hin)
  have hlen : w.length + 1 ≤ s.inbox.length := by rw [hin]; simp
  rw [exec_send_eq_sendPhase (inSend_idle hs hq hv), sendPhase,
    runPhase_exit (hlead.mono fun _ h => h.2) ht (by rw [htick]; decide) hadv rfl (by omega)]
  rfl

/-- A state in `Sending` is one on its frame's schedule (R129): the bytes out and the ticks gone of the next one. -/
theorem sendAt_self {s : State} (f : List Byte) {i n : Nat} (hi : s.bte.txIdx = some i) (hn : s.bte.byteCnt = some n)
    (h1 : 1 ≤ n) (hle : n ≤ s.cfg.tByte) : sendAt s f i (i * s.cfg.tByte + (s.cfg.tByte - n)) s.inbox = s := by
  have hlt : s.cfg.tByte - n < s.cfg.tByte := by omega
  have hdiv : (i * s.cfg.tByte + (s.cfg.tByte - n)) / s.cfg.tByte = i := by
    rw [Nat.mul_comm, Nat.mul_add_div (by omega), Nat.div_eq_of_lt hlt, Nat.add_zero]
  have hmod : s.cfg.tByte - (i * s.cfg.tByte + (s.cfg.tByte - n)) % s.cfg.tByte = n := by
    rw [Nat.mul_comm, Nat.mul_add_mod, Nat.mod_eq_of_lt hlt]; omega
  have hout : (f.take i).drop i = [] := List.drop_eq_nil_of_le (List.length_take_le _ _)
  simp only [sendAt, hdiv, hmod, hout, List.map_nil, List.append_nil, ← hi, ← hn]

/-- SEND in the middle of a frame (R120, R145): the rest of it. -/
theorem exec_send_from_sending {s : State} {f : List Byte} {i n : Nat} {w : List Event} {left : List Input}
    (hl : legalCfg s.cfg = true) (hs : s.bte.st = .sending) (hd : s.bte.dir = .tx) (hf : s.bte.txbuf = some f)
    (hi : s.bte.txIdx = some i) (hlt : i < f.length) (hn : s.bte.byteCnt = some n) (h1 : 1 ≤ n) (hle : n ≤ s.cfg.tByte)
    (hw : lineOnly w) (hk : tickCount w + 1 = (f.length - 1 - i) * s.cfg.tByte + n)
    (hin : s.inbox = events (w ++ [.tick]) ++ left) :
    exec .send s = .next { s with
      bte := { s.bte with
        txIdx   := some f.length
        byteCnt := some 1
        turnCnt := some s.cfg.tTurn
        st      := .awaitingTurnaround }
      inbox := left
      out   := s.out ++ (f.drop i).map .txByte
      ret   := some .unit } := by
  obtain ⟨k, hkdef⟩ : ∃ k, k = i * s.cfg.tByte + (s.cfg.tByte - n) := ⟨_, rfl⟩
  have hik : i ≤ k / s.cfg.tByte := (Nat.le_div_iff_mul_le (by omega)).mpr (by omega)
  have htotal : f.length * s.cfg.tByte = (f.length - 1 - i) * s.cfg.tByte + i * s.cfg.tByte + s.cfg.tByte := by
    conv_lhs => rw [show f.length = (f.length - 1 - i) + i + 1 by omega, Nat.add_mul, Nat.add_mul, Nat.one_mul]
  have hlead := send_lead hl hs hd hf (i := i) (.event .tick :: left) w k hw hik (by omega)
  rw [show events w ++ .event .tick :: left = s.inbox by simp [hin], hkdef, sendAt_self f hi hn h1 hle, ← hkdef] at hlead
  have hlast := send_last hl hs hf (i := i) (k := k + tickCount w) (hik.trans (Nat.div_le_div_right (by omega)))
    (by omega) left
  have hlen : w.length + 1 ≤ s.inbox.length := by rw [hin]; simp
  rw [exec_send_eq_sendPhase (inSend_sending hs hf), sendPhase,
    runPhase_exit (hlead.mono fun _ h => inSend_sending h.1 h.2.1) (inSend_sending (f := f) hs hf)
      (by simp [sendAt, nextEvent]) hlast rfl (by omega)]
  rfl

/-- Settles O39: SEND from an idle block, and in the middle of a frame. -/
theorem sendPutsTheWholeFrameOut : Obligations.SendPutsTheWholeFrameOut :=
  ⟨fun _ _ _ _ _ _ => exec_send_from_idle, fun _ _ _ _ _ _ => exec_send_from_sending⟩

/-- TURN (R122, R146): the ticks left of the delay, and where the last of them leads. -/
theorem exec_turn_eq {s : State} {n e : Nat} {w : List Event} {left : List Input} (hl : legalCfg s.cfg = true)
    (hs : s.bte.st = .awaitingTurnaround) (hd : s.bte.dir = .tx) (hn : s.bte.turnCnt = some n) (he : s.bte.expLen = some e)
    (hw : lineOnly w) (hk : tickCount w + 1 = n) (hin : s.inbox = events (w ++ [.tick]) ++ left) :
    exec .turn s =
      .next { s with bte := afterTurn s.cfg e (setTurnCnt 1 s.bte), inbox := left, ret := some .unit } := by
  have hlead := turn_lead hl hs hd he (.event .tick :: left) w n hw (by omega)
  rw [show events w ++ .event .tick :: left = s.inbox by simp [hin], turningAt_self hn,
    show n - tickCount w = 1 by omega] at hlead
  have hleft : inTurnaround (afterTurn s.cfg e (setTurnCnt 1 s.bte)) = false := by
    rw [afterTurn]
    split <;> rfl
  have hlen : w.length + 1 ≤ s.inbox.length := by rw [hin]; simp
  rw [exec, execTurn, if_pos (inTurnaround_of_st hs),
    runPhase_exit (hlead.mono fun _ h => inTurnaround_of_st h.1) (inTurnaround_of_st hs) (by simp [turningAt, nextEvent])
      (turn_last hl hs he left) hleft (by omega)]
  rfl

/-- Settles O40: the last tick of the delay opens the receive window, or completes when nothing is expected. -/
theorem turnWaitsOutTheDelay : Obligations.TurnWaitsOutTheDelay := by
  intro s n e w left hl hs hd hn he hw hk hin
  have hturn := exec_turn_eq hl hs hd hn he hw hk hin
  exact ⟨fun h0 => hturn.trans (by rw [afterTurn, if_neg h0]; rfl),
    fun h0 => hturn.trans (by rw [afterTurn, if_pos h0]; rfl)⟩

section Recv

variable {s : State} {n e : Nat} {w : List Event} {r : Result} {left : List Input} (hl : legalCfg s.cfg = true)
  (hs : s.bte.st = .receiving) (he : s.bte.expLen = some e) (hn : s.bte.toCnt = some n) (hw : lineOnly w)
  (hk : tickCount w < n) (hx : s.bte.rxbuf.length + (arrivals w).length < e)
include hl hs he hn hw hk hx

/-- A stretch of the window before the event `x` that ends it: the bytes collected and the ticks left. -/
theorem recv_lead {x : Event} (hin : s.inbox = events (w ++ [x]) ++ left) :
    Lead (fun t => inReceive t.bte = true) w.length s
      (receivingAt s (s.bte.rxbuf ++ arrivals w) (n - tickCount w) (.event x :: left)) := by
  have hself : receivingAt s s.bte.rxbuf n s.inbox = s := by simp only [receivingAt, setToCnt, ← hn]
  have hlead := receive_lead hl hs he (.event x :: left) w s.bte.rxbuf n hw hx hk
  rw [show events w ++ .event x :: left = s.inbox by simp [hin], hself] at hlead
  exact hlead.mono fun _ h => inReceive_of_st h.1

/-- RECV ends with the event `x` that completes the transaction, and gives back what was collected (R123). -/
theorem exec_recv_eq {x : Event} {b : Bte} (hin : s.inbox = events (w ++ [x]) ++ left) (hr : x ≠ .reset)
    (hadv : advance (receivingAt s (s.bte.rxbuf ++ arrivals w) (n - tickCount w) (.event x :: left)) =
      .next { s with bte := complete r b, inbox := left }) :
    exec .recv s = .next { s with
      bte := complete r b, inbox := left
      ret := some (.bytes (collected { s.bte with rxbuf := s.bte.rxbuf ++ arrivals w } x)) } := by
  have hlead := recv_lead hl hs he hn hw hk hx hin
  have hlen : w.length + 1 ≤ s.inbox.length := by rw [hin]; simp
  rw [exec, execRecv, if_pos (inReceive_of_st hs), runPhase_exit hlead (inReceive_of_st hs) hr hadv rfl (by omega)]
  cases x <;> rfl

end Recv

/-- Settles O41: the last byte completes the transaction in the state the window has come to. -/
theorem recvReturnsWhenTheCountIsSatisfied : Obligations.RecvReturnsWhenTheCountIsSatisfied := by
  intro s n e w x r left hl hs he hn hw hk hx hr hin
  exact exec_recv_eq hl hs he hn hw hk (by omega) hin nofun
    (receive_last_byte hl hs he (by simp; omega) hr)

/-- Settles O42: on the window's last tick the bytes are too few, so the result is `lateReason`. -/
theorem recvReturnsWhatItHasAtTheTimeout : Obligations.RecvReturnsWhatItHasAtTheTimeout := by
  intro s n e w left hl hs he h6 hn hw hk hx hin
  refine exec_recv_eq hl hs he hn hw (by omega) hx hin nofun (b := consumeRx (setToCnt 1 s.bte)) ?_
  rw [show n - tickCount w = 1 by omega]
  exact receive_last_tick hl hs he (decodeStatus_of_length_lt h6 (by simpa using hx))

end Sys2Proof.Machine
end

section
/-! An instruction frame that is the one due is SEND (R61, R62, R120). -/

namespace Sys2Proof.Machine

theorem carryFrame_due {s : State} {f : List Byte} (h : dueFrame s.bte = some f) : carryFrame f s = exec .send s := by
  rw [carryFrame, if_pos h, exec_send_eq_sendPhase (by simp [inSend, h])]

theorem carryFrame_other {s : State} {f : List Byte} (h : dueFrame s.bte ≠ some f) : carryFrame f s = hearFrame f s :=
  if_neg h

theorem exec_status (id l e : Byte) (p : List Byte) (k : Byte) (s : State) :
    exec (.status id l e p k) s = hearFrame (statusBytes id l e p k) s := rfl

/-- The frame due of an idle block is that of the request at the head of the queue. -/
theorem carryFrame_head {s : State} {c : Nat} {q : Request} {rest : List (Nat × Request)} {w : List Event}
    {left : List Input} (hl : legalCfg s.cfg = true) (hs : s.bte.st = .idle) (hq : s.bte.queue = (c, q) :: rest)
    (hv : validate q = true) (hw : lineOnly w) (hn : tickCount w = (encodeRequest q).length * s.cfg.tByte)
    (hin : s.inbox = events (w ++ [.tick]) ++ left) :
    carryFrame (encodeRequest q) s = .next (drainedState s c q rest left) := by
  rw [carryFrame_due (by rw [dueFrame_idle_head hs hq, if_pos hv])]
  exact exec_send_from_idle hl hs hq hv hw hn hin

/-- Settles O44: the READ frame of a request in range is its encoding. -/
theorem readFrameDueIsSent : Obligations.ReadFrameDueIsSent :=
  ⟨fun _ _ _ _ _ _ _ _ hl hs hq ht ha hn hw hk hin =>
    carryFrame_head hl hs hq ((validate_rd _ _ _).mpr ⟨ht, ha, hn⟩) hw hk hin, fun _ _ _ _ _ => carryFrame_due⟩

/-- Settles O45: the WRITE frame of a request in range is its encoding. -/
theorem writeFrameDueIsSent : Obligations.WriteFrameDueIsSent :=
  ⟨fun _ _ _ _ _ _ _ _ hl hs hq ht ha hd hw hk hin =>
    carryFrame_head hl hs hq ((validate_wr _ _ _).mpr ⟨ht, ha, hd⟩) hw (by rw [hk, encodeRequest_wr, encWrite_length]) hin,
    fun _ _ _ _ _ _ => carryFrame_due⟩

end Sys2Proof.Machine
end

section
/-! Any other frame is heard, byte by byte (R149, R153). -/

namespace Sys2Proof.Machine

theorem exec_of_heardFrame {s : State} {i : Instr} {f : List Byte} (h : heardFrame s.bte i = some f) :
    exec i s = hearFrame f s := by
  cases i with
  | read t a n k =>
    rw [heardFrame] at h
    split at h
    next => cases h
    next hdue => cases h; exact carryFrame_other hdue
  | write t l a d k =>
    rw [heardFrame] at h
    split at h
    next => cases h
    next hdue => cases h; exact carryFrame_other hdue
  | status id l e p k => cases h; rfl
  | rd | wr | wrBcast | chk | encRd | encWr | decSt | send | turn | recv | exec => cases h

/-- One byte of a frame that is heard. -/
theorem hearFrame_cons {s : State} {x : Byte} {xs : List Byte} {b : Bte} (hl : legalCfg s.cfg = true)
    (he : engine s.cfg s.bte (.rxByte x) = .ok (b, [])) : hearFrame (x :: xs) s = hearFrame xs { s with bte := b } := by
  rw [hearFrame, applyEvent_of_engine hl rfl he, andThen_next, commit, List.append_nil]

/-- With the line driven nothing of the frame is heard (R125). -/
theorem hearFrame_gated {s : State} (hl : legalCfg s.cfg = true) (hs : s.bte.st ≠ .receiving) (hd : s.bte.dir = .tx)
    (f : List Byte) : hearFrame f s = .next { s with ret := some .unit } := by
  induction f with
  | nil => rfl
  | cons x xs ih =>
    rw [hearFrame_cons (b := s.bte) hl (by rw [engine_rx_elsewhere hs, rxByteElsewhere_gated x hd])]
    exact ih

/-- With the line released its bytes are stale input, as far as the buffer has room (R126). -/
theorem hearFrame_stale (f : List Byte) : ∀ {s : State}, legalCfg s.cfg = true → s.bte.st ≠ .receiving → s.bte.dir = .rx →
    s.bte.rxbuf.length ≤ s.cfg.rxCap →
    hearFrame f s = .next { s with
      bte := { s.bte with rxbuf := (s.bte.rxbuf ++ f).take s.cfg.rxCap }
      ret := some .unit } := by
  induction f with
  | nil =>
    intro s _ _ _ hcap
    rw [List.append_nil, List.take_of_length_le hcap]
    rfl
  | cons x xs ih =>
    intro s hl hs hd hcap
    have he := engine_rx_elsewhere (cfg := s.cfg) (x := x) hs
    rw [rxByteElsewhere_released x hd] at he
    by_cases hroom : s.bte.rxbuf.length < s.cfg.rxCap
    · rw [if_pos hroom] at he
      rw [hearFrame_cons hl he, ih (s := { s with bte := capture x s.bte }) hl hs hd (by simpa using hroom)]
      simp [capture]
    · rw [if_neg hroom] at he
      rw [hearFrame_cons hl he, ih (s := { s with bte := s.bte }) hl hs hd hcap]
      simp [show s.cfg.rxCap = s.bte.rxbuf.length by omega]

/-- Settles O46: the gate, and the stale input. -/
theorem framesHeardOutsideAReceive : Obligations.FramesHeardOutsideAReceive := by
  intro s i f hl hf hs
  rw [exec_of_heardFrame hf]
  exact ⟨fun hd => hearFrame_gated hl hs hd f, hearFrame_stale f hl hs⟩

/-- In a receive the bytes are collected while the count is not reached (R149). -/
theorem hearFrame_collects {e : Nat} (f : List Byte) : ∀ {s : State}, legalCfg s.cfg = true → s.bte.st = .receiving →
    s.bte.expLen = some e → s.bte.rxbuf.length + f.length < e →
    hearFrame f s = .next { s with bte := { s.bte with rxbuf := s.bte.rxbuf ++ f }, ret := some .unit } := by
  induction f with
  | nil =>
    intro s _ _ _ _
    rw [List.append_nil]
    rfl
  | cons x xs ih =>
    intro s hl hs he hlt
    rw [List.length_cons] at hlt
    have hmore := rxByteReceiving_collects (x := x) he (by omega)
    rw [hearFrame_cons hl ((engine_rx_receiving hs).trans hmore),
      ih (s := { s with bte := capture x s.bte }) hl hs he (by simp; omega)]
    simp [capture]

/-- The bytes `f` that reach the count complete the transaction, and `g` is heard after it (R149). -/
theorem hearFrame_completes {e : Nat} {r : Result} {g : List Byte} (f : List Byte) : ∀ {s : State}, legalCfg s.cfg = true →
    s.bte.st = .receiving → s.bte.expLen = some e → s.bte.rxbuf.length < e → s.bte.rxbuf.length + f.length = e →
    decodeStatus (s.bte.rxbuf ++ f) e = some r →
    hearFrame (f ++ g) s = hearFrame g { s with bte := complete r (consumeRx s.bte) } := by
  induction f with
  | nil => intro s _ _ _ hlt hlen; simp at hlen; omega
  | cons x xs ih =>
    intro s hl hs he hlt hlen hr
    rw [List.length_cons] at hlen
    rw [List.cons_append]
    cases xs with
    | nil =>
      have hlast := rxByteReceiving_ends he hlen hr
      exact hearFrame_cons hl ((engine_rx_receiving hs).trans hlast)
    | cons y ys =>
      rw [List.length_cons] at hlen
      have hmore := rxByteReceiving_collects (x := x) he (by omega)
      rw [hearFrame_cons hl ((engine_rx_receiving hs).trans hmore),
        ih (s := { s with bte := capture x s.bte }) hl hs he (by simp; omega) (by simp; omega) (by simpa using hr)]
      rfl

/-- Settles O47: the frame is cut where the count is reached; what is behind the cut is stale input in `Completed`. -/
theorem framesHeardDuringAReceive : Obligations.FramesHeardDuringAReceive := by
  intro s i f e hl hf hs hd he h6 hlt
  rw [exec_of_heardFrame hf]
  refine ⟨hearFrame_collects f hl hs he, fun r hle hr => ?_⟩
  have hcut : (s.bte.rxbuf ++ f).take e = s.bte.rxbuf ++ f.take (e - s.bte.rxbuf.length) := by
    rw [List.take_append, List.take_of_length_le (by omega)]
  have hrest : (s.bte.rxbuf ++ f).drop e = f.drop (e - s.bte.rxbuf.length) := by
    rw [List.drop_append, List.drop_eq_nil_of_le (by omega), List.nil_append]
  rw [hcut] at hr
  have hheard := hearFrame_completes (g := f.drop (e - s.bte.rxbuf.length)) _ hl hs he hlt
    (by rw [List.length_take]; omega) hr
  rw [List.take_append_drop] at hheard
  rw [hheard, hrest, hearFrame_stale _ (s := { s with bte := complete r (consumeRx s.bte) }) hl (by simp) hd (by simp)]
  simp [complete, consumeRx]

/-- Settles O48: the frame has as many bytes as are expected, and the decoder tests its checksum only. -/
theorem statusFrameAnswersTheRequest : Obligations.StatusFrameAnswersTheRequest := by
  intro s id l err k p hl hs hempty he
  have hr := decodeStatus_frame hdr hdr id l err p k
  rw [if_neg (by simp), ite_not] at hr
  have hheard := hearFrame_completes (g := []) (statusBytes id l err p k) hl hs he (by simp [hempty])
    (by simp [hempty, statusBytes]; omega) (by rw [hempty]; exact hr)
  rw [List.append_nil] at hheard
  rw [exec_status, hheard]
  rfl

end Sys2Proof.Machine
end

section
/-! A `Reset` before the receive window (R154, R241): how far the frame has come by then. -/

namespace Sys2Proof.Machine

/-- `k` ticks after the idle state `s`, whose head of the queue is `q`, the machine is in `t`, the inputs `l` still to come: the
first of the ticks starts the transaction, and each `T_BYTE` after it put one byte of the frame out (R129). -/
structure Underway (q : Request) (s : State) (k : Nat) (l : List Input) (t : State) : Prop where
  cfg   : t.cfg = s.cfg
  inbox : t.inbox = l
  out   : t.out = s.out ++ ((encodeRequest q).take ((k - 1) / s.cfg.tByte)).map .txByte

section Underway

variable {s : State} {c : Nat} {q : Request} {rest : List (Nat × Request)} {w : List Event} {l : List Input}
  (hl : legalCfg s.cfg = true) (hs : s.bte.st = .idle) (hq : s.bte.queue = (c, q) :: rest) (hv : validate q = true)
  (hw : lineOnly w) (hin : s.inbox = events w ++ l)

include hl hs hw hin in
/-- Before the start tick. -/
theorem underway_idle (hk : tickCount w = 0) : ∃ t, Lead NotRetire w.length s t ∧ Underway q s (tickCount w) l t := by
  obtain ⟨xs, hlead⟩ := idle_noise_lead l w s hl hs hin hw hk
  exact ⟨_, hlead.mono fun t h => notRetire_of_st (by rw [h.2.1]; decide), rfl, rfl, by simp [hk]⟩

include hl hs hq hv hw hin

/-- While the frame is sent. -/
theorem underway_sending (h1 : 1 ≤ tickCount w) (hk : tickCount w ≤ (encodeRequest q).length * s.cfg.tByte) :
    ∃ t, Lead NotRetire w.length s t ∧ Underway q s (tickCount w) l t := by
  obtain ⟨u, v, rfl, hu, hv', hut, hvt⟩ := split_at_tick hw (a := 0) (b := tickCount w - 1) (by omega)
  obtain ⟨xs, hidle⟩ := idle_noise_lead (events (.tick :: v) ++ l) u s hl hs (by simpa using hin) hu hut
  obtain ⟨hev, hstart⟩ := start_tick (s := { s with bte := { s.bte with rxbuf := xs }, inbox := events (.tick :: v) ++ l })
    hl hs hq hv rfl
  have hlt : 0 + tickCount v < (encodeRequest q).length * s.cfg.tByte := by omega
  have hsend := send_lead (s := { s with bte := { loadedFor c q rest s.bte with st := .sending } })
    (f := encodeRequest q) hl rfl rfl rfl (i := 0) l v 0 hv' (Nat.zero_le _) hlt
  rw [Nat.zero_add, hvt] at hsend
  have hbefore := hidle.mono (Q := NotRetire) fun t h => notRetire_of_st (by rw [h.2.1]; decide)
  have hsending := hsend.mono (Q := NotRetire) fun t h => notRetire_of_st (by rw [h.1]; decide)
  have hall := hbefore.trans (.there (notRetire_of_st (by simp [hs])) (by rw [hev]; decide) hstart hsending)
  rw [List.length_append, List.length_cons]
  exact ⟨_, hall, rfl, rfl, rfl⟩

/-- In the turnaround delay. -/
theorem underway_turnaround (h1 : (encodeRequest q).length * s.cfg.tByte < tickCount w)
    (hk : tickCount w < ticksToWindow s.cfg q) : ∃ t, Lead NotRetire w.length s t ∧ Underway q s (tickCount w) l t := by
  obtain ⟨u, v, rfl, hu, hv', hut, hvt⟩ := split_at_tick hw (a := (encodeRequest q).length * s.cfg.tByte)
    (b := tickCount w - 1 - (encodeRequest q).length * s.cfg.tByte) (by omega)
  obtain ⟨t, hdrain, -, hc, hev, hadv⟩ := drain_lead hl hs hq hv (l := events v ++ l) hu hut (by simpa using hin)
  have hdrained : turningAt { drainedState s c q rest l with ret := s.ret } s.cfg.tTurn (events v ++ l) =
      { drainedState s c q rest (events v ++ l) with ret := s.ret } := rfl
  have hturn := turn_lead (s := { drainedState s c q rest l with ret := s.ret }) (e := expectedLen q) hl rfl rfl rfl l v
    s.cfg.tTurn hv' (by rw [hvt]; simp only [ticksToWindow] at hk; omega)
  rw [hdrained] at hturn
  have hsending := hdrain.mono (Q := NotRetire) fun t h => notRetire_of_st h.1
  have hturning := hturn.mono (Q := NotRetire) fun t h => notRetire_of_st (by rw [h.1]; decide)
  have hall := hsending.trans (.there (notRetire_of_st hc) (by rw [hev]; decide) hadv hturning)
  obtain ⟨-, -, hbyte, -⟩ := (legalCfg_iff s.cfg).mp hl
  have hwhole : (encodeRequest q).length ≤ (tickCount (u ++ .tick :: v) - 1) / s.cfg.tByte :=
    (Nat.le_div_iff_mul_le hbyte).mpr (by omega)
  have hout : (encodeRequest q).take ((tickCount (u ++ .tick :: v) - 1) / s.cfg.tByte) = encodeRequest q :=
    List.take_of_length_le hwhole
  rw [List.length_append, List.length_cons]
  exact ⟨_, hall, rfl, rfl, by rw [hout]; rfl⟩

/-- Anywhere before the receive window. -/
theorem underway_before_window (hk : tickCount w < ticksToWindow s.cfg q) :
    ∃ t, Lead NotRetire w.length s t ∧ Underway q s (tickCount w) l t := by
  by_cases h0 : tickCount w = 0
  · exact underway_idle hl hs hw hin h0
  · by_cases hframe : tickCount w ≤ (encodeRequest q).length * s.cfg.tByte
    · exact underway_sending hl hs hq hv hw hin (by omega) hframe
    · exact underway_turnaround hl hs hq hv hw hin (by omega) hk

end Underway

/-- The wait for a `Done` is over with a `Reset` (R241). -/
theorem awaitDone_abandoned {todo j k : Nat} {s t u : State} (h : Lead NotRetire j s t) (hr : nextEvent t = .reset)
    (ha : advance t = .next u) (hk : j + 1 ≤ k) : awaitDone k todo s = .next (giveBack .abandoned u) := by
  obtain ⟨m, rfl⟩ : ∃ m, k = m + 1 + j := ⟨k - 1 - j, by omega⟩
  rw [awaitDone_lead h, awaitDone, ha, andThen_next, if_pos hr]

/-- Settles O56: the call is under way when the `Reset` comes, and keeps only what is on the line. -/
theorem resetAbandonsACallUnderWay : Obligations.ResetAbandonsACallUnderWay := by
  intro i s c q w left hi h hv hw hk hin
  obtain ⟨-, -, -, hdepth, -⟩ := (legalCfg_iff s.cfg).mp h.legal
  have hroom : s.bte.queue.length < s.cfg.qDepth := by rw [h.queue]; exact hdepth
  obtain ⟨t, hlead, hcfg, hinbox, hout⟩ :=
    underway_before_window (s := commit (enqueue c q s.bte) [.accepted c] s) (c := c) (rest := [])
      (l := .event .reset :: left) h.legal h.idle (by simp [h.queue]) hv hw (by simp [hin]) hk
  obtain ⟨hev, hadv⟩ := advance_event (b := Bte.reset) (o := []) hinbox (hcfg ▸ h.legal) rfl rfl
  have hlen : s.inbox.length = w.length + 1 + left.length := by rw [hin]; simp; omega
  rw [exec_of_requestOf hi, transact_accepted q h.legal h.client hroom, awaitDone_abandoned hlead hev hadv (by omega)]
  simp [giveBack, commit, setInbox, hcfg, hout]

end Sys2Proof.Machine
end
